-- ==== Sys2Proof/Word.lean ====
section
/-! DEFINITION. The fixed widths of the SSF GCM core: bytes, 32-bit words, 128-bit blocks
(00_scope.md R7, R9, R10). -/

namespace Sys2Proof

/-- A byte; bit 0 is the least significant bit (R9). -/
abbrev Byte := BitVec 8

/-- A 32-bit number: a command word, an operand register, a status word, a host word (R7, R9). -/
abbrev Word := BitVec 32

/-- A block of 16 bytes (R10), held as the 128-bit number whose most significant byte is byte 0, so
that a block literal reads as the spec's hexadecimal strings do. -/
abbrev Block := BitVec 128

/-- The 256-bit unreduced product of two field elements (R126). -/
abbrev Wide := BitVec 256

end Sys2Proof
end

