-- ==== Sys2Proof/Syntax.lean ====
section
/-! DEFINITION. The nine commands of the core, one constructor per row of the opcode table
(30_encoding.md R90 to R93). -/

namespace Sys2Proof

/-- The three legal key sizes, `KS` = 0, 1, 2 (R91). -/
inductive KeySize where
  | k128 | k192 | k256
deriving DecidableEq, Repr

/-- The number of a block register, 0 to 7 (R21, R92): `H` is 0, `Y` is 1, `CB` is 2. -/
abbrev BReg := Fin 8

/-- The alias `H` of `B0`, the hash subkey (R21). -/
abbrev regH : BReg := 0

/-- The alias `Y` of `B1`, the GHASH accumulator (R21). -/
abbrev regY : BReg := 1

/-- The alias `CB` of `B2`, the initial counter block (R21). -/
abbrev regCB : BReg := 2

/-- A command (R93).  A key-size operand is the `KS` field: `none` is the value 3, which is not a key
size but is a word of the command all the same (R94, R96).  A tag-length operand is the `TLEN` field as
it is, legal or not (R92). -/
inductive Instr where
  /-- `GFMUL Bd, Ba, Bb` (40_gf128.md R130). -/
  | gfmul (bd ba bb : BReg)
  /-- `INC32 Bd, Ba` (42_gctr.md R156). -/
  | inc32 (bd ba : BReg)
  /-- `LDB Bd` (44_move.md R200). -/
  | ldb (bd : BReg)
  /-- `STB Ba` (44_move.md R201). -/
  | stb (ba : BReg)
  /-- `HKEY ks` (41_ghash.md R143). -/
  | hkey (ks : Option KeySize)
  /-- `GHASH` (41_ghash.md R144). -/
  | ghash
  /-- `GCTR ks` (42_gctr.md R160). -/
  | gctr (ks : Option KeySize)
  /-- `ENCRYPT ks, tlen` (43_gcm.md R180). -/
  | encrypt (ks : Option KeySize) (tlen : BitVec 5)
  /-- `DECRYPT ks, tlen` (43_gcm.md R183). -/
  | decrypt (ks : Option KeySize) (tlen : BitVec 5)
deriving DecidableEq, Repr

/-- The pseudo-instruction `SQR Bd, Ba`, an exact alias of one GFMUL (R99). -/
def sqr (bd ba : BReg) : Instr := .gfmul bd ba ba

/-- The pseudo-instruction `MULH Bd, Ba`, an exact alias of one GFMUL (R99). -/
def mulh (bd ba : BReg) : Instr := .gfmul bd ba regH

end Sys2Proof
end

