-- ==== Sys2Proof/Decode.lean ====
section
/-! DEFINITION. The decoder and the encoder of command words (30_encoding.md R90 to R97), and the
assembler text of a command (R98). -/

namespace Sys2Proof

/-- Why a word is none of the nine commands (R95): its `OPC` is no command's, or its `OPC` is a
command's but a field the command does not use, or `ZERO`, is not zero. -/
inductive IllegalWord where
  | unknownOpcode (opc : BitVec 8)
  | unusedFieldSet (opc : BitVec 8)
deriving DecidableEq, Repr

/-- What a word decodes to: one of the nine commands, or an illegal word (R94). -/
inductive Decoded where
  | command (i : Instr)
  | illegal (why : IllegalWord)
deriving DecidableEq, Repr

/-- `OPC`, bits 31:24 (R90). -/
def opcField (w : Word) : BitVec 8 := w.extractLsb' 24 8

/-- The three-bit register field whose lowest bit is `lo` (R90, R92). -/
def regField (lo : Nat) (w : Word) : BReg := (w.extractLsb' lo 3).toFin

/-- `KS`, bits 9:8; the value 3 is not a key size (R91). -/
def keyField (w : Word) : Option KeySize :=
  match (w.extractLsb' 8 2).toNat with
  | 0 => some .k128
  | 1 => some .k192
  | 2 => some .k256
  | _ => none

/-- `TLEN`, bits 14:10 (R92). -/
def tagField (w : Word) : BitVec 5 := w.extractLsb' 10 5

/-- One row of the opcode map (R93). -/
structure OpcodeRow where
  mnemonic : String
  mask     : Word
  mtch     : Word
  build    : Word → Instr

/-- The nine rows of the opcode map, in the table's order (R93). -/
def opcodeRows : List OpcodeRow :=
  [ { mnemonic := "GFMUL", mask := 0xff007fff, mtch := 0x01000000,
      build := fun w => .gfmul (regField 21 w) (regField 18 w) (regField 15 w) },
    { mnemonic := "INC32", mask := 0xff03ffff, mtch := 0x02000000,
      build := fun w => .inc32 (regField 21 w) (regField 18 w) },
    { mnemonic := "LDB", mask := 0xff1fffff, mtch := 0x03000000,
      build := fun w => .ldb (regField 21 w) },
    { mnemonic := "STB", mask := 0xffe3ffff, mtch := 0x04000000,
      build := fun w => .stb (regField 18 w) },
    { mnemonic := "HKEY", mask := 0xfffffcff, mtch := 0x08000000,
      build := fun w => .hkey (keyField w) },
    { mnemonic := "GHASH", mask := 0xffffffff, mtch := 0x09000000,
      build := fun _ => .ghash },
    { mnemonic := "GCTR", mask := 0xfffffcff, mtch := 0x0a000000,
      build := fun w => .gctr (keyField w) },
    { mnemonic := "ENCRYPT", mask := 0xffff80ff, mtch := 0x10000000,
      build := fun w => .encrypt (keyField w) (tagField w) },
    { mnemonic := "DECRYPT", mask := 0xffff80ff, mtch := 0x11000000,
      build := fun w => .decrypt (keyField w) (tagField w) } ]

/-- The word is the command of the row (R93). -/
def OpcodeRow.fits (r : OpcodeRow) (w : Word) : Bool := w &&& r.mask == r.mtch

/-- The `OPC` of the row's command (R93). -/
def OpcodeRow.opc (r : OpcodeRow) : BitVec 8 := opcField r.mtch

/-- Decoding (R94): total, every word is one of the nine commands or illegal. -/
def decodeWord (w : Word) : Decoded :=
  match opcodeRows.find? (fun r => r.fits w) with
  | some r => .command (r.build w)
  | none =>
    if opcodeRows.any (fun r => r.opc == opcField w) then
      .illegal (.unusedFieldSet (opcField w))
    else .illegal (.unknownOpcode (opcField w))

/-- The command a word decodes to, if any. -/
def Decoded.toOption : Decoded → Option Instr
  | .command i => some i
  | .illegal _ => none

/-- The word whose bits are the low `nbits` bits of `w`, every other bit 0. -/
def tableWord (nbits w : Nat) : Word := BitVec.ofNat 32 (w % 2 ^ nbits)

/-- What the decoder reads from the bits of a row of the opcode table.  A command is one 32-bit word
(R90, R97); more bits than that are no command. -/
def decodeTableWord (nbits w : Nat) : Option Instr :=
  if nbits ≤ 32 then (decodeWord (tableWord nbits w)).toOption else none

/-- `OPC` of each command (R93). -/
def Instr.opc : Instr → BitVec 8
  | .gfmul _ _ _ => 0x01
  | .inc32 _ _ => 0x02
  | .ldb _ => 0x03
  | .stb _ => 0x04
  | .hkey _ => 0x08
  | .ghash => 0x09
  | .gctr _ => 0x0a
  | .encrypt _ _ => 0x10
  | .decrypt _ _ => 0x11

/-- The number of a key-size field (R91). -/
def keyCode : Option KeySize → BitVec 2
  | some .k128 => 0
  | some .k192 => 1
  | some .k256 => 2
  | none => 3

/-- A register number placed with its lowest bit at `lo` (R90). -/
def putReg (lo : Nat) (r : BReg) : Word := BitVec.ofNat 32 r.val <<< lo

/-- The six fields of the one command-word format put together (R90); `ZERO` is zero. -/
def assemble (opc : BitVec 8) (regs : Word) (tlen : BitVec 5) (ks : BitVec 2) : Word :=
  (opc.setWidth 32 <<< 24) ||| regs ||| (tlen.setWidth 32 <<< 10) ||| (ks.setWidth 32 <<< 8)

/-- The command word of a command: the fields it does not use are zero (R90, R93). -/
def encode (i : Instr) : Word :=
  match i with
  | .gfmul bd ba bb => assemble i.opc (putReg 21 bd ||| putReg 18 ba ||| putReg 15 bb) 0 0
  | .inc32 bd ba => assemble i.opc (putReg 21 bd ||| putReg 18 ba) 0 0
  | .ldb bd => assemble i.opc (putReg 21 bd) 0 0
  | .stb ba => assemble i.opc (putReg 18 ba) 0 0
  | .hkey ks => assemble i.opc 0 0 (keyCode ks)
  | .ghash => assemble i.opc 0 0 0
  | .gctr ks => assemble i.opc 0 0 (keyCode ks)
  | .encrypt ks tlen => assemble i.opc 0 tlen (keyCode ks)
  | .decrypt ks tlen => assemble i.opc 0 tlen (keyCode ks)

/-- The name of a block register in assembler text (R98). -/
def regText (r : BReg) : String := "B" ++ toString r.val

/-- The key size in assembler text (R98); the value 3 has no spelling in the spec. -/
def keyText : Option KeySize → String
  | some .k128 => "128"
  | some .k192 => "192"
  | some .k256 => "256"
  | none => "?"

/-- The assembler line of a command (R98), destination first, without the aliases. -/
def Instr.asm : Instr → String
  | .gfmul bd ba bb => "GFMUL " ++ regText bd ++ ", " ++ regText ba ++ ", " ++ regText bb
  | .inc32 bd ba => "INC32 " ++ regText bd ++ ", " ++ regText ba
  | .ldb bd => "LDB " ++ regText bd
  | .stb ba => "STB " ++ regText ba
  | .hkey ks => "HKEY " ++ keyText ks
  | .ghash => "GHASH"
  | .gctr ks => "GCTR " ++ keyText ks
  | .encrypt ks tlen => "ENCRYPT " ++ keyText ks ++ ", " ++ toString tlen.toNat
  | .decrypt ks tlen => "DECRYPT " ++ keyText ks ++ ", " ++ toString tlen.toNat

end Sys2Proof
end

