-- ==== Sys2Proof/Machine/Bytes.lean ====
section
/-! DEFINITION. Byte strings, the big-endian readings of them, and the order of coefficients in a block
(00_scope.md R10, R13, R14; 20_memory.md R61, R62). -/

namespace Sys2Proof.Machine

/-- `zeros(n)` (R10). -/
def zeroBytes (n : Nat) : List Byte := List.replicate n 0

/-- A byte string as a big-endian number of width `w` (R10, R62). -/
def ofBytes {w : Nat} (s : List Byte) : BitVec w :=
  s.foldl (fun v b => (v <<< 8) ||| b.setWidth w) 0

/-- The `n` bytes of a number of `8 * n` bits, most significant first (R10, R62). -/
def toBytes {w : Nat} (n : Nat) (v : BitVec w) : List Byte :=
  (List.range n).map (fun i => v.extractLsb' (8 * (n - 1 - i)) 8)

/-- `be32` (R10). -/
def be32 (s : List Byte) : Word := ofBytes s

/-- `to_be32` (R10). -/
def toBe32 (v : Word) : List Byte := toBytes 4 v

/-- `to_be64` (R10). -/
def toBe64 (v : BitVec 64) : List Byte := toBytes 8 v

/-- The 16 bytes of a block, byte 0 first (R10). -/
def blockBytes (b : Block) : List Byte := toBytes 16 b

/-- The block of a 16-byte string, byte 0 first (R10). -/
def blockOf (s : List Byte) : Block := ofBytes s

/-- The block of a string of at most 16 bytes, padded with zeros on the right (41_ghash.md R140,
R141). -/
def padBlock (p : List Byte) : Block := blockOf (p ++ zeroBytes (16 - p.length))

/-- Bytewise exclusive-or of two strings, as far as both go (R10): of a whole keystream block and a
partial piece of data, the first bytes (42_gctr.md R159). -/
def xorBytes (a b : List Byte) : List Byte := List.zipWith (· ^^^ ·) a b

/-- `rev32` (R14). -/
def rev32 (w : Word) : Word := w.reverse

/-- `coef(a, i)`: bit `7 - (i mod 8)` of byte `i div 8` (R13). -/
def coef (a : Block) (i : Nat) : Bool :=
  (a.extractLsb' (8 * (15 - i / 8)) 8).getLsbD (7 - i % 8)

/-- `nat(a)`: the number whose bit `i` is `coef(a, i)` (40_gf128.md R120).  Byte 0 is the most
significant byte of a block, so this is the block with its bits reversed. -/
def natOrder (a : Block) : Block := a.reverse

/-- Word `k` of a block: its bytes `4k .. 4k+3` as a big-endian number (10_state.md R23). -/
def blockWord (b : Block) (k : Nat) : Word := b.extractLsb' (32 * (3 - k)) 32

/-- A block with its bytes `4k .. 4k+3` replaced by `to_be32(w)` (R23). -/
def setBlockWord (b : Block) (k : Nat) (w : Word) : Block :=
  (b &&& ~~~((0xffffffff : Block) <<< (32 * (3 - k)))) ||| (w.setWidth 128 <<< (32 * (3 - k)))

/-- The first `n` pieces of 16 bytes of a string; the last may be shorter. -/
def piecesFrom : Nat → List Byte → List (List Byte)
  | 0, _ => []
  | n + 1, s => s.take 16 :: piecesFrom n (s.drop 16)

/-- A string cut into full blocks in address order and, if any bytes are left, one partial block
(41_ghash.md R140, 42_gctr.md R157): `ceil(n / 16)` pieces. -/
def pieces (s : List Byte) : List (List Byte) := piecesFrom ((s.length + 15) / 16) s

end Sys2Proof.Machine
end

