-- ==== Sys2Proof/Machine/Gf128.lean ====
section
/-! DEFINITION. The GF(2^128) multiplier (40_gf128.md): the function of R120, which the machine uses,
and the five-step datapath of R123 to R128, which computes the same function (R122). -/

namespace Sys2Proof.Machine

/-- The exclusive-or of `v` shifted up by every `i < n` at which `u` has a one: the carryless product of
the low `n` bits of `u` with `v`, modulo the width. -/
def clmulLow {w : Nat} (u v : BitVec w) : Nat → BitVec w
  | 0 => 0
  | n + 1 => clmulLow u v n ^^^ (if u.getLsbD n then v <<< n else 0)

/-- `clmul(u, v)` of two 128-bit numbers, the 256-bit unreduced product (R120, R126). -/
def clmul (u v : Block) : Wide := clmulLow (u.setWidth 256) (v.setWidth 256) 128

/-- The field polynomial `P` as a natural-order number (R120). -/
def fieldPoly : Wide := 0x100000000000000000000000000000087

/-- The reduction loop of `polymod` from bit `128 + n - 1` down to bit 128 (R120). -/
def polymodLoop (p : Wide) : Nat → Wide
  | 0 => p
  | n + 1 => polymodLoop (if p.getLsbD (128 + n) then p ^^^ (fieldPoly <<< n) else p) n

/-- `polymod(p)`: bits 254 down to 128 are folded, the low 128 bits are the result (R120). -/
def polymod (p : Wide) : Block := (polymodLoop p 127).setWidth 128

/-- `gf128_mul(a, b)` (R120): `nat(z) = polymod(clmul(nat(a), nat(b)))`. -/
def gf128Mul (a b : Block) : Block := natOrder (polymod (clmul (natOrder a) (natOrder b)))

/-- The field's one, the polynomial 1 (00_scope.md R13). -/
def fieldOne : Block := 0x80000000000000000000000000000000

/-- The polynomial x (00_scope.md R13). -/
def fieldX : Block := 0x40000000000000000000000000000000

/-- Limb `k` of a block, step 1 of the datapath (R123). -/
def limb (a : Block) (k : Nat) : Word := rev32 (blockWord a k)

/-- `clmul32(x, y)` by its definition (R124). -/
def clmul32 (x y : Word) : BitVec 64 := clmulLow (x.setWidth 64) (y.setWidth 64) 32

/-- The mask `0x1111… << k` of 64 bits; its low half is the mask `m_k` of the inputs (R125). -/
def planeMask (k : Nat) : BitVec 64 := (0x1111111111111111 : BitVec 64) <<< k

/-- The sub-word `x_i` of R125, in 64 bits. -/
def subWord (x : Word) (i : Nat) : BitVec 64 := x.setWidth 64 &&& planeMask i

/-- The term `x_i * y_((k - i) mod 4)` of R125, an ordinary integer product, exact in 64 bits. -/
def planeTerm (x y : Word) (k i : Nat) : BitVec 64 := subWord x i * subWord y ((k + 4 - i) % 4)

/-- `z_k` of R125. -/
def planeSum (x y : Word) (k : Nat) : BitVec 64 :=
  planeTerm x y k 0 ^^^ planeTerm x y k 1 ^^^ planeTerm x y k 2 ^^^ planeTerm x y k 3

/-- Step 2: `clmul32` from integer multipliers by interleaved planes (R125). -/
def clmul32Planes (x y : Word) : BitVec 64 :=
  (planeSum x y 0 &&& planeMask 0) ||| (planeSum x y 1 &&& planeMask 1) |||
    (planeSum x y 2 &&& planeMask 2) ||| (planeSum x y 3 &&& planeMask 3)

/-- A limb product placed at bit `32 * n` (R126). -/
def placed (p : BitVec 64) (n : Nat) : Wide := p.setWidth 256 <<< (32 * n)

/-- Step 3, schoolbook: the sixteen limb products (R126). -/
def schoolbook (a b : Block) : Wide :=
  (List.range 4).foldl (fun acc i =>
    (List.range 4).foldl (fun acc j =>
      acc ^^^ placed (clmul32Planes (limb a i) (limb b j)) (i + j)) acc) 0

/-- `K(a0, a1, b0, b1)` of R126: the product of two-limb halves from three limb products. -/
def karatsubaHalf (a0 a1 b0 b1 : Word) : Wide :=
  let lo := clmul32Planes a0 b0
  let hi := clmul32Planes a1 b1
  let mid := clmul32Planes (a0 ^^^ a1) (b0 ^^^ b1) ^^^ lo ^^^ hi
  placed lo 0 ^^^ placed mid 1 ^^^ placed hi 2

/-- Step 3, Karatsuba at both levels: nine limb products (R126). -/
def karatsuba (a b : Block) : Wide :=
  let l := karatsubaHalf (limb a 0) (limb a 1) (limb b 0) (limb b 1)
  let u := karatsubaHalf (limb a 2) (limb a 3) (limb b 2) (limb b 3)
  let m := karatsubaHalf (limb a 0 ^^^ limb a 2) (limb a 1 ^^^ limb a 3)
    (limb b 0 ^^^ limb b 2) (limb b 1 ^^^ limb b 3)
  l ^^^ ((m ^^^ l ^^^ u) <<< 64) ^^^ (u <<< 128)

/-- One turn of the loop of step 4: word `P_k` folded into `P_(k-4)` and `P_(k-3)` (R127). -/
def foldWord (k : Nat) (p : Wide) : Wide :=
  let w : Word := p.extractLsb' (32 * k) 32
  let low : Word := w ^^^ (w <<< 1) ^^^ (w <<< 2) ^^^ (w <<< 7)
  let high : Word := (w >>> 31) ^^^ (w >>> 30) ^^^ (w >>> 25)
  p ^^^ (low.setWidth 256 <<< (32 * (k - 4))) ^^^ (high.setWidth 256 <<< (32 * (k - 3)))

/-- Step 4, reduction word by word for k = 7, 6, 5, 4 (R127). -/
def reduceWords (p : Wide) : Block :=
  (foldWord 4 (foldWord 5 (foldWord 6 (foldWord 7 p)))).setWidth 128

/-- Step 4 on whole numbers (R127): the high half folded once, its seven bits of overflow folded
again. -/
def reduceWhole (p : Wide) : Block :=
  let hi : Wide := p >>> 128
  let t : Wide := hi ^^^ (hi <<< 1) ^^^ (hi <<< 2) ^^^ (hi <<< 7)
  let lo : Block := p.setWidth 128 ^^^ t.setWidth 128
  let ov : Block := (t >>> 128).setWidth 128
  lo ^^^ ov ^^^ (ov <<< 1) ^^^ (ov <<< 2) ^^^ (ov <<< 7)

/-- Step 5: the limbs of the reduced number un-reflected and stored big-endian (R128). -/
def storeLimbs (z : Block) : Block :=
  rev32 (z.extractLsb' 0 32) ++ rev32 (z.extractLsb' 32 32) ++ rev32 (z.extractLsb' 64 32) ++
    rev32 (z.extractLsb' 96 32)

/-- The five-step datapath (R122 to R128). -/
def gf128Datapath (a b : Block) : Block := storeLimbs (reduceWords (schoolbook a b))

end Sys2Proof.Machine
end

