-- ==== Sys2Proof/Machine/Gcm.lean ====
section
/-! DEFINITION. The pure functions of the other three units: GHASH (41_ghash.md R140), the counter
increment and GCTR (42_gctr.md R155, R157) and the sequence of the GCM orchestrator (43_gcm.md R170 to
R178).  `enc` is `E(ks, key, ·)`, the cipher with its key size and key already given. -/

namespace Sys2Proof.Machine

/-- One block of GHASH: `(acc ⊕ block) ⋅ h` (R140). -/
def ghashBlock (h acc blk : Block) : Block := gf128Mul (acc ^^^ blk) h

/-- `ghash_update(h, acc, data)` (R140). -/
def ghashUpdate (h acc : Block) (data : List Byte) : Block :=
  (pieces data).foldl (fun acc p => ghashBlock h acc (padBlock p)) acc

/-- `inc32(cb)` (R155): the last four bytes as a big-endian counter, modulo 2^32. -/
def inc32 (cb : Block) : Block := cb.extractLsb' 32 96 ++ (cb.extractLsb' 0 32 + 1#32)

/-- The loop of `gctr` over the pieces of the data (R157). -/
def gctrPieces (enc : Block → Block) (cb : Block) : List (List Byte) → List Byte
  | [] => []
  | p :: rest => xorBytes p (blockBytes (enc cb)) ++ gctrPieces enc (inc32 cb) rest

/-- `gctr(ks, key, icb, data)` (R157, R159). -/
def gctr (enc : Block → Block) (icb : Block) (data : List Byte) : List Byte :=
  gctrPieces enc icb (pieces data)

/-- The 64-bit number of bits of a string of `n` bytes: "`8 * len`, in **bits**" (R172, R176). -/
def bitLength (n : Nat) : BitVec 64 := BitVec.ofNat 64 (8 * n)

/-- The IV length block `zeros(8) ‖ to_be64(8 * len(iv))` (R172). -/
def ivLengthBlock (n : Nat) : List Byte := zeroBytes 8 ++ toBe64 (bitLength n)

/-- `derive_j0(h, iv)` (R172): the direct path for 12 bytes, GHASH for any other length. -/
def deriveJ0 (h : Block) (iv : List Byte) : Block :=
  if iv.length = 12 then blockOf (iv ++ [0x00, 0x00, 0x00, 0x01])
  else ghashUpdate h (ghashUpdate h 0 iv) (ivLengthBlock iv.length)

/-- The length block of the tag, `to_be64(8 * len(aad)) ‖ to_be64(8 * len(ct))` (R176). -/
def lengthBlock (aadLen ctLen : Nat) : List Byte := toBe64 (bitLength aadLen) ++ toBe64 (bitLength ctLen)

/-- `s` (R176): AAD, then ciphertext, then the length block, from the all-zero block. -/
def ghashS (h : Block) (aad ct : List Byte) : Block :=
  ghashUpdate h (ghashUpdate h (ghashUpdate h 0 aad) ct) (lengthBlock aad.length ct.length)

/-- The full tag `t = s ⊕ E(ks, key, j0)` (R177). -/
def fullTag (enc : Block → Block) (j0 s : Block) : Block := s ^^^ enc j0

/-- The first `tlen` bytes of the full tag (R178). -/
def truncTag (tlen : Nat) (t : Block) : List Byte := (blockBytes t).take tlen

/-- The payload step (R171 to R174): `gctr` from `j1 = inc32(j0)`. -/
def gcmPayload (enc : Block → Block) (iv data : List Byte) : List Byte :=
  gctr enc (inc32 (deriveJ0 (enc 0) iv)) data

/-- The full tag over given AAD and ciphertext (R171, R172, R175 to R177). -/
def gcmTag (enc : Block → Block) (iv aad ct : List Byte) : Block :=
  fullTag enc (deriveJ0 (enc 0) iv) (ghashS (enc 0) aad ct)

/-- `diff` of R183: the OR over all byte pairs of their exclusive-or (R186). -/
def tagDiff (t tagIn : List Byte) : Byte := (xorBytes t tagIn).foldl (· ||| ·) 0

end Sys2Proof.Machine
end

