-- ==== Sys2Proof/Machine/Flags.lean ====
section
/-! DEFINITION. The fields of `STATUS` (10_state.md R27, R28), the verdict (43_gcm.md R184) and the error
codes (60_exceptions.md R211). -/

namespace Sys2Proof.Machine

/-- The `AUTH` field (R28, 43_gcm.md R184). -/
inductive Auth where
  | none | authentic | forged
deriving DecidableEq, Repr

/-- The values of `AUTH`: neither verdict is zero (R28, R184). -/
def authCode : Auth → BitVec 2
  | .none => 0
  | .authentic => 1
  | .forged => 2

/-- The six errors of a command (60_exceptions.md R211). -/
inductive ErrCode where
  | illegalCmd | keySize | ivLen | tagLen | range | overlap
deriving DecidableEq, Repr

/-- `ERRCODE` (R211). -/
def errByte : ErrCode → Byte
  | .illegalCmd => 0x01
  | .keySize => 0x02
  | .ivLen => 0x03
  | .tagLen => 0x04
  | .range => 0x05
  | .overlap => 0x06

/-- `STATUS` from its fields; reserved bits are 0 (R28). -/
def statusWord (busy done err : Bool) (auth : Auth) (code : Byte) : Word :=
  (BitVec.ofBool busy).setWidth 32 ||| ((BitVec.ofBool done).setWidth 32 <<< 1) |||
    ((BitVec.ofBool err).setWidth 32 <<< 2) ||| ((authCode auth).setWidth 32 <<< 4) |||
    (code.setWidth 32 <<< 8)

/-- `STATUS` from acceptance to completion (R49). -/
def busyStatus : Word := statusWord true false false .none 0

/-- `STATUS` after a completion without error (R27). -/
def doneStatus (auth : Auth) : Word := statusWord false true false auth 0

/-- `STATUS` after an error completion (60_exceptions.md R214). -/
def errorStatus (e : ErrCode) : Word := statusWord false true true .none (errByte e)

/-- `STATUS.BUSY`, bit 0 (R28). -/
def statusBusy (w : Word) : Bool := w.getLsbD 0

/-- `STATUS.DONE`, bit 1 (R28). -/
def statusDone (w : Word) : Bool := w.getLsbD 1

/-- `STATUS.ERR`, bit 2 (R28). -/
def statusErr (w : Word) : Bool := w.getLsbD 2

/-- `STATUS.AUTH`, bits 5:4 (R28). -/
def statusAuth (w : Word) : BitVec 2 := w.extractLsb' 4 2

/-- `STATUS.ERRCODE`, bits 15:8 (R28). -/
def statusErrCode (w : Word) : Byte := w.extractLsb' 8 8

end Sys2Proof.Machine
end

