-- ==== Sys2Proof/Config.lean ====
section
/-! DEFINITION. What the spec leaves to the implementation or leaves open: the four named parameters of
00_scope.md R7 (92_eei_decisions.md section 2).  The block cipher and the contents of memory after reset
are opaque: nothing can be proved of their values. -/

namespace Sys2Proof

/-- The two parameters of the step that are functions, gathered so that a shared operation can be run
on the finite cipher table and the memory fill of the spec's vectors (95_test_vectors.md) as well as on
the opaque constants below. -/
structure Env where
  /-- `E(ks, key, blk)` (R11). -/
  cipher  : KeySize → List Byte → Block → Block
  /-- `MEM_INIT`: the byte at an address after the reset with the given number (R243). -/
  memInit : Nat → Nat → Byte

/-- The block cipher `E`, a total deterministic function of its three arguments and nothing more
(00_scope.md R11; the internals of AES are out of scope, R5). -/
opaque Config.cipher : KeySize → List Byte → Block → Block

/-- `MEM_INIT`, "a draw with no law, fresh at each reset" (70_reset_and_hazards.md R243,
93_implementation_defined.md U7): the first argument counts the draws, the second is the address. -/
opaque Config.memInit : Nat → Nat → Byte

/-- The parameters of the machine itself. -/
def Config.env : Env := ⟨Config.cipher, Config.memInit⟩

/-- `MEM_BYTES` by default (R7).  The size itself is a field of State, so that a claim about every
state is a claim about every size. -/
def Config.defaultMemBytes : Nat := 65536

/-- The legal sizes of the buffer memory (R7). -/
abbrev Config.legalMemBytes (n : Nat) : Prop := 64 ≤ n ∧ n ≤ 2 ^ 32

end Sys2Proof
end

