-- ==== Sys2Proof/Machine/State.lean ====
section
/-! DEFINITION. The state of one SSF GCM core as plain data (10_state.md R20 to R49), what stops a step,
and the state after reset (70_reset_and_hazards.md R240). -/

namespace Sys2Proof.Machine

/-- The nine names of the sequencing register `PHASE` (R26). -/
inductive Phase where
  | idle | check | unit | computeH | deriveJ0 | computeJ1 | payload | authTag | emit
deriving DecidableEq, Repr

/-- The nine operand registers (R30). -/
inductive OperandReg where
  | keyAddr | ivAddr | ivLen | aadAddr | aadLen | srcAddr | dstAddr | len | tagAddr
deriving DecidableEq, Repr

/-- The contents of the nine operand registers (R30): addresses and lengths of ranges of `MEM`. -/
structure OperandRegs where
  keyAddr : Word
  ivAddr  : Word
  ivLen   : Word
  aadAddr : Word
  aadLen  : Word
  srcAddr : Word
  dstAddr : Word
  len     : Word
  tagAddr : Word
deriving DecidableEq, Repr

/-- The transients (R45, R46): values the engine holds while a command executes.  None is readable, and
every command clears them at completion. -/
structure Transients where
  /-- the key latch (R46) -/
  key       : List Byte
  /-- the staged IV, AAD, input and supplied tag (R183) -/
  iv        : List Byte
  aad       : List Byte
  input     : List Byte
  tagIn     : List Byte
  /-- the staged output -/
  output    : List Byte
  /-- the block operands of a unit-level command, `u` and `v` of R130 -/
  opA       : Block
  opB       : Block
  /-- the unreduced product and the product of a field multiplication (R126, R127) -/
  unreduced : Wide
  product   : Block
  /-- the hash subkey in use: the register `H` for GHASH, the working `h` for the orchestrator (R171) -/
  h         : Block
  /-- the running GHASH accumulator and the padded block (R140) -/
  acc       : Block
  padded    : Block
  /-- the running counter and the keystream block (R157) -/
  ctr       : Block
  keystream : Block
  j0        : Block
  j1        : Block
  /-- the length block (R172, R176) -/
  lenBlock  : Block
  /-- `S` (R176) -/
  sVal      : Block
  /-- the full 16-byte tag `T` (R177) -/
  tag       : Block
deriving DecidableEq, Repr

/-- All transients cleared (R45 law 2). -/
def Transients.cleared : Transients :=
  { key := [], iv := [], aad := [], input := [], tagIn := [], output := [], opA := 0, opB := 0,
    unreduced := 0, product := 0, h := 0, acc := 0, padded := 0, ctr := 0, keystream := 0, j0 := 0,
    j1 := 0, lenBlock := 0, sVal := 0, tag := 0 }

/-- The four host transactions (R48), and a register transaction of another width than 32 bits, to
which the spec gives no meaning (R50). -/
inductive HostTxn where
  | regRead (off : Nat)
  | regWrite (off : Nat) (w : Word)
  | memRead (addr n : Nat)
  | memWrite (addr : Nat) (bytes : List Byte)
  | regOtherWidth (off bits : Nat)
deriving DecidableEq, Repr

/-- What a transaction that proceeded gives back to the host (R48). -/
inductive HostReply where
  | word (w : Word)
  | bytes (bs : List Byte)
  | written
deriving DecidableEq, Repr

/-- Who moves: the host issues a transaction, the reset input is asserted, or the engine (or, when it is
idle, nobody) has the turn (R8, R48, R49, R240). -/
inductive Event where
  | host (t : HostTxn)
  | reset
  | engine
deriving DecidableEq, Repr

/-- The buffer memory: the bytes written since reset that differ from the contents after reset, by
rising address (20_memory.md R60; the form is `Memory.wf`). -/
abbrev Memory := List Host.Cell

/-- The state of the core (R20), with the model's own fields after it. -/
structure State where
  /-- the block registers `B[0..7]` (R21) -/
  blk        : Vector Block 8
  /-- the nine operand registers (R30) -/
  regs       : OperandRegs
  /-- `STATUS` (R28) -/
  status     : Word
  /-- `MEM` (R60) -/
  mem        : Memory
  /-- `PHASE` (R25, R26) -/
  phase      : Phase
  /-- the transients (R45) -/
  transients : Transients
  /-- the command word handed to the engine at acceptance and not yet completed (R49) -/
  cmd        : Option Word
  /-- the host transactions held while the engine is busy, oldest first (R49) -/
  held       : List HostTxn
  /-- model's own: the parameter `MEM_BYTES` (R7); no step changes it -/
  memBytes   : Nat
  /-- model's own: which draw of `MEM_INIT` is in force; every reset event advances it (R243) -/
  memDraw    : Nat
  /-- model's own: the moves to come, in the order in which they happen (the outside world's input) -/
  agenda     : List Event
  /-- model's own: what the transaction that proceeded in the last step returned -/
  reply      : Option HostReply
deriving DecidableEq, Repr

/-- Why the machine stops with a fault. -/
inductive Fault where
  /-- Raised by `step` when the engine has the turn with `BUSY` = 1 and holds no command word: a state
  no run reaches (`State.Inv` rules it out).  Safe. -/
  | busyWithoutCommand
deriving DecidableEq, Repr

/-- Why the model gives a step no meaning.  Every one but the first is a host transaction to which
10_state.md R48 and R50 give no meaning: "A model refuses them".  All are safe. -/
inductive Refusal where
  /-- Raised by `exec` for an instruction without a meaning; no arm of `exec` uses it.  Safe. -/
  | notModelled (mnemonic : String)
  /-- Raised by a register transaction at an offset R32 does not map.  Safe. -/
  | unmappedRegister (off : Nat)
  /-- Raised by a register transaction at an offset that is not a multiple of 4.  Safe. -/
  | misalignedRegister (off : Nat)
  /-- Raised by a register transaction of a width other than 32 bits.  Safe. -/
  | registerWidth (bits : Nat)
  /-- Raised by a host memory transaction that ends beyond `MEM_BYTES`.  Safe. -/
  | beyondMemory (addr n : Nat)
  /-- Raised by a host memory transaction of no bytes (R48 requires at least one).  Safe. -/
  | emptyTransfer (addr : Nat)
deriving DecidableEq, Repr

/-- The nine operand registers at 0 (R30, R240). -/
def OperandRegs.reset : OperandRegs :=
  { keyAddr := 0, ivAddr := 0, ivLen := 0, aadAddr := 0, aadLen := 0, srcAddr := 0, dstAddr := 0,
    len := 0, tagAddr := 0 }

/-- The state after reset (R240): every register zero, `PHASE` = `IDLE`, transients cleared; no byte of
`MEM` is listed, so each reads as the draw of `MEM_INIT` (R243). -/
def State.reset : State :=
  { blk := Vector.replicate 8 0, regs := OperandRegs.reset, status := 0, mem := [], phase := .idle,
    transients := Transients.cleared, cmd := none, held := [],
    memBytes := Config.defaultMemBytes, memDraw := 0, agenda := [], reply := none }

end Sys2Proof.Machine
end

