-- ==== Sys2Proof/Machine/Memory.lean ====
section
/-! DEFINITION. Reads and writes of the buffer memory, byte by byte (20_memory.md R60, R61, R64), over
its one canonical form.  `init` is the contents after reset (70_reset_and_hazards.md R243): what an address
reads as that is not listed. -/

namespace Sys2Proof.Machine

/-- The listed byte at an address, if any. -/
def Memory.lookup : Memory → Nat → Option Byte
  | [], _ => none
  | (x, b) :: m, a => if x = a then some b else Memory.lookup m a

/-- The list with the byte at an address set, by rising address. -/
def Memory.insert : Memory → Nat → Byte → Memory
  | [], a, b => [(a, b)]
  | (x, c) :: m, a, b =>
    if a < x then (a, b) :: (x, c) :: m
    else if a = x then (a, b) :: m
    else (x, c) :: Memory.insert m a b

/-- The list without the entry at an address. -/
def Memory.erase : Memory → Nat → Memory
  | [], _ => []
  | (x, c) :: m, a => if x = a then m else (x, c) :: Memory.erase m a

/-- The byte at an address: the one last written, or the contents after reset (R60). -/
def Memory.readByte (init : Nat → Byte) (m : Memory) (a : Nat) : Byte :=
  (m.lookup a).getD (init a)

/-- The memory after a byte is written (R60); a byte equal to the contents after reset is not listed. -/
def Memory.writeByte (init : Nat → Byte) (m : Memory) (a : Nat) (b : Byte) : Memory :=
  if b = init a then m.erase a else m.insert a b

/-- `MEM[a], ..., MEM[a+n-1]` (R12, R61). -/
def Memory.readBytes (init : Nat → Byte) (m : Memory) (a n : Nat) : List Byte :=
  (List.range n).map (fun i => Memory.readByte init m (a + i))

/-- The memory after a string is written, its first byte to the lowest address (R12, R61). -/
def Memory.writeBytes (init : Nat → Byte) (m : Memory) (a : Nat) : List Byte → Memory
  | [] => m
  | b :: bs => Memory.writeBytes init (Memory.writeByte init m a b) (a + 1) bs

/-- Addresses rise strictly. -/
def Memory.ascending : Memory → Bool
  | [] => true
  | (x, _) :: m => m.all (fun c => decide (x < c.1)) && Memory.ascending m

/-- The canonical form in a memory of `size` bytes: strictly rising addresses below `size`, and no entry
equal to what an unlisted address reads as. -/
def Memory.wf (init : Nat → Byte) (size : Nat) (m : Memory) : Bool :=
  Memory.ascending m && m.all (fun c => decide (c.1 < size) && decide (c.2 ≠ init c.1))

end Sys2Proof.Machine
end

