-- ==== Sys2Proof/Machine/Operands.lean ====
section
/-! DEFINITION. The operands of the commands: key sizes, tag lengths, the ranges of `MEM` each command
uses (20_memory.md R65) and the checks on them in the order of 60_exceptions.md R213. -/

namespace Sys2Proof.Machine

/-- `klen(ks)` in bytes (20_memory.md R65). -/
def klen : KeySize → Nat
  | .k128 => 16
  | .k192 => 24
  | .k256 => 32

/-- `TLEN` is a legal tag length (30_encoding.md R92). -/
def tagLenLegal (tlen : BitVec 5) : Bool := [4, 8, 12, 13, 14, 15, 16].contains tlen.toNat

/-- A range of `MEM` (R65), in unbounded integers (R66). -/
structure Range where
  base : Nat
  len  : Nat
deriving DecidableEq, Repr

/-- No range at all: a range of length 0 is never accessed and never checked (R66). -/
def noRange : Range := ⟨0, 0⟩

/-- The range lies in a memory of `size` bytes; one of length 0 always does (R66). -/
def rangeFits (size : Nat) (r : Range) : Bool := r.len == 0 || decide (r.base + r.len ≤ size)

/-- Two ranges overlap (R67). -/
def rangesOverlap (r q : Range) : Bool :=
  decide (0 < r.len) && decide (0 < q.len) && decide (r.base < q.base + q.len) &&
    decide (q.base < r.base + r.len)

/-- An address lies in a range. -/
def inRange (r : Range) (a : Nat) : Bool := decide (r.base ≤ a) && decide (a < r.base + r.len)

/-- The ranges of one command (R65): the data range, which the out range may coincide with, the other
inputs, and the outputs. -/
structure Footprint where
  inputs : List Range
  data   : Range
  out    : Range
  tagOut : Range
deriving DecidableEq, Repr

/-- Every range of a command (R66). -/
def Footprint.ranges (f : Footprint) : List Range := f.out :: f.tagOut :: f.data :: f.inputs

/-- The range check fails (R66). -/
def rangeBad (size : Nat) (f : Footprint) : Bool := f.ranges.any (fun r => !rangeFits size r)

/-- The overlap check fails (R67): an output overlaps an input, except out and data beginning at the same
address, or the two outputs overlap. -/
def overlapBad (f : Footprint) : Bool :=
  f.inputs.any (rangesOverlap f.out) ||
    (rangesOverlap f.out f.data && f.out.base != f.data.base) ||
    (f.data :: f.inputs).any (rangesOverlap f.tagOut) ||
    rangesOverlap f.out f.tagOut

/-- The first check that fails names the error (60_exceptions.md R213). -/
def firstError : List (Bool × ErrCode) → Option ErrCode
  | [] => none
  | (bad, e) :: rest => if bad then some e else firstError rest

/-- Steps 3 to 6 of R213, in order, for a command that has decoded and whose `KS` is legal: is `IV_LEN`
zero where the command has an IV, is `TLEN` illegal where it has a tag, do its ranges fit, do they
overlap. -/
def checkOperands (ivBad tagBad : Bool) (size : Nat) (f : Footprint) : Option ErrCode :=
  firstError [(ivBad, .ivLen), (tagBad, .tagLen), (rangeBad size f, .range), (overlapBad f, .overlap)]

/-- The key range (`KEY_ADDR`, klen(ks)) (R65). -/
def OperandRegs.keyRange (r : OperandRegs) (k : KeySize) : Range := ⟨r.keyAddr.toNat, klen k⟩

/-- The IV range (R65). -/
def OperandRegs.ivRange (r : OperandRegs) : Range := ⟨r.ivAddr.toNat, r.ivLen.toNat⟩

/-- The AAD range (R65). -/
def OperandRegs.aadRange (r : OperandRegs) : Range := ⟨r.aadAddr.toNat, r.aadLen.toNat⟩

/-- The data range (`SRC_ADDR`, `LEN`) (R65). -/
def OperandRegs.dataRange (r : OperandRegs) : Range := ⟨r.srcAddr.toNat, r.len.toNat⟩

/-- The out range (`DST_ADDR`, `LEN`) (R65). -/
def OperandRegs.outRange (r : OperandRegs) : Range := ⟨r.dstAddr.toNat, r.len.toNat⟩

/-- The tag range (`TAG_ADDR`, tlen) (R65). -/
def OperandRegs.tagRange (r : OperandRegs) (tlen : BitVec 5) : Range := ⟨r.tagAddr.toNat, tlen.toNat⟩

/-- The block LDB reads, (`SRC_ADDR`, 16) (R65). -/
def OperandRegs.loadRange (r : OperandRegs) : Range := ⟨r.srcAddr.toNat, 16⟩

/-- The block STB writes, (`DST_ADDR`, 16) (R65). -/
def OperandRegs.storeRange (r : OperandRegs) : Range := ⟨r.dstAddr.toNat, 16⟩

/-- The ranges of GFMUL and INC32: none (R65). -/
def noFootprint : Footprint := ⟨[], noRange, noRange, noRange⟩

/-- The ranges of LDB (R65). -/
def ldbFootprint (r : OperandRegs) : Footprint := ⟨[], r.loadRange, noRange, noRange⟩

/-- The ranges of STB (R65). -/
def stbFootprint (r : OperandRegs) : Footprint := ⟨[], noRange, r.storeRange, noRange⟩

/-- The ranges of HKEY (R65). -/
def hkeyFootprint (k : KeySize) (r : OperandRegs) : Footprint :=
  ⟨[r.keyRange k], noRange, noRange, noRange⟩

/-- The ranges of GHASH (R65). -/
def ghashFootprint (r : OperandRegs) : Footprint := ⟨[], r.dataRange, noRange, noRange⟩

/-- The ranges of GCTR (R65). -/
def gctrFootprint (k : KeySize) (r : OperandRegs) : Footprint :=
  ⟨[r.keyRange k], r.dataRange, r.outRange, noRange⟩

/-- The ranges of ENCRYPT (R65): the tag is an output. -/
def encryptFootprint (k : KeySize) (tlen : BitVec 5) (r : OperandRegs) : Footprint :=
  ⟨[r.keyRange k, r.ivRange, r.aadRange], r.dataRange, r.outRange, r.tagRange tlen⟩

/-- The ranges of DECRYPT (R65): the tag is an input. -/
def decryptFootprint (k : KeySize) (tlen : BitVec 5) (r : OperandRegs) : Footprint :=
  ⟨[r.keyRange k, r.ivRange, r.aadRange, r.tagRange tlen], r.dataRange, r.outRange, noRange⟩

/-- The checks of ENCRYPT after `KS` (43_gcm.md R179, orders 3 to 6). -/
def encryptCheck (k : KeySize) (tlen : BitVec 5) (size : Nat) (r : OperandRegs) : Option ErrCode :=
  checkOperands (r.ivLen == 0) (!tagLenLegal tlen) size (encryptFootprint k tlen r)

/-- The checks of DECRYPT after `KS` (43_gcm.md R179, orders 3 to 6). -/
def decryptCheck (k : KeySize) (tlen : BitVec 5) (size : Nat) (r : OperandRegs) : Option ErrCode :=
  checkOperands (r.ivLen == 0) (!tagLenLegal tlen) size (decryptFootprint k tlen r)

/-- The checks of a unit-level command after `KS`: ranges, then overlap (R213, orders 5 and 6). -/
def unitCheck (f : OperandRegs → Footprint) (size : Nat) (r : OperandRegs) : Option ErrCode :=
  checkOperands false false size (f r)

end Sys2Proof.Machine
end

