-- ==== Sys2Proof/Machine/Ops.lean ====
section
/-! DEFINITION. The named operations on the state: the pseudocode primitives of 00_scope.md R12,
acceptance and completion (10_state.md R49), and the error completion, which is the whole of taking an
exception (60_exceptions.md R214).  There is no return from an exception: the next acceptance clears the
error (R216). -/

namespace Sys2Proof.Machine

/-- `B[i]` (R12). -/
def State.getB (s : State) (i : BReg) : Block := s.blk[i]

/-- `B[i] <- v` (R12). -/
def State.setB (s : State) (i : BReg) (v : Block) : State := { s with blk := s.blk.set i v }

/-- `R.NAME` (R12). -/
def OperandRegs.get (r : OperandRegs) : OperandReg → Word
  | .keyAddr => r.keyAddr
  | .ivAddr => r.ivAddr
  | .ivLen => r.ivLen
  | .aadAddr => r.aadAddr
  | .aadLen => r.aadLen
  | .srcAddr => r.srcAddr
  | .dstAddr => r.dstAddr
  | .len => r.len
  | .tagAddr => r.tagAddr

/-- An operand register written by the host: all 32 bits, unchanged (10_state.md R30). -/
def OperandRegs.set (r : OperandRegs) (n : OperandReg) (w : Word) : OperandRegs :=
  match n with
  | .keyAddr => { r with keyAddr := w }
  | .ivAddr => { r with ivAddr := w }
  | .ivLen => { r with ivLen := w }
  | .aadAddr => { r with aadAddr := w }
  | .aadLen => { r with aadLen := w }
  | .srcAddr => { r with srcAddr := w }
  | .dstAddr => { r with dstAddr := w }
  | .len => { r with len := w }
  | .tagAddr => { r with tagAddr := w }

/-- The contents of `MEM` after the last reset (R243). -/
def State.init (env : Env) (s : State) : Nat → Byte := env.memInit s.memDraw

/-- The byte of `MEM` at an address (R60). -/
def State.readByte (env : Env) (s : State) (a : Nat) : Byte := Memory.readByte (s.init env) s.mem a

/-- `MemRead(addr, n)` (R12). -/
def State.memRead (env : Env) (s : State) (a n : Nat) : List Byte :=
  Memory.readBytes (s.init env) s.mem a n

/-- `MemWrite(addr, n, v)` (R12), `n` being the length of `v`. -/
def State.memWrite (env : Env) (s : State) (a : Nat) (bs : List Byte) : State :=
  { s with mem := Memory.writeBytes (s.init env) s.mem a bs }

/-- The bytes of a range (R65). -/
def State.readRange (env : Env) (s : State) (r : Range) : List Byte := s.memRead env r.base r.len

/-- `PHASE <- p` (R12). -/
def State.enter (p : Phase) (s : State) : State := { s with phase := p }

/-- An update of the transients alone. -/
def State.latch (f : Transients → Transients) (s : State) : State :=
  { s with transients := f s.transients }

/-- The end of a command: `STATUS` gets its final value, the transients are cleared, the engine is idle
and holds no command (R45, R49). -/
def State.finish (status : Word) (s : State) : State :=
  { s with status := status, transients := Transients.cleared, phase := .idle, cmd := none }

/-- Completion without error (R49). -/
def State.complete (auth : Auth) (s : State) : State := s.finish (doneStatus auth)

/-- `raise Error(code)` (60_exceptions.md R214): the error completion and nothing else. -/
def State.raiseError (e : ErrCode) (s : State) : State := s.finish (errorStatus e)

/-- Acceptance of a command word (R49): `BUSY` = 1, every other field of `STATUS` 0, and the word is
handed to the engine, which is then in `CHECK` (R26). -/
def State.accept (w : Word) (s : State) : State :=
  { s with status := busyStatus, phase := .check, cmd := some w }

/-- The `KS` check (R213, order 2), and the command itself under the key size selected. -/
def State.withKeySize (ks : Option KeySize) (f : KeySize → State → State) (s : State) : State :=
  match ks with
  | none => s.raiseError .keySize
  | some k => f k s

/-- The engine's turns from phase to phase until it is idle, at most `n` of them (R26). -/
def runPhases (turn : State → State) : Nat → State → State
  | 0, s => s
  | n + 1, s => if s.phase = .idle then s else runPhases turn n (turn s)

end Sys2Proof.Machine
end

