-- ==== Sys2Proof/Machine/Engine.lean ====
section
/-! DEFINITION. What the engine does with its transients (10_state.md R45) and the sequencing of
unit-level and orchestrator commands by `PHASE` (R26). -/

namespace Sys2Proof.Machine

/-- One pass through the multiplier (R126, R127): the unreduced product and the product are held. -/
def Transients.multiply (u v : Block) (t : Transients) : Transients :=
  let p := clmul (natOrder u) (natOrder v)
  { t with unreduced := p, product := natOrder (polymod p) }

/-- One block of GHASH in the accumulator (41_ghash.md R140). -/
def Transients.absorb (t : Transients) (p : List Byte) : Transients :=
  let t := { t with padded := padBlock p }
  let t := Transients.multiply (t.acc ^^^ t.padded) t.h t
  { t with acc := t.product }

/-- The GHASH loop over a byte string, in address order (R140). -/
def Transients.hash (data : List Byte) (t : Transients) : Transients :=
  (pieces data).foldl Transients.absorb t

/-- One block of GCTR (42_gctr.md R157): the keystream block, the output bytes, the increment. -/
def Transients.encipher (enc : Block → Block) (t : Transients) (p : List Byte) : Transients :=
  let t := { t with keystream := enc t.ctr }
  { t with output := t.output ++ xorBytes p (blockBytes t.keystream), ctr := inc32 t.ctr }

/-- The GCTR loop over the staged input from the counter block `icb` (R157). -/
def Transients.cryptInput (enc : Block → Block) (icb : Block) (t : Transients) : Transients :=
  (pieces t.input).foldl (Transients.encipher enc) { t with ctr := icb, output := [] }

/-- `E` under the latched key (10_state.md R46, R47). -/
def Transients.cipher (env : Env) (k : KeySize) (t : Transients) : Block → Block := env.cipher k t.key

/-- The key latch is filled (R46). -/
def State.latchKey (env : Env) (k : KeySize) (s : State) : State :=
  s.latch (fun t => { t with key := s.readRange env (s.regs.keyRange k) })

/-- The turn of the engine in each phase of a unit-level command (R26): `CHECK` tests, and reads the
inputs if the tests pass; `UNIT` does the whole of the command and completes. -/
def unitTurn (check : Nat → OperandRegs → Option ErrCode) (read act : State → State) (s : State) :
    State :=
  match s.phase with
  | .check =>
    match check s.memBytes s.regs with
    | some e => s.raiseError e
    | none => (read s).enter .unit
  | .unit => (act s).complete .none
  | .idle | .computeH | .deriveJ0 | .computeJ1 | .payload | .authTag | .emit => s

/-- A unit-level command from `CHECK` to `IDLE` (R26). -/
def runUnit (check : Nat → OperandRegs → Option ErrCode) (read act : State → State) (s : State) :
    State :=
  runPhases (unitTurn check read act) 2 (s.enter .check)

/-- `CHECK` of the orchestrator, after its tests: the inputs are read (43_gcm.md R170). -/
def readMessage (env : Env) (k : KeySize) (tagIn : List Byte) (s : State) : State :=
  s.latch (fun t =>
    { t with
      key := s.readRange env (s.regs.keyRange k)
      iv := s.readRange env s.regs.ivRange
      aad := s.readRange env s.regs.aadRange
      input := s.readRange env s.regs.dataRange
      tagIn := tagIn })

/-- `COMPUTE_H` (R171). -/
def Transients.computeH (env : Env) (k : KeySize) (t : Transients) : Transients :=
  { t with h := t.cipher env k 0 }

/-- `DERIVE_J0` (R172): direct for an IV of 12 bytes, GHASH for any other length. -/
def Transients.deriveJ0 (t : Transients) : Transients :=
  if t.iv.length = 12 then { t with j0 := blockOf (t.iv ++ [0x00, 0x00, 0x00, 0x01]) }
  else
    let t := Transients.hash t.iv { t with acc := 0 }
    let t := { t with lenBlock := blockOf (ivLengthBlock t.iv.length) }
    let t := Transients.hash (blockBytes t.lenBlock) t
    { t with j0 := t.acc }

/-- `COMPUTE_J1` (R173). -/
def Transients.computeJ1 (t : Transients) : Transients := { t with j1 := inc32 t.j0 }

/-- `PAYLOAD` (R174). -/
def Transients.payload (env : Env) (k : KeySize) (t : Transients) : Transients :=
  t.cryptInput (t.cipher env k) t.j1

/-- `AUTH_TAG` over a ciphertext (R175 to R177). -/
def Transients.authTag (env : Env) (k : KeySize) (ct : List Byte) (t : Transients) : Transients :=
  let t := Transients.hash t.aad { t with acc := 0 }
  let t := Transients.hash ct t
  let t := { t with lenBlock := blockOf (lengthBlock t.aad.length ct.length) }
  let t := Transients.hash (blockBytes t.lenBlock) t
  let t := { t with sVal := t.acc, ctr := t.j0, keystream := t.cipher env k t.j0 }
  { t with tag := t.sVal ^^^ t.keystream }

/-- The turn of the engine in each phase of an orchestrator command (R26).  ENCRYPT and DECRYPT differ in
their checks, in whether a tag is read, in which text is authenticated (R175) and in `EMIT`. -/
def gcmTurn (env : Env) (k : KeySize) (check : Nat → OperandRegs → Option ErrCode)
    (tagIn : State → List Byte) (ct : Transients → List Byte) (emit : State → State) (s : State) :
    State :=
  match s.phase with
  | .check =>
    match check s.memBytes s.regs with
    | some e => s.raiseError e
    | none => (readMessage env k (tagIn s) s).enter .computeH
  | .computeH => (s.latch (Transients.computeH env k)).enter .deriveJ0
  | .deriveJ0 => (s.latch Transients.deriveJ0).enter .computeJ1
  | .computeJ1 => (s.latch Transients.computeJ1).enter .payload
  | .payload => (s.latch (Transients.payload env k)).enter .authTag
  | .authTag => (s.latch (fun t => Transients.authTag env k (ct t) t)).enter .emit
  | .emit => emit s
  | .idle | .unit => s

/-- An orchestrator command from `CHECK` to `IDLE` (R26). -/
def runGcm (env : Env) (k : KeySize) (check : Nat → OperandRegs → Option ErrCode)
    (tagIn : State → List Byte) (ct : Transients → List Byte) (emit : State → State) (s : State) :
    State :=
  runPhases (gcmTurn env k check tagIn ct emit) 7 (s.enter .check)

end Sys2Proof.Machine
end

