-- ==== Sys2Proof/Machine/Orchestrator.lean ====
section
/-! DEFINITION. The meanings of the orchestrator commands ENCRYPT and DECRYPT (43_gcm.md R179 to R186). -/

namespace Sys2Proof.Machine

/-- `EMIT` of ENCRYPT (R180): the ciphertext, then the first `tlen` bytes of the tag. -/
def emitEncrypt (env : Env) (tlen : BitVec 5) (s : State) : State :=
  let out := s.transients.output
  let tag := truncTag tlen.toNat s.transients.tag
  ((s.memWrite env s.regs.outRange.base out).memWrite env (s.regs.tagRange tlen).base tag).complete
    .none

/-- `ENCRYPT ks, tlen` (R180): the ciphertext that is authenticated is the output (R175). -/
def encryptCommand (env : Env) (ks : Option KeySize) (tlen : BitVec 5) : State → State :=
  State.withKeySize ks (fun k =>
    runGcm env k (encryptCheck k tlen) (fun _ => []) Transients.output (emitEncrypt env tlen))

/-- The meaning of ENCRYPT (R180). -/
def execEncrypt (ks : Option KeySize) (tlen : BitVec 5) (s : State) :
    Host.Outcome State Fault Refusal :=
  .next (encryptCommand Config.env ks tlen s)

/-- `EMIT` of DECRYPT (R183 to R186): the verdict over all `tlen` byte pairs, then plaintext or zeros. -/
def emitDecrypt (env : Env) (tlen : BitVec 5) (s : State) : State :=
  let t := s.transients
  if tagDiff (truncTag tlen.toNat t.tag) t.tagIn = 0 then
    (s.memWrite env s.regs.outRange.base t.output).complete .authentic
  else
    (s.memWrite env s.regs.outRange.base (zeroBytes s.regs.outRange.len)).complete .forged

/-- `DECRYPT ks, tlen` (R183): the ciphertext that is authenticated is the input (R175). -/
def decryptCommand (env : Env) (ks : Option KeySize) (tlen : BitVec 5) : State → State :=
  State.withKeySize ks (fun k =>
    runGcm env k (decryptCheck k tlen) (fun s => s.readRange env (s.regs.tagRange tlen))
      Transients.input (emitDecrypt env tlen))

/-- The meaning of DECRYPT (R183). -/
def execDecrypt (ks : Option KeySize) (tlen : BitVec 5) (s : State) :
    Host.Outcome State Fault Refusal :=
  .next (decryptCommand Config.env ks tlen s)

end Sys2Proof.Machine
end

