-- ==== Sys2Proof/Machine/RegisterCmds.lean ====
section
/-! DEFINITION. The meanings of the register commands GFMUL, INC32, LDB and STB (40_gf128.md R130,
42_gctr.md R156, 44_move.md R200, R201).  Each is given first over any parameters of the machine, then
for the machine itself. -/

namespace Sys2Proof.Machine

/-- `GFMUL Bd, Ba, Bb` (R130): both sources are read before the destination is written. -/
def gfmulCommand (bd ba bb : BReg) : State → State :=
  runUnit (unitCheck (fun _ => noFootprint))
    (fun s => s.latch (fun t => { t with opA := s.getB ba, opB := s.getB bb }))
    (fun s =>
      let s := s.latch (fun t => t.multiply t.opA t.opB)
      s.setB bd s.transients.product)

/-- The meaning of GFMUL (R130). -/
def execGfmul (bd ba bb : BReg) (s : State) : Host.Outcome State Fault Refusal :=
  .next (gfmulCommand bd ba bb s)

/-- `INC32 Bd, Ba` (R156). -/
def inc32Command (bd ba : BReg) : State → State :=
  runUnit (unitCheck (fun _ => noFootprint))
    (fun s => s.latch (fun t => { t with opA := s.getB ba }))
    (fun s => s.setB bd (inc32 s.transients.opA))

/-- The meaning of INC32 (R156). -/
def execInc32 (bd ba : BReg) (s : State) : Host.Outcome State Fault Refusal :=
  .next (inc32Command bd ba s)

/-- `LDB Bd` (R200). -/
def ldbCommand (env : Env) (bd : BReg) : State → State :=
  runUnit (unitCheck ldbFootprint)
    (fun s => s.latch (fun t => { t with input := s.readRange env s.regs.loadRange }))
    (fun s => s.setB bd (blockOf s.transients.input))

/-- The meaning of LDB (R200). -/
def execLdb (bd : BReg) (s : State) : Host.Outcome State Fault Refusal :=
  .next (ldbCommand Config.env bd s)

/-- `STB Ba` (R201). -/
def stbCommand (env : Env) (ba : BReg) : State → State :=
  runUnit (unitCheck stbFootprint)
    (fun s => s.latch (fun t => { t with output := blockBytes (s.getB ba) }))
    (fun s => s.memWrite env s.regs.storeRange.base s.transients.output)

/-- The meaning of STB (R201). -/
def execStb (ba : BReg) (s : State) : Host.Outcome State Fault Refusal :=
  .next (stbCommand Config.env ba s)

end Sys2Proof.Machine
end

