-- ==== Sys2Proof/Machine/UnitCmds.lean ====
section
/-! DEFINITION. The meanings of the GHASH and GCTR unit commands HKEY, GHASH and GCTR (41_ghash.md R143,
R144, 42_gctr.md R160). -/

namespace Sys2Proof.Machine

/-- `HKEY ks` (R143). -/
def hkeyCommand (env : Env) (ks : Option KeySize) : State → State :=
  State.withKeySize ks (fun k =>
    runUnit (unitCheck (hkeyFootprint k))
      (State.latchKey env k)
      (fun s =>
        let s := s.latch (Transients.computeH env k)
        s.setB regH s.transients.h))

/-- The meaning of HKEY (R143). -/
def execHkey (ks : Option KeySize) (s : State) : Host.Outcome State Fault Refusal :=
  .next (hkeyCommand Config.env ks s)

/-- `GHASH` (R144): the accumulator continues from `Y`. -/
def ghashCommand (env : Env) : State → State :=
  runUnit (unitCheck ghashFootprint)
    (fun s => s.latch (fun t =>
      { t with input := s.readRange env s.regs.dataRange, h := s.getB regH, acc := s.getB regY }))
    (fun s =>
      let s := s.latch (fun t => t.hash t.input)
      s.setB regY s.transients.acc)

/-- The meaning of GHASH (R144). -/
def execGhash (s : State) : Host.Outcome State Fault Refusal :=
  .next (ghashCommand Config.env s)

/-- `GCTR ks` (R160): `CB` is read and not written. -/
def gctrCommand (env : Env) (ks : Option KeySize) : State → State :=
  State.withKeySize ks (fun k =>
    runUnit (unitCheck (gctrFootprint k))
      (fun s => (s.latchKey env k).latch (fun t =>
        { t with input := s.readRange env s.regs.dataRange, opA := s.getB regCB }))
      (fun s =>
        let s := s.latch (fun t => t.cryptInput (t.cipher env k) t.opA)
        s.memWrite env s.regs.outRange.base s.transients.output))

/-- The meaning of GCTR (R160). -/
def execGctr (ks : Option KeySize) (s : State) : Host.Outcome State Fault Refusal :=
  .next (gctrCommand Config.env ks s)

end Sys2Proof.Machine
end

