-- ==== Sys2Proof/Machine/Dispatch.lean ====
section
/-! DEFINITION. The meaning of every command (30_encoding.md R93), one arm per constructor. -/

namespace Sys2Proof.Machine

def exec (i : Instr) (s : State) : Host.Outcome State Fault Refusal :=
  match i with
  | .gfmul bd ba bb => Sys2Proof.Machine.execGfmul bd ba bb s
  | .inc32 bd ba => Sys2Proof.Machine.execInc32 bd ba s
  | .ldb bd => Sys2Proof.Machine.execLdb bd s
  | .stb ba => Sys2Proof.Machine.execStb ba s
  | .hkey ks => Sys2Proof.Machine.execHkey ks s
  | .ghash => Sys2Proof.Machine.execGhash s
  | .gctr ks => Sys2Proof.Machine.execGctr ks s
  | .encrypt ks tlen => Sys2Proof.Machine.execEncrypt ks tlen s
  | .decrypt ks tlen => Sys2Proof.Machine.execDecrypt ks tlen s

end Sys2Proof.Machine
end

