-- ==== Sys2Proof/Machine/HostPort.lean ====
section
/-! DEFINITION. The host port: the register map (10_state.md R32), the four transactions (R48), their
holding while the engine is busy (R49), and the reset input (70_reset_and_hazards.md R240 to R243). -/

namespace Sys2Proof.Machine

/-- The registers of the host register map (R32). -/
inductive HostReg where
  | cmd
  | status
  | operand (r : OperandReg)
  | blockWord (i : BReg) (k : Fin 4)
deriving DecidableEq, Repr

/-- Word `k` of block register `i` at offset `0x80 + 16 * i + 4 * k` (R23): `n` is `4 * i + k`. -/
def blockWordReg (n : Nat) : Option HostReg :=
  if h : n < 32 then some (.blockWord ⟨n / 4, by omega⟩ ⟨n % 4, by omega⟩) else none

/-- The registers at offsets 0x00, 0x04, 0x08, ..., 0x28, in this order (R32). -/
def namedRegs : List HostReg :=
  [.cmd, .status, .operand .keyAddr, .operand .ivAddr, .operand .ivLen, .operand .aadAddr,
   .operand .aadLen, .operand .srcAddr, .operand .dstAddr, .operand .len, .operand .tagAddr]

/-- The register at a 4-byte-aligned offset, or none where R32 maps none. -/
def hostReg (off : Nat) : Option HostReg :=
  if off % 4 ≠ 0 then none
  else if off < 0x80 then namedRegs[off / 4]?
  else blockWordReg ((off - 0x80) / 4)

/-- What a read of a register returns (R23, R28 to R30); `CMD` reads 0 (R29). -/
def State.readReg (s : State) : HostReg → Word
  | .cmd => 0
  | .status => s.status
  | .operand r => s.regs.get r
  | .blockWord i k => blockWord (s.getB i) k.val

/-- What a write to a register does (R23, R28 to R30): to `CMD` it is the acceptance of a command word,
to `STATUS` it changes nothing. -/
def State.writeReg (s : State) (r : HostReg) (w : Word) : State :=
  match r with
  | .cmd => s.accept w
  | .status => s
  | .operand r => { s with regs := s.regs.set r w }
  | .blockWord i k => s.setB i (setBlockWord (s.getB i) k.val w)

/-- The register a transaction names, or the reason there is none (R50). -/
def findReg (off : Nat) : Except Refusal HostReg :=
  if off % 4 ≠ 0 then .error (.misalignedRegister off)
  else
    match hostReg off with
    | none => .error (.unmappedRegister off)
    | some r => .ok r

/-- The host memory range is legal (R48), or the reason it is not (R50). -/
def checkTransfer (size addr n : Nat) : Except Refusal Unit :=
  if n = 0 then .error (.emptyTransfer addr)
  else if size < addr + n then .error (.beyondMemory addr n)
  else .ok ()

/-- The state after a transaction that proceeded, with what it returned. -/
def State.answer (r : HostReply) (s : State) : State := { s with reply := some r }

/-- A host transaction proceeds at `BUSY` = 0 (R48, R49); one the spec gives no meaning is refused
(R50). -/
def State.perform (env : Env) (t : HostTxn) (s : State) : Host.Outcome State Fault Refusal :=
  match t with
  | .regRead off =>
    match findReg off with
    | .error e => .refused e
    | .ok r => .next (s.answer (.word (s.readReg r)))
  | .regWrite off w =>
    match findReg off with
    | .error e => .refused e
    | .ok r => .next ((s.writeReg r w).answer .written)
  | .memRead addr n =>
    match checkTransfer s.memBytes addr n with
    | .error e => .refused e
    | .ok _ => .next (s.answer (.bytes (s.memRead env addr n)))
  | .memWrite addr bs =>
    match checkTransfer s.memBytes addr bs.length with
    | .error e => .refused e
    | .ok _ => .next ((s.memWrite env addr bs).answer .written)
  | .regOtherWidth _ bits => .refused (.registerWidth bits)

/-- A host transaction issued at `BUSY` = 1 (R49): a read of `STATUS` proceeds, any other is held. -/
def State.issueBusy (t : HostTxn) (s : State) : State :=
  if t = .regRead 0x04 then s.answer (.word s.status) else { s with held := s.held ++ [t] }

/-- The reset event (R240 to R243): every register as after reset, whatever the core was doing; held
transactions are dropped, a running command is abandoned, `MEM` is drawn anew. -/
def State.resetEvent (s : State) : State :=
  { State.reset with memBytes := s.memBytes, memDraw := s.memDraw + 1, agenda := s.agenda }

/-- The four register writes of the directive `WRB Bn, hex32` (30_encoding.md R98). -/
def wrb (i : BReg) (b : Block) : List HostTxn :=
  (List.range 4).map (fun k => .regWrite (0x80 + 16 * i.val + 4 * k) (blockWord b k))

/-- The transactions of a command line of a program but for the polling (R98): the `CMD` write. -/
def issueCommand (w : Word) : HostTxn := .regWrite 0x00 w

end Sys2Proof.Machine
end

