-- ==== Sys2Proof/Machine/Step.lean ====
section
/-! DEFINITION. One step of the core: who moves, and what it does (10_state.md R48, R49;
70_reset_and_hazards.md R240, R242). -/

namespace Sys2Proof.Machine

/-- The command in the engine runs from `CHECK` to completion in one atomic step (R49): an illegal word
is an error completion (60_exceptions.md R213, order 1), any other is its command's meaning. -/
def engineStep (s : State) : Host.Outcome State Fault Refusal :=
  match s.cmd with
  | none => .fault .busyWithoutCommand
  | some w =>
    match decodeWord w with
    | .illegal _ => .next (s.raiseError .illegalCmd)
    | .command i => exec i s

/-- The state at the start of a step: the first entry of the agenda taken, no reply yet. -/
def State.takeTurn (s : State) : State := { s with agenda := s.agenda.tail, reply := none }

/-- One step.  Reset goes before all else.  While the engine is busy the host may issue transactions, and
otherwise the engine has the turn.  When it is idle the oldest held transaction proceeds first, then what
the host issues; with nothing to do the core waits (R241). -/
def step (s : State) : Host.Outcome State Fault Refusal :=
  match s.agenda with
  | .reset :: _ => .next s.takeTurn.resetEvent
  | .host t :: _ =>
    if statusBusy s.status then .next (s.takeTurn.issueBusy t)
    else
      match s.held with
      | h :: hs => State.perform Config.env h { s with held := hs, reply := none }
      | [] => s.takeTurn.perform Config.env t
  | _ =>
    if statusBusy s.status then engineStep s.takeTurn
    else
      match s.held with
      | h :: hs => State.perform Config.env h { s with held := hs, reply := none }
      | [] => .next s.takeTurn

/-- `s` at the moment after the host's `CMD` write of the word (10_state.md R49: command words are not
fetched from memory, 20_memory.md R74), the engine having the next turn. -/
def State.withFetchWord (s : State) (nbits w : Nat) : State :=
  { s.accept (tableWord nbits w) with agenda := .engine :: s.agenda }

end Sys2Proof.Machine
end

