-- ==== Sys2Proof/WellFormed.lean ====
section
/-! DEFINITION. Which commands carry only legal field values (30_encoding.md R91, R92, R96).  A command
that is not well formed still has a word and a meaning: it ends with `ERR_KEYSIZE` or `ERR_TAGLEN`. -/

namespace Sys2Proof

/-- `KS` selects one of the three key sizes (R91). -/
def keyFieldWf (ks : Option KeySize) : Bool := ks.isSome

/-- The tag lengths of R92, in bytes. -/
def tagLengths : List (BitVec 5) := [4, 8, 12, 13, 14, 15, 16]

/-- `TLEN` is one of the seven legal tag lengths (R92). -/
def tagFieldWf (tlen : BitVec 5) : Bool := tagLengths.contains tlen

/-- Every field value of the command is legal (R91, R92; R96 names what breaks it).  Block register
numbers have no illegal value (R92). -/
def Instr.wellFormed : Instr → Bool
  | .gfmul _ _ _ => true
  | .inc32 _ _ => true
  | .ldb _ => true
  | .stb _ => true
  | .hkey ks => keyFieldWf ks
  | .ghash => true
  | .gctr ks => keyFieldWf ks
  | .encrypt ks tlen => keyFieldWf ks && tagFieldWf tlen
  | .decrypt ks tlen => keyFieldWf ks && tagFieldWf tlen

end Sys2Proof
end

