-- ==== Sys2Proof/Safety.lean ====
section
/-! DEFINITION. What every state of the core keeps to: the values `STATUS` may take (10_state.md R28),
the tie between `BUSY`, `PHASE` and the command in the engine (R25, R49), cleared transients between
commands (R45), the canonical form of `MEM` and the legal sizes of it (00_scope.md R7). -/

namespace Sys2Proof.Machine

/-- "The only values `STATUS` ever takes" (R28). -/
def statusValues : List Word :=
  [0x00000000, 0x00000001, 0x00000002, 0x00000012, 0x00000022, 0x00000106, 0x00000206, 0x00000306,
   0x00000406, 0x00000506, 0x00000606]

/-- The invariant of the core between two steps. -/
structure State.Inv (s : State) : Prop where
  /-- the size of the buffer memory is legal (00_scope.md R7) -/
  size       : Config.legalMemBytes s.memBytes
  /-- `MEM` keeps its canonical form and lies below `MEM_BYTES` (20_memory.md R60, R69) -/
  memory     : Memory.wf (s.init Config.env) s.memBytes s.mem = true
  /-- `STATUS` has one of its eleven values (R28) -/
  status     : s.status ∈ statusValues
  /-- while busy the engine holds a command and is in `CHECK` (R26, R49) -/
  busy       : statusBusy s.status = true → s.cmd.isSome = true ∧ s.phase = .check
  /-- `PHASE` is `IDLE` whenever `BUSY` = 0, and no command is in the engine (R25) -/
  idle       : statusBusy s.status = false → s.cmd = none ∧ s.phase = .idle
  /-- between steps no transient holds anything (R45) -/
  transients : s.transients = Transients.cleared

/-- The ranges of `MEM` each command uses, once its key size is legal (20_memory.md R65). -/
def commandFootprint (i : Instr) (r : OperandRegs) : Footprint :=
  match i with
  | .gfmul _ _ _ => noFootprint
  | .inc32 _ _ => noFootprint
  | .ldb _ => ldbFootprint r
  | .stb _ => stbFootprint r
  | .hkey ks => ks.elim noFootprint (fun k => hkeyFootprint k r)
  | .ghash => ghashFootprint r
  | .gctr ks => ks.elim noFootprint (fun k => gctrFootprint k r)
  | .encrypt ks tlen => ks.elim noFootprint (fun k => encryptFootprint k tlen r)
  | .decrypt ks tlen => ks.elim noFootprint (fun k => decryptFootprint k tlen r)

/-- The output ranges of each command (20_memory.md R65, last column). -/
def outputRanges (i : Instr) (r : OperandRegs) : List Range :=
  match i with
  | .gfmul _ _ _ => []
  | .inc32 _ _ => []
  | .ldb _ => []
  | .stb _ => [r.storeRange]
  | .hkey _ => []
  | .ghash => []
  | .gctr _ => [r.outRange]
  | .encrypt _ tlen => [r.outRange, r.tagRange tlen]
  | .decrypt _ _ => [r.outRange]

/-- The block register each command writes (10_state.md R22, last column). -/
def writtenBlock : Instr → Option BReg
  | .gfmul bd _ _ => some bd
  | .inc32 bd _ => some bd
  | .ldb bd => some bd
  | .stb _ => none
  | .hkey _ => some regH
  | .ghash => some regY
  | .gctr _ => none
  | .encrypt _ _ => none
  | .decrypt _ _ => none

/-- The operand registers each command uses (10_state.md R30, last column). -/
def usesOperand (i : Instr) (n : OperandReg) : Bool :=
  match i with
  | .gfmul _ _ _ => false
  | .inc32 _ _ => false
  | .ldb _ => n == .srcAddr
  | .stb _ => n == .dstAddr
  | .hkey _ => n == .keyAddr
  | .ghash => n == .srcAddr || n == .len
  | .gctr _ => n == .keyAddr || n == .srcAddr || n == .dstAddr || n == .len
  | .encrypt _ _ => true
  | .decrypt _ _ => true

/-- The command uses `KS` and `KS` = 3 (60_exceptions.md R213, order 2). -/
def keyFieldBad : Instr → Bool
  | .gfmul _ _ _ => false
  | .inc32 _ _ => false
  | .ldb _ => false
  | .stb _ => false
  | .hkey ks => ks.isNone
  | .ghash => false
  | .gctr ks => ks.isNone
  | .encrypt ks _ => ks.isNone
  | .decrypt ks _ => ks.isNone

/-- The command is ENCRYPT or DECRYPT (60_exceptions.md R213, order 3). -/
def usesMessage : Instr → Bool
  | .gfmul _ _ _ => false
  | .inc32 _ _ => false
  | .ldb _ => false
  | .stb _ => false
  | .hkey _ => false
  | .ghash => false
  | .gctr _ => false
  | .encrypt _ _ => true
  | .decrypt _ _ => true

/-- The command uses `TLEN` and `TLEN` is no legal tag length (60_exceptions.md R213, order 4). -/
def tagFieldBad : Instr → Bool
  | .gfmul _ _ _ => false
  | .inc32 _ _ => false
  | .ldb _ => false
  | .stb _ => false
  | .hkey _ => false
  | .ghash => false
  | .gctr _ => false
  | .encrypt _ tlen => !tagFieldWf tlen
  | .decrypt _ tlen => !tagFieldWf tlen

/-- The error of a command that has decoded, by the fixed order of 60_exceptions.md R213, orders 2 to
6: the first failure only. -/
def commandError (i : Instr) (size : Nat) (r : OperandRegs) : Option ErrCode :=
  if keyFieldBad i then some .keySize
  else if usesMessage i && r.ivLen == 0 then some .ivLen
  else if tagFieldBad i then some .tagLen
  else if rangeBad size (commandFootprint i r) then some .range
  else if overlapBad (commandFootprint i r) then some .overlap
  else none

/-- The engine has the turn: it is busy, and neither the host nor the reset input moves first. -/
def State.engineTurn (s : State) : Prop :=
  statusBusy s.status = true ∧ (s.agenda = [] ∨ s.agenda.head? = some .engine)

/-- A transaction the host issues now proceeds at once: the engine is idle and none is held (10_state.md
R49). -/
def State.hostTurn (s : State) (t : HostTxn) : Prop :=
  statusBusy s.status = false ∧ s.held = [] ∧ s.agenda.head? = some (.host t)

/-- `s` at the completion of a command, with `STATUS` at its final value (10_state.md R45, R49, R25):
transients cleared, `PHASE` = `IDLE`, no command in the engine, everything else as in `s`. -/
def State.completed (s : State) (status : Word) : State :=
  { s with status := status, transients := Transients.cleared, phase := .idle, cmd := none }

end Sys2Proof.Machine
end

