-- ==== Sys2Proof/Certificates/Slice0/Obligations.lean ====
section
/-! DEFINITION. The statements about the SSF GCM core that the provers are asked to settle. -/

open Sys2Proof Sys2Proof.Machine

/-- Decoding the word of a command gives the command back, with every operand at every value its field
admits, the illegal ones included (30_encoding.md sections 1 to 3). -/
def Obligations.DecodeEncodeRoundTrip : Prop := ∀ i : Instr, decodeWord (encode i) = .command i

/-- A word that decodes is the word of the command it decodes to: no bit of it is dropped (30_encoding.md
section 3). -/
def Obligations.EncodeDecodeRoundTrip : Prop :=
  ∀ (w : Word) (i : Instr), decodeWord w = .command i → encode i = w

/-- No word is two of the nine commands (30_encoding.md section 3). -/
def Obligations.OpcodeMapIsExclusive : Prop :=
  ∀ w : Word, ∀ r ∈ opcodeRows, ∀ q ∈ opcodeRows, r.fits w = true → q.fits w = true →
    r.mnemonic = q.mnemonic

/-- The worked examples of 30_encoding.md section 3, and the two pseudo-instruction words of section
6. -/
def Obligations.WorkedWordsDecode : Prop :=
  decodeWord 0x01ae0000 = .command (.gfmul 5 3 4) ∧
  decodeWord 0x016d8000 = .command (.gfmul 3 3 3) ∧
  decodeWord 0x024c0000 = .command (.inc32 2 3) ∧
  decodeWord 0x03600000 = .command (.ldb 3) ∧
  decodeWord 0x04140000 = .command (.stb 5) ∧
  decodeWord 0x08000200 = .command (.hkey (some .k256)) ∧
  decodeWord 0x09000000 = .command .ghash ∧
  decodeWord 0x0a000000 = .command (.gctr (some .k128)) ∧
  decodeWord 0x10004000 = .command (.encrypt (some .k128) 16) ∧
  decodeWord 0x10003000 = .command (.encrypt (some .k128) 12) ∧
  decodeWord 0x10004200 = .command (.encrypt (some .k256) 16) ∧
  decodeWord 0x11003600 = .command (.decrypt (some .k256) 13) ∧
  decodeWord 0x01d68000 = .command (sqr 6 5) ∧
  decodeWord 0x01900000 = .command (mulh 4 4)

/-- A word that is none of the nine commands completes with `ERR_ILLEGAL_CMD` and changes nothing else
(30_encoding.md R95): an `OPC` that is no command's, which 247 of the 256 are, and an `OPC` of a command
with a bit set in a field it does not use, all behave alike. -/
def Obligations.IllegalWordsRaiseError : Prop :=
  let opcodes : List (BitVec 8) := [0x01, 0x02, 0x03, 0x04, 0x08, 0x09, 0x0a, 0x10, 0x11]
  (∀ w : Word, opcField w ∉ opcodes → decodeWord w = .illegal (.unknownOpcode (opcField w))) ∧
  ((List.range 256).filter (fun n => !opcodes.contains (BitVec.ofNat 8 n))).length = 247 ∧
  (∀ w : Word, ∀ r ∈ opcodeRows, r.opc = opcField w → w &&& r.mask ≠ r.mtch →
    decodeWord w = .illegal (.unusedFieldSet (opcField w))) ∧
  (∀ w ∈ ([0x00000000, 0x09000001, 0x03600400, 0x02000100] : List Word),
    ∃ why, decodeWord w = .illegal why) ∧
  (∀ (s : State) (w : Word) (why : IllegalWord), s.engineTurn → s.cmd = some w →
    decodeWord w = .illegal why → step s = .next (s.takeTurn.completed 0x00000106))

/-- Each field of a status word reads back as it was put in, and the reserved bits 3, 7:6 and 31:16 are 0
(10_state.md section 5). -/
def Obligations.StatusWordFields : Prop :=
  ∀ (busy done err : Bool) (auth : Auth) (code : Byte),
    let w := statusWord busy done err auth code
    statusBusy w = busy ∧ statusDone w = done ∧ statusErr w = err ∧ statusAuth w = authCode auth ∧
      statusErrCode w = code ∧
      ∀ n, (n = 3 ∨ n = 6 ∨ n = 7 ∨ 16 ≤ n) → w.getLsbD n = false

/-- When reset is asserted, whatever the core was doing, every register has its value after reset, the
transients are cleared, and held transactions and the running command are gone (70_reset_and_hazards.md
R240; what `MEM` then holds is unspecified). -/
def Obligations.ResetEventGivesResetState : Prop :=
  ∀ s : State, s.agenda.head? = some .reset →
    ∃ t, step s = .next t ∧ (∀ i : BReg, t.getB i = 0) ∧ (∀ n : OperandReg, t.regs.get n = 0) ∧
      t.status = 0x00000000 ∧ t.phase = .idle ∧ t.transients = Transients.cleared ∧
      t.cmd = none ∧ t.held = []

/-- The state after reset has the invariant.  Its size of `MEM` is the default of 00_scope.md section 4;
that the invariant asks for the canonical form of `MEM` is the model's choice
(notes/assumptions/3.md). -/
def Obligations.ResetSatisfiesInvariant : Prop := State.reset.Inv

/-- Every step keeps the invariant, from every state that has it: `STATUS` takes none but its eleven
values, `PHASE` and the command in the engine agree with `BUSY`, the transients are clear between steps,
and `MEM` keeps its canonical form below `MEM_BYTES` (10_state.md sections 1, 3, 5, 8 and 9).  Two of
these clauses are the model's choice and no rule of the spec: the canonical form of `MEM`
(notes/assumptions/3.md), and that with `BUSY` = 1 every state between two steps has `PHASE` = `CHECK` and
clear transients, because a command is executed within one step (notes/assumptions/4.md). -/
def Obligations.StepKeepsInvariant : Prop :=
  ∀ s t : State, s.Inv → step s = .next t → t.Inv

/-- In a state that has the invariant no step faults, and the engine's turn always gives a next state:
"every accepted command completes" (10_state.md section 9, 60_exceptions.md section 1). -/
def Obligations.StepNeverFaultsUnderInvariant : Prop :=
  (∀ (s : State) (f : Fault), s.Inv → step s ≠ .fault f) ∧
  (∀ s : State, s.Inv → s.engineTurn → ∃ t, step s = .next t)

/-- Every command, in every state, completes: `DONE` = 1, `BUSY` = 0, `STATUS` one of its values, the
transients cleared and the engine idle (10_state.md sections 8 and 9). -/
def Obligations.EveryCommandCompletes : Prop :=
  ∀ (i : Instr) (s : State), ∃ t, exec i s = .next t ∧ statusDone t.status = true ∧
    statusBusy t.status = false ∧ t.status ∈ statusValues ∧ t.transients = Transients.cleared ∧
    t.phase = .idle ∧ t.cmd = none

/-- The engine's turn runs the command its word decodes to, on the state with the turn taken off the
agenda and no reply; and a step from `withFetchWord` runs exactly the command of the word (10_state.md
section 9). -/
def Obligations.EngineStepRunsDecodedCommand : Prop :=
  (∀ (s : State) (w : Word) (i : Instr), s.engineTurn → s.cmd = some w →
    decodeWord w = .command i →
    step s = exec i { s with agenda := s.agenda.tail, reply := none }) ∧
  (∀ (s : State) (i : Instr), step (s.withFetchWord 32 (encode i).toNat) =
    exec i { s.accept (encode i) with reply := none })

/-- `CMD` (10_state.md section 5): a write at `BUSY` = 0 is the acceptance of the word, which sets
`STATUS` to 0x00000001 (section 9), and a read returns 0 and changes nothing.  That the state after
acceptance has `PHASE` = `CHECK`, the first phase of section 3, and holds the word in the engine is the
model's choice (notes/assumptions/4.md), and the agenda and the reply are its own fields
(notes/assumptions/5.md and 14.md). -/
def Obligations.CommandRegisterAccess : Prop :=
  (∀ (s : State) (w : Word), s.hostTurn (.regWrite 0x00 w) →
    step s = .next { s with status := 0x00000001, phase := .check, cmd := some w,
                            agenda := s.agenda.tail, reply := some .written }) ∧
  (∀ s : State, s.hostTurn (.regRead 0x00) →
    step s = .next { s with agenda := s.agenda.tail, reply := some (.word 0x00000000) })

/-- While the engine is busy a read of `STATUS` proceeds and returns 0x00000001, and any other
transaction is held with no effect (10_state.md section 9). -/
def Obligations.BusyTransactionsAreHeld : Prop :=
  ∀ (s : State) (t : HostTxn), s.Inv → statusBusy s.status = true →
    s.agenda.head? = some (.host t) →
    (t = .regRead 0x04 → step s = .next { s with agenda := s.agenda.tail,
                                                 reply := some (.word 0x00000001) }) ∧
    (t ≠ .regRead 0x04 → step s = .next { s with agenda := s.agenda.tail, reply := none,
                                                 held := s.held ++ [t] })

/-- A transaction held while the engine is busy gives the same final state as the same transaction issued
after completion (70_reset_and_hazards.md section 3). -/
def Obligations.HeldTransactionEqualsPolled : Prop :=
  ∀ (s : State) (t : HostTxn) (es : List Event), s.Inv → statusBusy s.status = true → s.held = [] →
    t ≠ .regRead 0x04 → es.head? ≠ some .reset →
    Host.Core.run Sys2Proof.core 3 { s with agenda := .host t :: .engine :: es } =
      Host.Core.run Sys2Proof.core 2 { s with agenda := .engine :: .host t :: es }

/-- However many transactions the host issues while the engine is busy, the command completes at the
engine's turn, and the transactions that were held are held still, in their order (10_state.md section
9). -/
def Obligations.BusyEngineCompletes : Prop :=
  ∀ (s : State) (hs : List HostTxn) (es : List Event), s.Inv → statusBusy s.status = true →
    s.agenda = hs.map Event.host ++ .engine :: es →
    ∃ t : State, Host.Core.run Sys2Proof.core (hs.length + 1) s = .next t ∧
      statusBusy t.status = false ∧ statusDone t.status = true ∧ t.agenda = es ∧
      t.held = s.held ++ hs.filter (fun u => u ≠ .regRead 0x04)

/-- The host transactions the spec gives no meaning are refused (10_state.md R50): a register
transaction at an offset that is not mapped or not a multiple of 4 or of a width other than 32 bits, and
a memory transaction that ends beyond `MEM_BYTES`. -/
def Obligations.MeaninglessTransactionsRefused : Prop :=
  (∀ (s : State) (off : Nat), s.hostTurn (.regRead off) →
    (off % 4 ≠ 0 ∨ (0x2c ≤ off ∧ off ≤ 0x7c) ∨ 0x100 ≤ off) → ∃ r, step s = .refused r) ∧
  (∀ (s : State) (off : Nat) (w : Word), s.hostTurn (.regWrite off w) →
    (off % 4 ≠ 0 ∨ (0x2c ≤ off ∧ off ≤ 0x7c) ∨ 0x100 ≤ off) → ∃ r, step s = .refused r) ∧
  (∀ (s : State) (off bits : Nat), s.hostTurn (.regOtherWidth off bits) → ∃ r, step s = .refused r) ∧
  (∀ (s : State) (a n : Nat), s.hostTurn (.memRead a n) → s.memBytes < a + n →
    ∃ r, step s = .refused r) ∧
  (∀ (s : State) (a : Nat) (bs : List Byte), s.hostTurn (.memWrite a bs) →
    s.memBytes < a + bs.length → ∃ r, step s = .refused r)

/-- The host register map of 10_state.md section 5 below 0x80, row by row, with what a read of each
register returns; and every register transaction at a mapped offset and every memory read of at least one
byte inside `MEM` proceeds at `BUSY` = 0, where a read changes nothing and returns the register or the
bytes (section 9).  The agenda and the reply are the model's own fields (notes/assumptions/5.md and
14.md). -/
def Obligations.MappedTransactionsProceed : Prop :=
  (∀ s : State, ∀ row ∈ ([
      (0x00, .cmd, 0x00000000), (0x04, .status, s.status),
      (0x08, .operand .keyAddr, s.regs.keyAddr), (0x0c, .operand .ivAddr, s.regs.ivAddr),
      (0x10, .operand .ivLen, s.regs.ivLen), (0x14, .operand .aadAddr, s.regs.aadAddr),
      (0x18, .operand .aadLen, s.regs.aadLen), (0x1c, .operand .srcAddr, s.regs.srcAddr),
      (0x20, .operand .dstAddr, s.regs.dstAddr), (0x24, .operand .len, s.regs.len),
      (0x28, .operand .tagAddr, s.regs.tagAddr)] : List (Nat × HostReg × Word)),
    hostReg row.1 = some row.2.1 ∧ s.readReg row.2.1 = row.2.2) ∧
  (∀ (s : State) (off : Nat), s.hostTurn (.regRead off) → off % 4 = 0 →
    (off ≤ 0x28 ∨ (0x80 ≤ off ∧ off ≤ 0xfc)) →
    ∃ r, hostReg off = some r ∧
      step s = .next { s with agenda := s.agenda.tail, reply := some (.word (s.readReg r)) }) ∧
  (∀ (s : State) (off : Nat) (w : Word), s.hostTurn (.regWrite off w) → off % 4 = 0 →
    (off ≤ 0x28 ∨ (0x80 ≤ off ∧ off ≤ 0xfc)) →
    ∃ r, hostReg off = some r ∧
      step s = .next { s.writeReg r w with agenda := s.agenda.tail, reply := some .written }) ∧
  (∀ (s : State) (a n : Nat), s.hostTurn (.memRead a n) → 1 ≤ n → a + n ≤ s.memBytes →
    step s = .next { s with agenda := s.agenda.tail,
                            reply := some (.bytes (s.memRead Config.env a n)) })

/-- The host's view of a block register (10_state.md R23): word `k` of `B[i]` stands at offset
`0x80 + 16*i + 4*k` and is `be32` of bytes `4k .. 4k+3`; writing it replaces those four bytes and leaves
the other twelve; with the example of the rule. -/
def Obligations.BlockWordHostView : Prop :=
  (∀ (s : State) (i : BReg) (k : Fin 4) (w : Word),
    hostReg (0x80 + 16 * i.val + 4 * k.val) = some (.blockWord i k) ∧
    s.readReg (.blockWord i k) = be32 (((blockBytes (s.getB i)).drop (4 * k.val)).take 4) ∧
    blockBytes ((s.writeReg (.blockWord i k) w).getB i) =
      (blockBytes (s.getB i)).take (4 * k.val) ++ toBe32 w ++
        (blockBytes (s.getB i)).drop (4 * k.val + 4)) ∧
  (∀ s : State,
    let t := (((s.writeReg (.blockWord 0 0) 0x66e94bd4).writeReg (.blockWord 0 1)
      0xef8a2c3b).writeReg (.blockWord 0 2) 0x884cfa59).writeReg (.blockWord 0 3) 0xca342b2e
    t.getB regH = 0x66e94bd4ef8a2c3b884cfa59ca342b2e ∧
      coef (t.getB regH) 0 = (t.readReg (.blockWord 0 0)).getLsbD 31 ∧
      coef (t.getB regH) 0 = false)

/-- A host write to an operand register or to a word of a block register is read back unchanged and no
other register reads differently; a write to `STATUS` changes nothing (10_state.md sections 2 and 5). -/
def Obligations.RegisterWriteFrame : Prop :=
  (∀ (s : State) (r q : HostReg) (w : Word), r ≠ .cmd → r ≠ .status →
    (s.writeReg r w).readReg q = if q = r then w else s.readReg q) ∧
  (∀ (s : State) (w : Word), s.writeReg .status w = s)

/-- A host memory write of at least one byte inside `MEM` proceeds; the bytes read back, and every other
byte of `MEM` and every register keeps its value (10_state.md section 9, 20_memory.md section 1). -/
def Obligations.HostMemoryWriteThenRead : Prop :=
  ∀ (s : State) (a : Nat) (bs : List Byte), s.Inv → s.hostTurn (.memWrite a bs) → bs ≠ [] →
    a + bs.length ≤ s.memBytes →
    ∃ t, step s = .next t ∧ t.memRead Config.env a bs.length = bs ∧
      (∀ x, (x < a ∨ a + bs.length ≤ x) → t.readByte Config.env x = s.readByte Config.env x) ∧
      t.blk = s.blk ∧ t.regs = s.regs ∧ t.status = s.status

/-- Two memories in canonical form that read alike at every address are the same data, and a reset event
makes every byte read as the next draw of `MEM_INIT`.  The canonical form and the numbering of the draws
are the model's own (notes/assumptions/3.md); what a byte reads as is 20_memory.md section 1, and the draw
70_reset_and_hazards.md section 1. -/
def Obligations.MemoryDeterminedByItsBytes : Prop :=
  (∀ (init : Nat → Byte) (size : Nat) (m n : Memory), Memory.wf init size m = true →
    Memory.wf init size n = true →
    (∀ a, Memory.readByte init m a = Memory.readByte init n a) → m = n) ∧
  (∀ s : State, s.agenda.head? = some .reset →
    ∃ t, step s = .next t ∧ ∀ a, t.readByte Config.env a = Config.memInit (s.memDraw + 1) a)

/-- The range check fails exactly when a range of non-zero length ends beyond `MEM_BYTES`; two ranges
overlap exactly when they share an address; and the overlap check fails exactly when out shares an address
with an input, or with data that begins elsewhere, or the tag output shares one with data or an input, or
the two outputs share one (20_memory.md section 5). -/
def Obligations.RangeAndOverlapChecks : Prop :=
  (∀ (size : Nat) (f : Footprint), rangeBad size f = true ↔
    ∃ r ∈ f.ranges, 0 < r.len ∧ size < r.base + r.len) ∧
  (∀ r q : Range, rangesOverlap r q = true ↔ ∃ a, inRange r a = true ∧ inRange q a = true) ∧
  (∀ f : Footprint, overlapBad f = true ↔
    (∃ q ∈ f.inputs, ∃ a, inRange f.out a = true ∧ inRange q a = true) ∨
    (f.out.base ≠ f.data.base ∧ ∃ a, inRange f.out a = true ∧ inRange f.data a = true) ∨
    (∃ q ∈ f.data :: f.inputs, ∃ a, inRange f.tagOut a = true ∧ inRange q a = true) ∨
    ∃ a, inRange f.out a = true ∧ inRange f.tagOut a = true)

/-- Bit `i` of `rev32(w)` is bit `31 - i` of `w`; the three examples; `rev32` undoes itself (00_scope.md
R14). -/
def Obligations.ReverseThirtyTwo : Prop :=
  (∀ (w : Word) (i : Nat), i < 32 → (rev32 w).getLsbD i = w.getLsbD (31 - i)) ∧
  rev32 0x00000001 = 0x80000000 ∧ rev32 0x12345678 = 0x1e6a2c48 ∧ rev32 0x0000ffff = 0xffff0000 ∧
  ∀ w : Word, rev32 (rev32 w) = w

/-- Bit `i` of the natural-order number of a block is bit `7 - (i mod 8)` of its byte `i div 8`; the
field's one, x and x^127 (00_scope.md section 6). -/
def Obligations.NaturalOrderOfBlock : Prop :=
  (∀ (a : Block) (i : Nat), i < 128 →
    (natOrder a).getLsbD i = ((blockBytes a).getD (i / 8) 0).getLsbD (7 - i % 8)) ∧
  natOrder fieldOne = 1 ∧ natOrder fieldX = 2 ∧ natOrder 1 = (1 : Block) <<< 127

/-- Bit `n` of a carryless product is the parity of the pairs of ones whose places add to `n`
(40_gf128.md sections 1 and 2). -/
def Obligations.ClmulBitIsParity : Prop :=
  (∀ (u v : Block) (n : Nat), n < 256 → (clmul u v).getLsbD n =
    (List.range (n + 1)).foldl (fun p i => p ^^ (u.getLsbD i && v.getLsbD (n - i))) false) ∧
  (∀ (x y : Word) (n : Nat), n < 64 → (clmul32 x y).getLsbD n =
    (List.range (n + 1)).foldl (fun p i => p ^^ (x.getLsbD i && y.getLsbD (n - i))) false)

/-- The construction from ordinary integer products on interleaved planes is the carryless product: no
carry leaks from plane to plane (40_gf128.md section 2, step 2). -/
def Obligations.PlaneMultiplierIsCarryless : Prop :=
  ∀ x y : Word, clmul32Planes x y = clmul32 x y

/-- The sixteen limb products and the nine of the Karatsuba form both make the 256-bit product, whose bit
255 is 0 (40_gf128.md section 2, step 3). -/
def Obligations.LimbProductsMakeProduct : Prop :=
  ∀ a b : Block, schoolbook a b = clmul (natOrder a) (natOrder b) ∧
    karatsuba a b = clmul (natOrder a) (natOrder b) ∧
    (clmul (natOrder a) (natOrder b)).getLsbD 255 = false

/-- The two forms of the reduction step are `polymod`, on every number whose bit 255 is 0 (40_gf128.md
section 2, step 4). -/
def Obligations.ReductionFormsAgree : Prop :=
  ∀ p : Wide, p.getLsbD 255 = false → reduceWords p = polymod p ∧ reduceWhole p = polymod p

/-- The five-step datapath computes exactly `gf128_mul` (40_gf128.md R122). -/
def Obligations.DatapathIsFieldProduct : Prop :=
  ∀ a b : Block, gf128Datapath a b = gf128Mul a b

/-- Laws (1) to (4) of `gf128_mul` (40_gf128.md section 1): zero, commutative, one, distributive. -/
def Obligations.FieldProductLaws : Prop :=
  (∀ a : Block, gf128Mul 0 a = 0 ∧ gf128Mul a 0 = 0) ∧
  (∀ a b : Block, gf128Mul a b = gf128Mul b a) ∧
  (∀ a : Block, gf128Mul fieldOne a = a) ∧
  (∀ a b c : Block, gf128Mul (a ^^^ c) b = gf128Mul a b ^^^ gf128Mul c b)

/-- Law (6) of `gf128_mul` (40_gf128.md section 1): multiplying by x shifts the string right by one bit
and, if a one was shifted out, folds 0xe1 into byte 0. -/
def Obligations.FieldProductByX : Prop :=
  ∀ a : Block, gf128Mul fieldX a =
    (a >>> 1) ^^^ (if a.getLsbD 0 then 0xe1000000000000000000000000000000 else 0)

/-- `gf128_mul` is associative (40_gf128.md section 1, law (5), which the spec marks as general
knowledge). -/
def Obligations.FieldProductAssociates : Prop :=
  ∀ a b c : Block, gf128Mul (gf128Mul a b) c = gf128Mul a (gf128Mul b c)

/-- Padding (41_ghash.md R141): only the last block of a call is padded, with zeros on the right; the
example of five bytes; a call with no bytes multiplies nothing, and is not a call with 16 zero
bytes. -/
def Obligations.GhashPadsLastBlock : Prop :=
  (∀ (h acc : Block) (s : List Byte), s.length % 16 ≠ 0 →
    ghashUpdate h acc s = ghashUpdate h acc (s ++ zeroBytes (16 - s.length % 16))) ∧
  (∀ h acc : Block, ghashUpdate h acc [0x01, 0x02, 0x03, 0x04, 0x05] =
    gf128Mul (acc ^^^ 0x01020304050000000000000000000000) h) ∧
  (∀ h acc : Block, ghashUpdate h acc [] = acc) ∧
  (∀ h acc : Block, ghashUpdate h acc (zeroBytes 16) = gf128Mul acc h)

/-- Two calls of GHASH compose where the first is whole blocks, and in general not otherwise: the
example of 41_ghash.md section 1, cut at 20 of 40 bytes. -/
def Obligations.GhashComposes : Prop :=
  (∀ (h acc : Block) (s t : List Byte), s.length % 16 = 0 →
    ghashUpdate h (ghashUpdate h acc s) t = ghashUpdate h acc (s ++ t)) ∧
  (let h : Block := 0x66e94bd4ef8a2c3b884cfa59ca342b2e
   let s := (List.range 20).map (BitVec.ofNat 8)
   let t := (List.range 20).map (fun i => BitVec.ofNat 8 (20 + i))
   ghashUpdate h 0 (s ++ t) = 0x58f1acdb76ed4b6f2f5fbbaebba3a577 ∧
   ghashUpdate h (ghashUpdate h 0 s) t = 0x458d4321d81c9972fded4e974ffeaf12)

/-- GHASH is linear in the accumulator (41_ghash.md R145). -/
def Obligations.GhashIsLinear : Prop :=
  ∀ (h acc1 acc2 : Block) (data : List Byte),
    ghashUpdate h (acc1 ^^^ acc2) data =
      ghashUpdate h acc1 data ^^^ ghashUpdate h acc2 (zeroBytes data.length)

/-- With `H` zero, as it is after reset, every GHASH with `LEN` > 0 sets `Y` to zero, and it is no error
(41_ghash.md R146). -/
def Obligations.GhashUnderZeroSubkey : Prop :=
  (∀ s : State, s.getB regH = 0 → 0 < s.regs.len.toNat →
    s.regs.srcAddr.toNat + s.regs.len.toNat ≤ s.memBytes →
    exec .ghash s = .next ((s.setB regY 0).completed 0x00000002)) ∧
  State.reset.getB regH = 0

/-- `inc32` (42_gctr.md R155): the first twelve bytes are copied, the last four are a big-endian counter
modulo 2^32; with the examples of the rule. -/
def Obligations.Inc32OnBytes : Prop :=
  (∀ cb : Block, blockBytes (inc32 cb) =
    (blockBytes cb).take 12 ++
      toBe32 (BitVec.ofNat 32 (((be32 ((blockBytes cb).drop 12)).toNat + 1) % 2 ^ 32))) ∧
  inc32 0x00000000000000000000000000000001 = 0x00000000000000000000000000000002 ∧
  inc32 0xcafebabefacedbaddecaf88800000001 = 0xcafebabefacedbaddecaf88800000002 ∧
  inc32 0x0123456789abcdef0123456700ffffff = 0x0123456789abcdef0123456701000000 ∧
  inc32 0xffffffffffffffffffffffffffffffff = 0xffffffffffffffffffffffff00000000

/-- Block `i` of the data is combined with the cipher of the counter block incremented `i` times, whole
or with its first bytes (42_gctr.md section 2). -/
def Obligations.GctrBlockwise : Prop :=
  ∀ (enc : Block → Block) (icb : Block) (data : List Byte),
    (gctr enc icb data).length = data.length ∧
    ∀ i, 16 * i < data.length →
      ((gctr enc icb data).drop (16 * i)).take 16 =
        xorBytes ((data.drop (16 * i)).take 16) (blockBytes (enc (inc32^[i] icb)))

/-- GCTR is its own inverse (42_gctr.md section 2). -/
def Obligations.GctrIsInvolution : Prop :=
  ∀ (enc : Block → Block) (icb : Block) (data : List Byte),
    gctr enc icb (gctr enc icb data) = data

/-- In the direct path, of a 12-byte IV, `j0` is the IV and `00000001` and `j1` the IV and `00000002`; of
an IV of any other length `j0` is two GHASH calls from zero, over the IV and over its length in bits as a
64-bit big-endian number after eight zero bytes; with the two examples of 43_gcm.md section 1 and the
length block of the second; of an empty message without AAD the full tag is the cipher of `j0` (sections 1
and 3). -/
def Obligations.DirectPathAndEmptyMessage : Prop :=
  (∀ (h : Block) (iv : List Byte), iv.length = 12 →
    blockBytes (deriveJ0 h iv) = iv ++ [0x00, 0x00, 0x00, 0x01] ∧
    blockBytes (inc32 (deriveJ0 h iv)) = iv ++ [0x00, 0x00, 0x00, 0x02]) ∧
  (∀ (h : Block) (iv : List Byte), iv.length ≠ 12 →
    deriveJ0 h iv = ghashUpdate h (ghashUpdate h 0 iv)
      (zeroBytes 8 ++ toBe64 (BitVec.ofNat 64 (8 * iv.length)))) ∧
  (let h : Block := 0xb83b533708bf535d0aa6e52980d53b78
   let iv : List Byte := [0xca, 0xfe, 0xba, 0xbe, 0xfa, 0xce, 0xdb, 0xad]
   deriveJ0 h (iv ++ [0xde, 0xca, 0xf8, 0x88]) = 0xcafebabefacedbaddecaf88800000001 ∧
   zeroBytes 8 ++ toBe64 (BitVec.ofNat 64 (8 * iv.length)) = zeroBytes 15 ++ [0x40] ∧
   deriveJ0 h iv = 0xc43a83c4c4badec4354ca984db252f7d) ∧
  (∀ (enc : Block → Block) (iv : List Byte), gcmTag enc iv [] [] = enc (deriveJ0 (enc 0) iv))

/-- GFMUL (40_gf128.md section 3): the product of the two registers as they stood goes to the
destination, `STATUS` = 0x00000002, and nothing else changes. -/
def Obligations.GfmulResult : Prop :=
  ∀ (bd ba bb : BReg) (s : State), exec (.gfmul bd ba bb) s =
    .next ((s.setB bd (gf128Mul (s.getB ba) (s.getB bb))).completed 0x00000002)

/-- INC32 (42_gctr.md section 1): the destination becomes `inc32` of the source as it stood, `STATUS` =
0x00000002, and nothing else changes. -/
def Obligations.Inc32Result : Prop :=
  ∀ (bd ba : BReg) (s : State), exec (.inc32 bd ba) s =
    .next ((s.setB bd (inc32 (s.getB ba))).completed 0x00000002)

/-- LDB (44_move.md): byte `j` of the register is `MEM[SRC_ADDR + j]`, and nothing else changes. -/
def Obligations.LdbResult : Prop :=
  ∀ (bd : BReg) (s : State), s.regs.srcAddr.toNat + 16 ≤ s.memBytes →
    ∃ b : Block, exec (.ldb bd) s = .next ((s.setB bd b).completed 0x00000002) ∧
      ∀ j, j < 16 → (blockBytes b).getD j 0 = s.readByte Config.env (s.regs.srcAddr.toNat + j)

/-- STB (44_move.md): `MEM[DST_ADDR + j]` becomes byte `j` of the register, every other byte of `MEM`
keeps its value, and nothing else changes. -/
def Obligations.StbResult : Prop :=
  ∀ (ba : BReg) (s : State), s.Inv → s.regs.dstAddr.toNat + 16 ≤ s.memBytes →
    ∃ m : Memory, exec (.stb ba) s = .next ({ s with mem := m }.completed 0x00000002) ∧
      ∀ a, State.readByte Config.env { s with mem := m } a =
        if s.regs.dstAddr.toNat ≤ a ∧ a < s.regs.dstAddr.toNat + 16 then
          (blockBytes (s.getB ba)).getD (a - s.regs.dstAddr.toNat) 0
        else s.readByte Config.env a

/-- HKEY (41_ghash.md section 2): `H` becomes the cipher of the zero block under the key in `MEM`, and
nothing else changes; the key is 16, 24 or 32 bytes as its size is 128, 192 or 256 bits (20_memory.md
section 5, 30_encoding.md section 2). -/
def Obligations.HkeyResult : Prop :=
  (∀ (k : KeySize) (s : State), s.regs.keyAddr.toNat + klen k ≤ s.memBytes →
    exec (.hkey (some k)) s =
      .next ((s.setB regH (Config.cipher k
        (s.memRead Config.env s.regs.keyAddr.toNat (klen k)) 0)).completed 0x00000002)) ∧
  klen .k128 = 16 ∧ klen .k192 = 24 ∧ klen .k256 = 32

/-- GHASH (41_ghash.md section 2): `Y` becomes the update of `Y` under `H` by the data, which is not
read, and its address not checked, where `LEN` = 0; nothing else changes. -/
def Obligations.GhashResult : Prop :=
  (∀ s : State, s.regs.srcAddr.toNat + s.regs.len.toNat ≤ s.memBytes →
    exec .ghash s = .next ((s.setB regY (ghashUpdate (s.getB regH) (s.getB regY)
      (s.memRead Config.env s.regs.srcAddr.toNat s.regs.len.toNat))).completed 0x00000002)) ∧
  (∀ s : State, s.regs.len = 0 → exec .ghash s = .next (s.completed 0x00000002))

/-- GCTR (42_gctr.md section 2): where its checks pass, the out range becomes `gctr` of the data range
under the key range from `CB`, and nothing else changes. -/
def Obligations.GctrResult : Prop :=
  ∀ (k : KeySize) (s : State), s.regs.keyAddr.toNat + klen k ≤ s.memBytes →
    (s.regs.len.toNat = 0 ∨ (s.regs.srcAddr.toNat + s.regs.len.toNat ≤ s.memBytes ∧
      s.regs.dstAddr.toNat + s.regs.len.toNat ≤ s.memBytes)) →
    (∀ a, inRange s.regs.outRange a = true → inRange (s.regs.keyRange k) a = false) →
    (s.regs.dstAddr = s.regs.srcAddr ∨
      ∀ a, inRange s.regs.outRange a = true → inRange s.regs.dataRange a = false) →
    exec (.gctr (some k)) s =
      .next ((s.memWrite Config.env s.regs.dstAddr.toNat
        (gctr (Config.cipher k (s.memRead Config.env s.regs.keyAddr.toNat (klen k)))
          (s.getB regCB)
          (s.memRead Config.env s.regs.srcAddr.toNat s.regs.len.toNat))).completed 0x00000002)

/-- ENCRYPT (43_gcm.md section 3), where its checks pass: the pseudocode of the command, and nothing else
changes. -/
def Obligations.EncryptResult : Prop :=
  ∀ (k : KeySize) (tlen : BitVec 5) (s : State), s.regs.ivLen ≠ 0 → tagFieldWf tlen = true →
    rangeBad s.memBytes (encryptFootprint k tlen s.regs) = false →
    overlapBad (encryptFootprint k tlen s.regs) = false →
    let enc := Config.cipher k (s.memRead Config.env s.regs.keyAddr.toNat (klen k))
    let iv := s.memRead Config.env s.regs.ivAddr.toNat s.regs.ivLen.toNat
    let aad := s.memRead Config.env s.regs.aadAddr.toNat s.regs.aadLen.toNat
    let pt := s.memRead Config.env s.regs.srcAddr.toNat s.regs.len.toNat
    let h := enc 0
    let j0 := deriveJ0 h iv
    let ct := gctr enc (inc32 j0) pt
    let sv := ghashUpdate h (ghashUpdate h (ghashUpdate h 0 aad) ct)
      (toBe64 (BitVec.ofNat 64 (8 * s.regs.aadLen.toNat)) ++
        toBe64 (BitVec.ofNat 64 (8 * s.regs.len.toNat)))
    let t := sv ^^^ enc j0
    exec (.encrypt (some k) tlen) s =
      .next (((s.memWrite Config.env s.regs.dstAddr.toNat ct).memWrite Config.env
        s.regs.tagAddr.toNat ((blockBytes t).take tlen.toNat)).completed 0x00000002)

/-- DECRYPT (43_gcm.md section 4), where its checks pass: authentic with the plaintext where all `tlen`
bytes of the tag agree, and otherwise forged with zeros; nothing else changes. -/
def Obligations.DecryptResult : Prop :=
  ∀ (k : KeySize) (tlen : BitVec 5) (s : State), s.regs.ivLen ≠ 0 → tagFieldWf tlen = true →
    rangeBad s.memBytes (decryptFootprint k tlen s.regs) = false →
    overlapBad (decryptFootprint k tlen s.regs) = false →
    let enc := Config.cipher k (s.memRead Config.env s.regs.keyAddr.toNat (klen k))
    let iv := s.memRead Config.env s.regs.ivAddr.toNat s.regs.ivLen.toNat
    let aad := s.memRead Config.env s.regs.aadAddr.toNat s.regs.aadLen.toNat
    let ct := s.memRead Config.env s.regs.srcAddr.toNat s.regs.len.toNat
    let tagIn := s.memRead Config.env s.regs.tagAddr.toNat tlen.toNat
    let h := enc 0
    let j0 := deriveJ0 h iv
    let pt := gctr enc (inc32 j0) ct
    let sv := ghashUpdate h (ghashUpdate h (ghashUpdate h 0 aad) ct)
      (toBe64 (BitVec.ofNat 64 (8 * s.regs.aadLen.toNat)) ++
        toBe64 (BitVec.ofNat 64 (8 * s.regs.len.toNat)))
    let t := sv ^^^ enc j0
    exec (.decrypt (some k) tlen) s =
      if (blockBytes t).take tlen.toNat = tagIn then
        .next ((s.memWrite Config.env s.regs.dstAddr.toNat pt).completed 0x00000012)
      else
        .next ((s.memWrite Config.env s.regs.dstAddr.toNat
          (zeroBytes s.regs.len.toNat)).completed 0x00000022)

/-- The checks and their order (60_exceptions.md R213): the first failure alone is reported, with no
other effect, and a command whose checks pass ends without error; with the example of the rule. -/
def Obligations.ChecksInOrder : Prop :=
  (∀ (s : State) (w : Word), s.engineTurn → s.cmd = some w →
    (∀ why, decodeWord w = .illegal why → step s = .next (s.takeTurn.completed 0x00000106)) ∧
    (∀ i e, decodeWord w = .command i → commandError i s.memBytes s.regs = some e →
      step s = .next (s.takeTurn.completed ((6 : Word) ||| ((errByte e).setWidth 32 <<< 8)))) ∧
    (∀ i, decodeWord w = .command i → commandError i s.memBytes s.regs = none →
      ∃ t, step s = .next t ∧ statusErr t.status = false ∧ statusErrCode t.status = 0)) ∧
  (∀ (n : Nat) (r : OperandRegs), r.ivLen = 0 →
    commandError (.encrypt none 5) n r = some .keySize ∧
    commandError (.encrypt (some .k128) 5) n r = some .ivLen ∧
    commandError (.encrypt (some .k128) 5) n { r with ivLen := 12 } = some .tagLen)

/-- `raise Error(code)` does this and nothing else (60_exceptions.md R214): `STATUS` is
`0x00000006 | code << 8`, that is `BUSY` = 0, `DONE` = 1, `ERR` = 1, `AUTH` = `NONE` and the code; the
transients are cleared and `PHASE` is `IDLE`; every register and every byte of `MEM` keeps its value. -/
def Obligations.ErrorCompletionWritesStatusOnly : Prop :=
  ∀ (e : ErrCode) (s : State),
    s.raiseError e = s.completed ((6 : Word) ||| ((errByte e).setWidth 32 <<< 8)) ∧
    statusBusy (s.raiseError e).status = false ∧ statusDone (s.raiseError e).status = true ∧
    statusErr (s.raiseError e).status = true ∧ statusAuth (s.raiseError e).status = 0 ∧
    statusErrCode (s.raiseError e).status = errByte e ∧
    (s.raiseError e).transients = Transients.cleared ∧ (s.raiseError e).phase = .idle ∧
    (s.raiseError e).blk = s.blk ∧ (s.raiseError e).regs = s.regs ∧
    ∀ a, (s.raiseError e).readByte Config.env a = s.readByte Config.env a

/-- A command touches no block register but the one its row of the table of 10_state.md section 2 says it
writes, and no operand register; the size and the draw of `MEM`, the held transactions, the agenda and
the reply are no command's to change. -/
def Obligations.CommandFrame : Prop :=
  ∀ (i : Instr) (s t : State), exec i s = .next t →
    (∀ j : BReg, writtenBlock i ≠ some j → t.getB j = s.getB j) ∧ t.regs = s.regs ∧
      t.memBytes = s.memBytes ∧ t.memDraw = s.memDraw ∧ t.held = s.held ∧ t.agenda = s.agenda ∧
      t.reply = s.reply

/-- Operand registers are inputs only: a command writes none, one that it does not use has no effect on
it, and the host changes none while a command is in the engine (10_state.md R31). -/
def Obligations.UnusedOperandRegistersIgnored : Prop :=
  (∀ (i : Instr) (s t : State), exec i s = .next t →
    (∀ n : OperandReg, t.regs.get n = s.regs.get n) ∧
    ∀ (n : OperandReg) (w : Word), usesOperand i n = false →
      exec i { s with regs := s.regs.set n w } = .next { t with regs := s.regs.set n w }) ∧
  (∀ (s : State) (t : HostTxn), statusBusy s.status = true → s.agenda.head? = some (.host t) →
    ∃ u, step s = .next u ∧ u.regs = s.regs ∧ u.cmd = s.cmd)

/-- Every byte of `MEM` outside the output ranges of a command keeps its value, whether it completes with
or without error (20_memory.md sections 4 and 5). -/
def Obligations.MemoryFrame : Prop :=
  ∀ (i : Instr) (s t : State), s.Inv → exec i s = .next t →
    ∀ a, (∀ r ∈ outputRanges i s.regs, inRange r a = false) →
      t.readByte Config.env a = s.readByte Config.env a

/-- No command's result depends on `STATUS`, and none reads a transient of an earlier command
(10_state.md sections 4 and 8). -/
def Obligations.CommandsIgnoreStatusAndTransients : Prop :=
  ∀ (i : Instr) (s : State) (status : Word) (tr : Transients) (p : Phase) (c : Option Word),
    exec i { s with status := status, transients := tr, phase := p, cmd := c } = exec i s

/-- ENCRYPT and DECRYPT depend only on the command, the operand registers and the bytes of the ranges
they name: two cores that agree on those end with the same `STATUS` and, without error, the same output
bytes, and each keeps its block registers (10_state.md section 10). -/
def Obligations.OrchestratorDependsOnNamedInputsOnly : Prop :=
  ∀ (i : Instr) (s1 s2 : State), usesMessage i = true → s1.Inv → s2.Inv → s1.regs = s2.regs →
    s1.memBytes = s2.memBytes →
    (∀ r ∈ (commandFootprint i s1.regs).data :: (commandFootprint i s1.regs).inputs,
      s1.readRange Config.env r = s2.readRange Config.env r) →
    ∃ t1 t2, exec i s1 = .next t1 ∧ exec i s2 = .next t2 ∧ t1.status = t2.status ∧
      t1.blk = s1.blk ∧ t2.blk = s2.blk ∧
      (statusErr t1.status = false →
        ∀ r ∈ outputRanges i s1.regs, t1.readRange Config.env r = t2.readRange Config.env r)

/-- Round trip (43_gcm.md section 5): after an ENCRYPT without error, DECRYPT of its ciphertext and tag
with the same key, IV and AAD, to any destination its checks allow, is authentic and gives the plaintext;
in place is always allowed. -/
def Obligations.DecryptUndoesEncrypt : Prop :=
  ∀ (k : KeySize) (tlen : BitVec 5) (s t : State), s.Inv →
    exec (.encrypt (some k) tlen) s = .next t → statusErr t.status = false →
    commandError (.decrypt (some k) tlen) t.memBytes
        { t.regs with srcAddr := t.regs.dstAddr } = none ∧
    ∀ d : Word,
      let r : OperandRegs := { t.regs with srcAddr := t.regs.dstAddr, dstAddr := d }
      commandError (.decrypt (some k) tlen) t.memBytes r = none →
      ∃ u, exec (.decrypt (some k) tlen) { t with regs := r } = .next u ∧
        u.status = 0x00000012 ∧
        u.memRead Config.env d.toNat s.regs.len.toNat =
          s.memRead Config.env s.regs.srcAddr.toNat s.regs.len.toNat

/-- After a forged DECRYPT every byte of the out range is zero, in place or not (43_gcm.md section
4). -/
def Obligations.ForgedOutputIsZero : Prop :=
  ∀ (ks : Option KeySize) (tlen : BitVec 5) (s t : State), s.Inv →
    exec (.decrypt ks tlen) s = .next t → t.status = 0x00000022 →
    ∀ a, inRange s.regs.outRange a = true → t.readByte Config.env a = 0

/-- STB and then LDB with `SRC_ADDR` = `DST_ADDR` copies a block register through 16 bytes of `MEM`
(44_move.md). -/
def Obligations.RegisterCopyThroughMemory : Prop :=
  ∀ (ba bd : BReg) (s : State), s.Inv → s.regs.dstAddr.toNat + 16 ≤ s.memBytes →
    ∃ t u, exec (.stb ba) s = .next t ∧
      exec (.ldb bd) { t with regs := { t.regs with srcAddr := t.regs.dstAddr } } = .next u ∧
      u.getB bd = s.getB ba
end

