-- ==== Sys2Proof/Laws/Bytes.lean ====
section
/-! SUPPORT. Lengths and pieces of byte strings (00_scope.md R10, 41_ghash.md R140, 42_gctr.md R157). -/

namespace Sys2Proof.Machine

@[simp] theorem length_zeroBytes (n : Nat) : (zeroBytes n).length = n := by simp [zeroBytes]

@[simp] theorem length_toBytes {w : Nat} (n : Nat) (v : BitVec w) : (toBytes n v).length = n := by
  simp [toBytes]

@[simp] theorem length_blockBytes (b : Block) : (blockBytes b).length = 16 := by simp [blockBytes]

@[simp] theorem length_toBe32 (v : Word) : (toBe32 v).length = 4 := by simp [toBe32]

@[simp] theorem length_toBe64 (v : BitVec 64) : (toBe64 v).length = 8 := by simp [toBe64]

@[simp] theorem length_xorBytes (a b : List Byte) : (xorBytes a b).length = min a.length b.length := by
  simp [xorBytes]

@[simp] theorem length_ivLengthBlock (n : Nat) : (ivLengthBlock n).length = 16 := by
  simp [ivLengthBlock]

@[simp] theorem length_lengthBlock (a c : Nat) : (lengthBlock a c).length = 16 := by
  simp [lengthBlock]

@[simp] theorem pieces_nil : pieces [] = [] := rfl

/-- A string that is not empty is its first 16 bytes, or all of it, and the pieces of the rest. -/
theorem pieces_of_ne_nil {s : List Byte} (h : s ≠ []) :
    pieces s = s.take 16 :: pieces (s.drop 16) := by
  have hl : 0 < s.length := List.length_pos_iff.2 h
  obtain ⟨n, hn⟩ : ∃ n, (s.length + 15) / 16 = n + 1 := ⟨(s.length + 15) / 16 - 1, by omega⟩
  have hd : ((s.drop 16).length + 15) / 16 = n := by
    rw [List.length_drop]; omega
  rw [pieces, hn, piecesFrom, pieces, hd]

/-- A string of 16 bytes is one piece. -/
theorem pieces_of_length_eq {s : List Byte} (h : s.length = 16) : pieces s = [s] := by
  have hne : s ≠ [] := by intro hs; subst hs; simp at h
  rw [pieces_of_ne_nil hne, List.take_of_length_le (by omega), List.drop_of_length_le (by omega),
    pieces_nil]

/-- The pieces of two strings joined are the pieces of each, where the first is whole blocks. -/
theorem pieces_append {s t : List Byte} (h : s.length % 16 = 0) :
    pieces (s ++ t) = pieces s ++ pieces t := by
  induction hn : s.length / 16 generalizing s with
  | zero =>
    have : s = [] := List.length_eq_zero_iff.1 (by omega)
    subst this; simp
  | succ n ih =>
    have hl : 16 ≤ s.length := by omega
    have hne : s ≠ [] := by intro hs; subst hs; simp at hl
    have hne' : s ++ t ≠ [] := by simp [hne]
    rw [pieces_of_ne_nil hne', pieces_of_ne_nil hne, List.take_append_of_le_length hl,
      List.drop_append_of_le_length hl, ih (by rw [List.length_drop]; omega)
        (by rw [List.length_drop]; omega)]
    rfl

/-- The pieces joined are the string. -/
theorem flatten_pieces (s : List Byte) : (pieces s).flatten = s := by
  induction hn : (s.length + 15) / 16 generalizing s with
  | zero =>
    have : s = [] := List.length_eq_zero_iff.1 (by omega)
    subst this; rfl
  | succ n ih =>
    have hne : s ≠ [] := by intro hs; subst hs; simp at hn
    rw [pieces_of_ne_nil hne, List.flatten_cons, ih _ (by rw [List.length_drop]; omega),
      List.take_append_drop]

/-- No piece is longer than a block. -/
theorem length_of_mem_pieces {s p : List Byte} (h : p ∈ pieces s) : p.length ≤ 16 := by
  induction hn : (s.length + 15) / 16 generalizing s with
  | zero =>
    have : s = [] := List.length_eq_zero_iff.1 (by omega)
    subst this; simp at h
  | succ n ih =>
    have hne : s ≠ [] := by intro hs; subst hs; simp at hn
    rw [pieces_of_ne_nil hne] at h
    rcases List.mem_cons.1 h with h | h
    · subst h; rw [List.length_take]; omega
    · exact ih h (by rw [List.length_drop]; omega)

/-- There are `ceil(n / 16)` pieces (42_gctr.md R158). -/
theorem length_pieces (s : List Byte) : (pieces s).length = (s.length + 15) / 16 := by
  have h : ∀ n (t : List Byte), (piecesFrom n t).length = n := by
    intro n
    induction n with
    | zero => intro t; rfl
    | succ n ih => intro t; simp [piecesFrom, ih]
  exact h _ s

/-- Bit `j` of a big-endian number is bit `j mod 8` of its byte `j div 8` from the end (R10). -/
theorem getLsbD_ofBytes {w : Nat} (s : List Byte) (j : Nat) :
    (ofBytes s : BitVec w).getLsbD j =
      (decide (j < w) && (s.reverse.getD (j / 8) 0).getLsbD (j % 8)) := by
  induction s using List.reverseRecOn generalizing j with
  | nil => simp [ofBytes]
  | append_singleton t b ih =>
    have h : (ofBytes (t ++ [b]) : BitVec w) = (ofBytes t <<< 8) ||| b.setWidth w := by
      simp [ofBytes, List.foldl_append]
    rw [h, BitVec.getLsbD_or, BitVec.getLsbD_shiftLeft, BitVec.getLsbD_setWidth, ih]
    by_cases hj : j < 8
    · have h0 : j / 8 = 0 := by omega
      have h1 : j % 8 = j := by omega
      simp [hj, h0, h1]
    · obtain ⟨k, rfl⟩ : ∃ k, j = k + 8 := ⟨j - 8, by omega⟩
      have h2 : b.getLsbD (k + 8) = false := BitVec.getLsbD_of_ge b _ (by omega)
      by_cases hw : k + 8 < w
      · have : k < w := by omega
        simp [hw, this]
      · simp [hw]

/-- Byte `i` of a number, counted from its most significant (R10). -/
theorem getElem_toBytes {w : Nat} (n : Nat) (v : BitVec w) {i : Nat} (h : i < (toBytes n v).length) :
    (toBytes n v)[i] = v.extractLsb' (8 * (n - 1 - i)) 8 := by
  simp [toBytes]

/-- The bytes of a 16-byte string's block are the string (20_memory.md R61). -/
theorem blockBytes_blockOf {s : List Byte} (h : s.length = 16) : blockBytes (blockOf s) = s := by
  apply List.ext_getElem (by simp [h])
  intro i h1 h2
  simp only [blockBytes, getElem_toBytes]
  apply BitVec.eq_of_getLsbD_eq
  intro j hj
  rw [BitVec.getLsbD_extractLsb', blockOf, getLsbD_ofBytes]
  have e1 : (8 * (16 - 1 - i) + j) / 8 = 15 - i := by omega
  have e2 : (8 * (16 - 1 - i) + j) % 8 = j := by omega
  have e3 : 8 * (16 - 1 - i) + j < 128 := by omega
  have e4 : 15 - i < s.reverse.length := by simp [h]; omega
  rw [e1, e2, List.getD_eq_getElem _ _ e4, List.getElem_reverse]
  have e5 : s.length - 1 - (15 - i) = i := by omega
  simp [hj, e3, e5]

/-- The block of a block's bytes is the block (20_memory.md R61). -/
@[simp] theorem blockOf_blockBytes (b : Block) : blockOf (blockBytes b) = b := by
  apply BitVec.eq_of_getLsbD_eq
  intro j hj
  have e1 : 15 - j / 8 < (blockBytes b).length := by simp; omega
  have e2 : j / 8 < (blockBytes b).reverse.length := by simp; omega
  rw [blockOf, getLsbD_ofBytes, List.getD_eq_getElem _ _ e2, List.getElem_reverse]
  simp only [blockBytes, getElem_toBytes, length_toBytes, BitVec.getLsbD_extractLsb']
  have e3 : 8 * (16 - 1 - (16 - 1 - j / 8)) + j % 8 = j := by omega
  rw [e3]
  simp [hj, Nat.mod_lt]

/-- A block of 16 bytes needs no padding (41_ghash.md R140). -/
theorem padBlock_of_length_eq {p : List Byte} (h : p.length = 16) : padBlock p = blockOf p := by
  simp [padBlock, h, zeroBytes]

theorem or_eq_zero (a b : Byte) : a ||| b = 0 ↔ a = 0 ∧ b = 0 := by
  constructor
  · intro h
    have hb : ∀ i, a.getLsbD i = false ∧ b.getLsbD i = false := fun i => by
      simpa using congrArg (fun x : Byte => x.getLsbD i) h
    exact ⟨BitVec.eq_of_getLsbD_eq fun i _ => by simp [(hb i).1],
      BitVec.eq_of_getLsbD_eq fun i _ => by simp [(hb i).2]⟩
  · rintro ⟨rfl, rfl⟩; rfl

/-- The comparison of 43_gcm.md R186 over all byte pairs is zero exactly when the tags agree. -/
theorem tagDiff_eq_zero {a b : List Byte} (h : a.length = b.length) : tagDiff a b = 0 ↔ a = b := by
  have hf : ∀ (l : List Byte) (x : Byte), l.foldl (· ||| ·) x = 0 ↔ x = 0 ∧ ∀ y ∈ l, y = 0 := by
    intro l
    induction l with
    | nil => simp
    | cons y l ih => intro x; simp only [List.foldl_cons, ih, or_eq_zero]; simp [and_assoc]
  unfold tagDiff xorBytes
  rw [hf]
  simp only [true_and]
  induction a generalizing b with
  | nil =>
    cases b with
    | nil => simp
    | cons => simp at h
  | cons x a ih =>
    cases b with
    | nil => simp at h
    | cons y b => simp at h; simp [← ih h]

end Sys2Proof.Machine
end

