-- ==== Sys2Proof/Laws/State.lean ====
section
/-! SUPPORT. What each update of the state does to each field: one lemma a field and an update, so that no
proof unfolds a record update. -/

namespace Sys2Proof.Machine

variable (s : State)

@[simp] theorem setB_blk (i : BReg) (v : Block) : (s.setB i v).blk = s.blk.set i v := rfl
@[simp] theorem setB_regs (i : BReg) (v : Block) : (s.setB i v).regs = s.regs := rfl
@[simp] theorem setB_status (i : BReg) (v : Block) : (s.setB i v).status = s.status := rfl
@[simp] theorem setB_mem (i : BReg) (v : Block) : (s.setB i v).mem = s.mem := rfl
@[simp] theorem setB_phase (i : BReg) (v : Block) : (s.setB i v).phase = s.phase := rfl
@[simp] theorem setB_transients (i : BReg) (v : Block) : (s.setB i v).transients = s.transients := rfl
@[simp] theorem setB_cmd (i : BReg) (v : Block) : (s.setB i v).cmd = s.cmd := rfl
@[simp] theorem setB_held (i : BReg) (v : Block) : (s.setB i v).held = s.held := rfl
@[simp] theorem setB_memBytes (i : BReg) (v : Block) : (s.setB i v).memBytes = s.memBytes := rfl
@[simp] theorem setB_memDraw (i : BReg) (v : Block) : (s.setB i v).memDraw = s.memDraw := rfl
@[simp] theorem setB_agenda (i : BReg) (v : Block) : (s.setB i v).agenda = s.agenda := rfl
@[simp] theorem setB_reply (i : BReg) (v : Block) : (s.setB i v).reply = s.reply := rfl

@[simp] theorem memWrite_blk (env : Env) (a : Nat) (bs : List Byte) : (s.memWrite env a bs).blk = s.blk := rfl
@[simp] theorem memWrite_regs (env : Env) (a : Nat) (bs : List Byte) : (s.memWrite env a bs).regs = s.regs := rfl
@[simp] theorem memWrite_status (env : Env) (a : Nat) (bs : List Byte) : (s.memWrite env a bs).status = s.status := rfl
@[simp] theorem memWrite_mem (env : Env) (a : Nat) (bs : List Byte) : (s.memWrite env a bs).mem = Memory.writeBytes (s.init env) s.mem a bs := rfl
@[simp] theorem memWrite_phase (env : Env) (a : Nat) (bs : List Byte) : (s.memWrite env a bs).phase = s.phase := rfl
@[simp] theorem memWrite_transients (env : Env) (a : Nat) (bs : List Byte) : (s.memWrite env a bs).transients = s.transients := rfl
@[simp] theorem memWrite_cmd (env : Env) (a : Nat) (bs : List Byte) : (s.memWrite env a bs).cmd = s.cmd := rfl
@[simp] theorem memWrite_held (env : Env) (a : Nat) (bs : List Byte) : (s.memWrite env a bs).held = s.held := rfl
@[simp] theorem memWrite_memBytes (env : Env) (a : Nat) (bs : List Byte) : (s.memWrite env a bs).memBytes = s.memBytes := rfl
@[simp] theorem memWrite_memDraw (env : Env) (a : Nat) (bs : List Byte) : (s.memWrite env a bs).memDraw = s.memDraw := rfl
@[simp] theorem memWrite_agenda (env : Env) (a : Nat) (bs : List Byte) : (s.memWrite env a bs).agenda = s.agenda := rfl
@[simp] theorem memWrite_reply (env : Env) (a : Nat) (bs : List Byte) : (s.memWrite env a bs).reply = s.reply := rfl

@[simp] theorem enter_blk (p : Phase) : (s.enter p).blk = s.blk := rfl
@[simp] theorem enter_regs (p : Phase) : (s.enter p).regs = s.regs := rfl
@[simp] theorem enter_status (p : Phase) : (s.enter p).status = s.status := rfl
@[simp] theorem enter_mem (p : Phase) : (s.enter p).mem = s.mem := rfl
@[simp] theorem enter_phase (p : Phase) : (s.enter p).phase = p := rfl
@[simp] theorem enter_transients (p : Phase) : (s.enter p).transients = s.transients := rfl
@[simp] theorem enter_cmd (p : Phase) : (s.enter p).cmd = s.cmd := rfl
@[simp] theorem enter_held (p : Phase) : (s.enter p).held = s.held := rfl
@[simp] theorem enter_memBytes (p : Phase) : (s.enter p).memBytes = s.memBytes := rfl
@[simp] theorem enter_memDraw (p : Phase) : (s.enter p).memDraw = s.memDraw := rfl
@[simp] theorem enter_agenda (p : Phase) : (s.enter p).agenda = s.agenda := rfl
@[simp] theorem enter_reply (p : Phase) : (s.enter p).reply = s.reply := rfl

@[simp] theorem latch_blk (f : Transients → Transients) : (s.latch f).blk = s.blk := rfl
@[simp] theorem latch_regs (f : Transients → Transients) : (s.latch f).regs = s.regs := rfl
@[simp] theorem latch_status (f : Transients → Transients) : (s.latch f).status = s.status := rfl
@[simp] theorem latch_mem (f : Transients → Transients) : (s.latch f).mem = s.mem := rfl
@[simp] theorem latch_phase (f : Transients → Transients) : (s.latch f).phase = s.phase := rfl
@[simp] theorem latch_transients (f : Transients → Transients) : (s.latch f).transients = f s.transients := rfl
@[simp] theorem latch_cmd (f : Transients → Transients) : (s.latch f).cmd = s.cmd := rfl
@[simp] theorem latch_held (f : Transients → Transients) : (s.latch f).held = s.held := rfl
@[simp] theorem latch_memBytes (f : Transients → Transients) : (s.latch f).memBytes = s.memBytes := rfl
@[simp] theorem latch_memDraw (f : Transients → Transients) : (s.latch f).memDraw = s.memDraw := rfl
@[simp] theorem latch_agenda (f : Transients → Transients) : (s.latch f).agenda = s.agenda := rfl
@[simp] theorem latch_reply (f : Transients → Transients) : (s.latch f).reply = s.reply := rfl

@[simp] theorem finish_blk (w : Word) : (s.finish w).blk = s.blk := rfl
@[simp] theorem finish_regs (w : Word) : (s.finish w).regs = s.regs := rfl
@[simp] theorem finish_status (w : Word) : (s.finish w).status = w := rfl
@[simp] theorem finish_mem (w : Word) : (s.finish w).mem = s.mem := rfl
@[simp] theorem finish_phase (w : Word) : (s.finish w).phase = .idle := rfl
@[simp] theorem finish_transients (w : Word) : (s.finish w).transients = Transients.cleared := rfl
@[simp] theorem finish_cmd (w : Word) : (s.finish w).cmd = none := rfl
@[simp] theorem finish_held (w : Word) : (s.finish w).held = s.held := rfl
@[simp] theorem finish_memBytes (w : Word) : (s.finish w).memBytes = s.memBytes := rfl
@[simp] theorem finish_memDraw (w : Word) : (s.finish w).memDraw = s.memDraw := rfl
@[simp] theorem finish_agenda (w : Word) : (s.finish w).agenda = s.agenda := rfl
@[simp] theorem finish_reply (w : Word) : (s.finish w).reply = s.reply := rfl

@[simp] theorem complete_blk (v : Auth) : (s.complete v).blk = s.blk := rfl
@[simp] theorem complete_regs (v : Auth) : (s.complete v).regs = s.regs := rfl
@[simp] theorem complete_status (v : Auth) : (s.complete v).status = doneStatus v := rfl
@[simp] theorem complete_mem (v : Auth) : (s.complete v).mem = s.mem := rfl
@[simp] theorem complete_phase (v : Auth) : (s.complete v).phase = .idle := rfl
@[simp] theorem complete_transients (v : Auth) : (s.complete v).transients = Transients.cleared := rfl
@[simp] theorem complete_cmd (v : Auth) : (s.complete v).cmd = none := rfl
@[simp] theorem complete_held (v : Auth) : (s.complete v).held = s.held := rfl
@[simp] theorem complete_memBytes (v : Auth) : (s.complete v).memBytes = s.memBytes := rfl
@[simp] theorem complete_memDraw (v : Auth) : (s.complete v).memDraw = s.memDraw := rfl
@[simp] theorem complete_agenda (v : Auth) : (s.complete v).agenda = s.agenda := rfl
@[simp] theorem complete_reply (v : Auth) : (s.complete v).reply = s.reply := rfl

@[simp] theorem raiseError_blk (e : ErrCode) : (s.raiseError e).blk = s.blk := rfl
@[simp] theorem raiseError_regs (e : ErrCode) : (s.raiseError e).regs = s.regs := rfl
@[simp] theorem raiseError_status (e : ErrCode) : (s.raiseError e).status = errorStatus e := rfl
@[simp] theorem raiseError_mem (e : ErrCode) : (s.raiseError e).mem = s.mem := rfl
@[simp] theorem raiseError_phase (e : ErrCode) : (s.raiseError e).phase = .idle := rfl
@[simp] theorem raiseError_transients (e : ErrCode) : (s.raiseError e).transients = Transients.cleared := rfl
@[simp] theorem raiseError_cmd (e : ErrCode) : (s.raiseError e).cmd = none := rfl
@[simp] theorem raiseError_held (e : ErrCode) : (s.raiseError e).held = s.held := rfl
@[simp] theorem raiseError_memBytes (e : ErrCode) : (s.raiseError e).memBytes = s.memBytes := rfl
@[simp] theorem raiseError_memDraw (e : ErrCode) : (s.raiseError e).memDraw = s.memDraw := rfl
@[simp] theorem raiseError_agenda (e : ErrCode) : (s.raiseError e).agenda = s.agenda := rfl
@[simp] theorem raiseError_reply (e : ErrCode) : (s.raiseError e).reply = s.reply := rfl

@[simp] theorem accept_blk (w : Word) : (s.accept w).blk = s.blk := rfl
@[simp] theorem accept_regs (w : Word) : (s.accept w).regs = s.regs := rfl
@[simp] theorem accept_status (w : Word) : (s.accept w).status = busyStatus := rfl
@[simp] theorem accept_mem (w : Word) : (s.accept w).mem = s.mem := rfl
@[simp] theorem accept_phase (w : Word) : (s.accept w).phase = .check := rfl
@[simp] theorem accept_transients (w : Word) : (s.accept w).transients = s.transients := rfl
@[simp] theorem accept_cmd (w : Word) : (s.accept w).cmd = some w := rfl
@[simp] theorem accept_held (w : Word) : (s.accept w).held = s.held := rfl
@[simp] theorem accept_memBytes (w : Word) : (s.accept w).memBytes = s.memBytes := rfl
@[simp] theorem accept_memDraw (w : Word) : (s.accept w).memDraw = s.memDraw := rfl
@[simp] theorem accept_agenda (w : Word) : (s.accept w).agenda = s.agenda := rfl
@[simp] theorem accept_reply (w : Word) : (s.accept w).reply = s.reply := rfl

@[simp] theorem answer_blk (r : HostReply) : (s.answer r).blk = s.blk := rfl
@[simp] theorem answer_regs (r : HostReply) : (s.answer r).regs = s.regs := rfl
@[simp] theorem answer_status (r : HostReply) : (s.answer r).status = s.status := rfl
@[simp] theorem answer_mem (r : HostReply) : (s.answer r).mem = s.mem := rfl
@[simp] theorem answer_phase (r : HostReply) : (s.answer r).phase = s.phase := rfl
@[simp] theorem answer_transients (r : HostReply) : (s.answer r).transients = s.transients := rfl
@[simp] theorem answer_cmd (r : HostReply) : (s.answer r).cmd = s.cmd := rfl
@[simp] theorem answer_held (r : HostReply) : (s.answer r).held = s.held := rfl
@[simp] theorem answer_memBytes (r : HostReply) : (s.answer r).memBytes = s.memBytes := rfl
@[simp] theorem answer_memDraw (r : HostReply) : (s.answer r).memDraw = s.memDraw := rfl
@[simp] theorem answer_agenda (r : HostReply) : (s.answer r).agenda = s.agenda := rfl
@[simp] theorem answer_reply (r : HostReply) : (s.answer r).reply = some r := rfl

@[simp] theorem takeTurn_blk : (s.takeTurn).blk = s.blk := rfl
@[simp] theorem takeTurn_regs : (s.takeTurn).regs = s.regs := rfl
@[simp] theorem takeTurn_status : (s.takeTurn).status = s.status := rfl
@[simp] theorem takeTurn_mem : (s.takeTurn).mem = s.mem := rfl
@[simp] theorem takeTurn_phase : (s.takeTurn).phase = s.phase := rfl
@[simp] theorem takeTurn_transients : (s.takeTurn).transients = s.transients := rfl
@[simp] theorem takeTurn_cmd : (s.takeTurn).cmd = s.cmd := rfl
@[simp] theorem takeTurn_held : (s.takeTurn).held = s.held := rfl
@[simp] theorem takeTurn_memBytes : (s.takeTurn).memBytes = s.memBytes := rfl
@[simp] theorem takeTurn_memDraw : (s.takeTurn).memDraw = s.memDraw := rfl
@[simp] theorem takeTurn_agenda : (s.takeTurn).agenda = s.agenda.tail := rfl
@[simp] theorem takeTurn_reply : (s.takeTurn).reply = none := rfl

@[simp] theorem setB_init (i : BReg) (v : Block) (env : Env) : (s.setB i v).init env = s.init env := rfl
@[simp] theorem memWrite_init (env : Env) (a : Nat) (bs : List Byte) (env' : Env) : (s.memWrite env a bs).init env' = s.init env' := rfl
@[simp] theorem enter_init (p : Phase) (env : Env) : (s.enter p).init env = s.init env := rfl
@[simp] theorem latch_init (f : Transients → Transients) (env : Env) : (s.latch f).init env = s.init env := rfl
@[simp] theorem finish_init (w : Word) (env : Env) : (s.finish w).init env = s.init env := rfl
@[simp] theorem complete_init (v : Auth) (env : Env) : (s.complete v).init env = s.init env := rfl
@[simp] theorem raiseError_init (e : ErrCode) (env : Env) : (s.raiseError e).init env = s.init env := rfl
@[simp] theorem accept_init (w : Word) (env : Env) : (s.accept w).init env = s.init env := rfl
@[simp] theorem answer_init (r : HostReply) (env : Env) : (s.answer r).init env = s.init env := rfl
@[simp] theorem takeTurn_init (env : Env) : (s.takeTurn).init env = s.init env := rfl

end Sys2Proof.Machine
end

