-- ==== Sys2Proof/Laws/Engine.lean ====
section
/-! SUPPORT. What each shared operation of the engine can do, said once (10_state.md R26, R45, R49;
60_exceptions.md R213): the loops over the transients are the pure functions, and a command either takes
its error completion or completes. -/

namespace Sys2Proof.Machine

/-- One pass through the multiplier holds the field product (40_gf128.md R120). -/
@[simp] theorem multiply_product (u v : Block) (t : Transients) :
    (t.multiply u v).product = gf128Mul u v := rfl

/-- A field that absorbing one block keeps is kept by the GHASH loop. -/
theorem hash_keep {α : Type} (f : Transients → α) (hf : ∀ t p, f (Transients.absorb t p) = f t)
    (data : List Byte) (t : Transients) : f (t.hash data) = f t := by
  unfold Transients.hash
  induction pieces data generalizing t with
  | nil => rfl
  | cons p ps ih => rw [List.foldl_cons, ih, hf]

/-- The GHASH loop leaves `ghash_update` in the accumulator (41_ghash.md R140). -/
@[simp] theorem hash_acc (data : List Byte) (t : Transients) :
    (t.hash data).acc = ghashUpdate t.h t.acc data := by
  unfold Transients.hash ghashUpdate
  induction pieces data generalizing t with
  | nil => rfl
  | cons p ps ih => exact ih (t.absorb p)

section
variable (data : List Byte) (t : Transients)
@[simp] theorem hash_key : (t.hash data).key = t.key := hash_keep Transients.key (fun _ _ => rfl) data t
@[simp] theorem hash_iv : (t.hash data).iv = t.iv := hash_keep Transients.iv (fun _ _ => rfl) data t
@[simp] theorem hash_aad : (t.hash data).aad = t.aad := hash_keep Transients.aad (fun _ _ => rfl) data t
@[simp] theorem hash_input : (t.hash data).input = t.input := hash_keep Transients.input (fun _ _ => rfl) data t
@[simp] theorem hash_tagIn : (t.hash data).tagIn = t.tagIn := hash_keep Transients.tagIn (fun _ _ => rfl) data t
@[simp] theorem hash_output : (t.hash data).output = t.output := hash_keep Transients.output (fun _ _ => rfl) data t
@[simp] theorem hash_opA : (t.hash data).opA = t.opA := hash_keep Transients.opA (fun _ _ => rfl) data t
@[simp] theorem hash_opB : (t.hash data).opB = t.opB := hash_keep Transients.opB (fun _ _ => rfl) data t
@[simp] theorem hash_h : (t.hash data).h = t.h := hash_keep Transients.h (fun _ _ => rfl) data t
@[simp] theorem hash_ctr : (t.hash data).ctr = t.ctr := hash_keep Transients.ctr (fun _ _ => rfl) data t
@[simp] theorem hash_keystream : (t.hash data).keystream = t.keystream := hash_keep Transients.keystream (fun _ _ => rfl) data t
@[simp] theorem hash_j0 : (t.hash data).j0 = t.j0 := hash_keep Transients.j0 (fun _ _ => rfl) data t
@[simp] theorem hash_j1 : (t.hash data).j1 = t.j1 := hash_keep Transients.j1 (fun _ _ => rfl) data t
@[simp] theorem hash_lenBlock : (t.hash data).lenBlock = t.lenBlock := hash_keep Transients.lenBlock (fun _ _ => rfl) data t
@[simp] theorem hash_sVal : (t.hash data).sVal = t.sVal := hash_keep Transients.sVal (fun _ _ => rfl) data t
@[simp] theorem hash_tag : (t.hash data).tag = t.tag := hash_keep Transients.tag (fun _ _ => rfl) data t
end

/-- A field that enciphering one piece keeps is kept by the GCTR loop. -/
theorem cryptInput_keep {α : Type} (f : Transients → α) (enc : Block → Block)
    (hf : ∀ t p, f (Transients.encipher enc t p) = f t)
    (hi : ∀ (t : Transients) (c : Block) (o : List Byte), f { t with ctr := c, output := o } = f t)
    (icb : Block) (t : Transients) : f (t.cryptInput enc icb) = f t := by
  have h : ∀ (ps : List (List Byte)) (u : Transients), f (ps.foldl (Transients.encipher enc) u) = f u := by
    intro ps
    induction ps with
    | nil => intro u; rfl
    | cons p ps ih => intro u; rw [List.foldl_cons, ih, hf]
  rw [Transients.cryptInput, h, hi]

/-- The GCTR loop leaves `gctr` of the staged input in the output (42_gctr.md R157). -/
@[simp] theorem cryptInput_output (enc : Block → Block) (icb : Block) (t : Transients) :
    (t.cryptInput enc icb).output = gctr enc icb t.input := by
  have h : ∀ (ps : List (List Byte)) (u : Transients),
      (ps.foldl (Transients.encipher enc) u).output = u.output ++ gctrPieces enc u.ctr ps := by
    intro ps
    induction ps with
    | nil => intro u; simp [gctrPieces]
    | cons p ps ih => intro u; rw [List.foldl_cons, ih]; simp [Transients.encipher, gctrPieces]
  rw [Transients.cryptInput, h]
  simp [gctr]

section
variable (enc : Block → Block) (icb : Block) (t : Transients)
@[simp] theorem cryptInput_key : (t.cryptInput enc icb).key = t.key :=
  cryptInput_keep Transients.key enc (fun _ _ => rfl) (fun _ _ _ => rfl) icb t
@[simp] theorem cryptInput_iv : (t.cryptInput enc icb).iv = t.iv :=
  cryptInput_keep Transients.iv enc (fun _ _ => rfl) (fun _ _ _ => rfl) icb t
@[simp] theorem cryptInput_aad : (t.cryptInput enc icb).aad = t.aad :=
  cryptInput_keep Transients.aad enc (fun _ _ => rfl) (fun _ _ _ => rfl) icb t
@[simp] theorem cryptInput_input : (t.cryptInput enc icb).input = t.input :=
  cryptInput_keep Transients.input enc (fun _ _ => rfl) (fun _ _ _ => rfl) icb t
@[simp] theorem cryptInput_tagIn : (t.cryptInput enc icb).tagIn = t.tagIn :=
  cryptInput_keep Transients.tagIn enc (fun _ _ => rfl) (fun _ _ _ => rfl) icb t
@[simp] theorem cryptInput_opA : (t.cryptInput enc icb).opA = t.opA :=
  cryptInput_keep Transients.opA enc (fun _ _ => rfl) (fun _ _ _ => rfl) icb t
@[simp] theorem cryptInput_opB : (t.cryptInput enc icb).opB = t.opB :=
  cryptInput_keep Transients.opB enc (fun _ _ => rfl) (fun _ _ _ => rfl) icb t
@[simp] theorem cryptInput_unreduced : (t.cryptInput enc icb).unreduced = t.unreduced :=
  cryptInput_keep Transients.unreduced enc (fun _ _ => rfl) (fun _ _ _ => rfl) icb t
@[simp] theorem cryptInput_product : (t.cryptInput enc icb).product = t.product :=
  cryptInput_keep Transients.product enc (fun _ _ => rfl) (fun _ _ _ => rfl) icb t
@[simp] theorem cryptInput_h : (t.cryptInput enc icb).h = t.h :=
  cryptInput_keep Transients.h enc (fun _ _ => rfl) (fun _ _ _ => rfl) icb t
@[simp] theorem cryptInput_acc : (t.cryptInput enc icb).acc = t.acc :=
  cryptInput_keep Transients.acc enc (fun _ _ => rfl) (fun _ _ _ => rfl) icb t
@[simp] theorem cryptInput_padded : (t.cryptInput enc icb).padded = t.padded :=
  cryptInput_keep Transients.padded enc (fun _ _ => rfl) (fun _ _ _ => rfl) icb t
@[simp] theorem cryptInput_j0 : (t.cryptInput enc icb).j0 = t.j0 :=
  cryptInput_keep Transients.j0 enc (fun _ _ => rfl) (fun _ _ _ => rfl) icb t
@[simp] theorem cryptInput_j1 : (t.cryptInput enc icb).j1 = t.j1 :=
  cryptInput_keep Transients.j1 enc (fun _ _ => rfl) (fun _ _ _ => rfl) icb t
@[simp] theorem cryptInput_lenBlock : (t.cryptInput enc icb).lenBlock = t.lenBlock :=
  cryptInput_keep Transients.lenBlock enc (fun _ _ => rfl) (fun _ _ _ => rfl) icb t
@[simp] theorem cryptInput_sVal : (t.cryptInput enc icb).sVal = t.sVal :=
  cryptInput_keep Transients.sVal enc (fun _ _ => rfl) (fun _ _ _ => rfl) icb t
@[simp] theorem cryptInput_tag : (t.cryptInput enc icb).tag = t.tag :=
  cryptInput_keep Transients.tag enc (fun _ _ => rfl) (fun _ _ _ => rfl) icb t
end

/-- `DERIVE_J0` leaves `derive_j0` in `j0` (43_gcm.md R172). -/
@[simp] theorem deriveJ0_j0 (t : Transients) : t.deriveJ0.j0 = deriveJ0 t.h t.iv := by
  unfold Transients.deriveJ0 deriveJ0
  by_cases hiv : t.iv.length = 12
  · simp [hiv]
  · simp [hiv, blockBytes_blockOf]

section
variable (t : Transients)
@[simp] theorem deriveJ0_key : t.deriveJ0.key = t.key := by
  unfold Transients.deriveJ0; split <;> simp
@[simp] theorem deriveJ0_iv : t.deriveJ0.iv = t.iv := by
  unfold Transients.deriveJ0; split <;> simp
@[simp] theorem deriveJ0_aad : t.deriveJ0.aad = t.aad := by
  unfold Transients.deriveJ0; split <;> simp
@[simp] theorem deriveJ0_input : t.deriveJ0.input = t.input := by
  unfold Transients.deriveJ0; split <;> simp
@[simp] theorem deriveJ0_tagIn : t.deriveJ0.tagIn = t.tagIn := by
  unfold Transients.deriveJ0; split <;> simp
@[simp] theorem deriveJ0_output : t.deriveJ0.output = t.output := by
  unfold Transients.deriveJ0; split <;> simp
@[simp] theorem deriveJ0_h : t.deriveJ0.h = t.h := by
  unfold Transients.deriveJ0; split <;> simp
end

/-- `AUTH_TAG` leaves the full tag over the ciphertext in `tag` (43_gcm.md R176, R177). -/
@[simp] theorem authTag_tag (env : Env) (k : KeySize) (ct : List Byte) (t : Transients) :
    (t.authTag env k ct).tag = fullTag (t.cipher env k) t.j0 (ghashS t.h t.aad ct) := by
  simp [Transients.authTag, fullTag, ghashS, Transients.cipher, blockBytes_blockOf]

section
variable (env : Env) (k : KeySize) (ct : List Byte) (t : Transients)
@[simp] theorem authTag_key : (t.authTag env k ct).key = t.key := by simp [Transients.authTag]
@[simp] theorem authTag_iv : (t.authTag env k ct).iv = t.iv := by simp [Transients.authTag]
@[simp] theorem authTag_aad : (t.authTag env k ct).aad = t.aad := by simp [Transients.authTag]
@[simp] theorem authTag_input : (t.authTag env k ct).input = t.input := by simp [Transients.authTag]
@[simp] theorem authTag_tagIn : (t.authTag env k ct).tagIn = t.tagIn := by simp [Transients.authTag]
@[simp] theorem authTag_output : (t.authTag env k ct).output = t.output := by simp [Transients.authTag]
@[simp] theorem authTag_h : (t.authTag env k ct).h = t.h := by simp [Transients.authTag]
@[simp] theorem authTag_j0 : (t.authTag env k ct).j0 = t.j0 := by simp [Transients.authTag]
@[simp] theorem authTag_j1 : (t.authTag env k ct).j1 = t.j1 := by simp [Transients.authTag]
end

/-- A unit-level command: the error completion of its first failing check, or its inputs read, its work
done and completed (10_state.md R26, 60_exceptions.md R213). -/
theorem runUnit_eq (check : Nat → OperandRegs → Option ErrCode) (read act : State → State)
    (s : State) : runUnit check read act s =
      match check s.memBytes s.regs with
      | some e => s.raiseError e
      | none => (act ((read (s.enter .check)).enter .unit)).complete .none := by
  unfold runUnit
  cases h : check s.memBytes s.regs with
  | some e => simp [runPhases, unitTurn, h, State.raiseError, State.finish, State.enter]
  | none => simp [runPhases, unitTurn, h]

/-- A command whose `KS` is legal is the command under that key size; with `KS` = 3 it takes
`ERR_KEYSIZE` (30_encoding.md R91). -/
@[simp] theorem withKeySize_some (k : KeySize) (f : KeySize → State → State) (s : State) :
    s.withKeySize (some k) f = f k s := rfl

@[simp] theorem withKeySize_none (f : KeySize → State → State) (s : State) :
    s.withKeySize none f = s.raiseError .keySize := rfl

/-- The error of an orchestrator command's checks (43_gcm.md R179). -/
theorem runGcm_error {env : Env} {k : KeySize} {check : Nat → OperandRegs → Option ErrCode}
    {tagIn : State → List Byte} {ct : Transients → List Byte} {emit : State → State} {s : State}
    {e : ErrCode} (h : check s.memBytes s.regs = some e) :
    runGcm env k check tagIn ct emit s = s.raiseError e := by
  unfold runGcm
  simp [runPhases, gcmTurn, h, State.raiseError, State.finish, State.enter]

/-- The transients of an orchestrator command when its inputs have been read (43_gcm.md R170). -/
def messageRead (env : Env) (k : KeySize) (tagIn : List Byte) (s : State) : Transients :=
  { s.transients with
    key := s.readRange env (s.regs.keyRange k)
    iv := s.readRange env s.regs.ivRange
    aad := s.readRange env s.regs.aadRange
    input := s.readRange env s.regs.dataRange
    tagIn := tagIn }

/-- The transients from reading the inputs to the end of `PAYLOAD` (43_gcm.md R171 to R174). -/
def payloadDone (env : Env) (k : KeySize) (t : Transients) : Transients :=
  Transients.payload env k (Transients.computeJ1 (Transients.deriveJ0 (Transients.computeH env k t)))

theorem enter_enter (p q : Phase) (s : State) : (s.enter q).enter p = s.enter p := rfl

theorem latch_enter (f : Transients → Transients) (p : Phase) (s : State) :
    (s.enter p).latch f = (s.latch f).enter p := rfl

theorem latch_latch (f g : Transients → Transients) (s : State) :
    (s.latch f).latch g = s.latch (fun t => g (f t)) := rfl

theorem readMessage_enter (env : Env) (k : KeySize) (tagIn : List Byte) (p : Phase) (s : State) :
    readMessage env k tagIn (s.enter p) =
      (s.latch (fun _ => messageRead env k tagIn s)).enter p := rfl

/-- The phases of an orchestrator command whose checks pass, up to `EMIT` (10_state.md R26). -/
theorem runGcm_phases {env : Env} {k : KeySize} {check : Nat → OperandRegs → Option ErrCode}
    {tagIn : State → List Byte} {ct : Transients → List Byte} {emit : State → State} {s : State}
    (h : check s.memBytes s.regs = none) :
    runGcm env k check tagIn ct emit s =
      emit ((s.latch (fun _ =>
        let t := payloadDone env k (messageRead env k (tagIn (s.enter .check)) s)
        Transients.authTag env k (ct t) t)).enter .emit) := by
  unfold runGcm
  simp only [runPhases, gcmTurn, enter_phase, enter_memBytes, enter_regs, h, reduceCtorEq, if_false]
  simp only [readMessage_enter, latch_enter, enter_enter, latch_latch]
  rfl

@[simp] theorem payloadDone_output (env : Env) (k : KeySize) (t : Transients) :
    (payloadDone env k t).output = gcmPayload (env.cipher k t.key) t.iv t.input := by
  simp [payloadDone, Transients.payload, Transients.computeJ1, Transients.computeH, Transients.cipher,
    gcmPayload]

@[simp] theorem payloadDone_input (env : Env) (k : KeySize) (t : Transients) :
    (payloadDone env k t).input = t.input := by
  simp [payloadDone, Transients.payload, Transients.computeJ1, Transients.computeH]

@[simp] theorem payloadDone_tagIn (env : Env) (k : KeySize) (t : Transients) :
    (payloadDone env k t).tagIn = t.tagIn := by
  simp [payloadDone, Transients.payload, Transients.computeJ1, Transients.computeH]

/-- The full tag of `AUTH_TAG` after `PAYLOAD`, over a given ciphertext (43_gcm.md R177). -/
@[simp] theorem authTag_payloadDone (env : Env) (k : KeySize) (ct : List Byte) (t : Transients) :
    (Transients.authTag env k ct (payloadDone env k t)).tag =
      gcmTag (env.cipher k t.key) t.iv t.aad ct := by
  simp [payloadDone, Transients.payload, Transients.computeJ1, Transients.computeH, Transients.cipher,
    gcmTag]

end Sys2Proof.Machine
end

