-- ==== Sys2Proof/Laws/Memory.lean ====
section
/-! SUPPORT. The laws of the buffer memory (20_memory.md R60, R61): a read after a write, and the
canonical form under every operation. -/

namespace Sys2Proof.Machine

variable (init : Nat → Byte) (m : Memory)

@[simp] theorem lookup_nil (a : Nat) : Memory.lookup [] a = none := rfl

theorem lookup_cons (x : Nat) (c : Byte) (a : Nat) :
    Memory.lookup ((x, c) :: m) a = if x = a then some c else Memory.lookup m a := rfl

/-- Setting a byte is seen at its address and nowhere else. -/
theorem lookup_insert (a : Nat) (b : Byte) (x : Nat) :
    (m.insert a b).lookup x = if a = x then some b else m.lookup x := by
  induction m with
  | nil => simp [Memory.insert, lookup_cons]
  | cons e m ih =>
    obtain ⟨y, c⟩ := e
    unfold Memory.insert
    by_cases h1 : a < y
    · simp [h1, lookup_cons]
    · by_cases h2 : a = y
      · subst h2
        by_cases hx : a = x <;> simp [lookup_cons, hx]
      · by_cases hx : a = x
        · subst hx; simp [h1, h2, lookup_cons, ih, Ne.symm h2]
        · simp [h1, h2, hx, lookup_cons, ih]

theorem ascending_cons (x : Nat) (c : Byte) :
    Memory.ascending ((x, c) :: m) = true ↔ (∀ e ∈ m, x < e.1) ∧ Memory.ascending m = true := by
  simp [Memory.ascending]

theorem lookup_none_of_lt {m : Memory} {a : Nat} (h : ∀ e ∈ m, a < e.1) : m.lookup a = none := by
  induction m with
  | nil => rfl
  | cons e m ih =>
    obtain ⟨y, c⟩ := e
    have hy : a < y := h (y, c) (by simp)
    rw [lookup_cons, if_neg (by omega)]
    exact ih (fun e he => h e (by simp [he]))

/-- Removing the entry at an address is seen there and nowhere else. -/
theorem lookup_erase {m : Memory} (hm : m.ascending = true) (a x : Nat) :
    (m.erase a).lookup x = if a = x then none else m.lookup x := by
  induction m with
  | nil => simp [Memory.erase]
  | cons e m ih =>
    obtain ⟨y, c⟩ := e
    rw [ascending_cons] at hm
    unfold Memory.erase
    by_cases h1 : y = a
    · subst h1
      by_cases hx : y = x
      · subst hx; simp [lookup_none_of_lt hm.1]
      · simp [hx, lookup_cons]
    · by_cases hx : a = x
      · subst hx; simp [h1, lookup_cons, ih hm.2]
      · simp [h1, hx, lookup_cons, ih hm.2]

/-- A byte reads as it was written, and every other byte as before (R60). -/
theorem readByte_writeByte {m : Memory} (hm : m.ascending = true) (a : Nat) (b : Byte) (x : Nat) :
    Memory.readByte init (Memory.writeByte init m a b) x =
      if a = x then b else Memory.readByte init m x := by
  unfold Memory.readByte Memory.writeByte
  by_cases hb : b = init a
  · rw [if_pos hb, lookup_erase hm]
    by_cases hx : a = x
    · subst hx; simp [hb]
    · simp [hx]
  · rw [if_neg hb, lookup_insert]
    by_cases hx : a = x <;> simp [hx]

theorem mem_insert {m : Memory} {a : Nat} {b : Byte} {e : Host.Cell} (h : e ∈ m.insert a b) :
    e = (a, b) ∨ e ∈ m := by
  induction m with
  | nil => simpa [Memory.insert] using h
  | cons f m ih =>
    obtain ⟨y, c⟩ := f
    unfold Memory.insert at h
    split at h
    · simpa using h
    · split at h
      · rcases List.mem_cons.1 h with h | h
        · exact .inl h
        · exact .inr (by simp [h])
      · rcases List.mem_cons.1 h with h | h
        · exact .inr (by simp [h])
        · rcases ih h with h | h
          · exact .inl h
          · exact .inr (by simp [h])

theorem mem_erase {m : Memory} {a : Nat} {e : Host.Cell} (h : e ∈ m.erase a) : e ∈ m := by
  induction m with
  | nil => simp [Memory.erase] at h
  | cons f m ih =>
    obtain ⟨y, c⟩ := f
    unfold Memory.erase at h
    split at h
    · simp [h]
    · rcases List.mem_cons.1 h with h | h
      · simp [h]
      · simp [ih h]

theorem ascending_insert {m : Memory} (hm : m.ascending = true) (a : Nat) (b : Byte) :
    (m.insert a b).ascending = true := by
  induction m with
  | nil => simp [Memory.insert, Memory.ascending]
  | cons f m ih =>
    obtain ⟨y, c⟩ := f
    have h := (ascending_cons m y c).1 hm
    unfold Memory.insert
    split
    · rename_i hay
      rw [ascending_cons]
      refine ⟨fun e he => ?_, hm⟩
      rcases List.mem_cons.1 he with he | he
      · subst he; exact hay
      · have := h.1 e he; omega
    · split
      · rename_i _ hay
        subst hay
        exact (ascending_cons m a b).2 h
      · rename_i h1 h2
        rw [ascending_cons]
        refine ⟨fun e he => ?_, ih h.2⟩
        rcases mem_insert he with he | he
        · subst he; simp only; omega
        · exact h.1 e he

theorem ascending_erase {m : Memory} (hm : m.ascending = true) (a : Nat) :
    (m.erase a).ascending = true := by
  induction m with
  | nil => rfl
  | cons f m ih =>
    obtain ⟨y, c⟩ := f
    have h := (ascending_cons m y c).1 hm
    unfold Memory.erase
    split
    · exact h.2
    · exact (ascending_cons _ y c).2 ⟨fun e he => h.1 e (mem_erase he), ih h.2⟩

theorem ascending_writeByte {m : Memory} (hm : m.ascending = true) (a : Nat) (b : Byte) :
    (Memory.writeByte init m a b).ascending = true := by
  unfold Memory.writeByte
  split
  · exact ascending_erase hm a
  · exact ascending_insert hm a b

theorem wf_iff (size : Nat) : Memory.wf init size m = true ↔
    m.ascending = true ∧ ∀ e ∈ m, e.1 < size ∧ e.2 ≠ init e.1 := by
  simp [Memory.wf]

theorem wf_ascending {init : Nat → Byte} {m : Memory} {size : Nat} (h : Memory.wf init size m = true) :
    m.ascending = true := ((wf_iff init m size).1 h).1

@[simp] theorem wf_nil (size : Nat) : Memory.wf init size [] = true := rfl

/-- A byte written below `size` keeps the canonical form. -/
theorem wf_writeByte {m : Memory} {size a : Nat} (hm : Memory.wf init size m = true) (ha : a < size)
    (b : Byte) : Memory.wf init size (Memory.writeByte init m a b) = true := by
  rw [wf_iff] at hm ⊢
  refine ⟨ascending_writeByte init hm.1 a b, fun e he => ?_⟩
  unfold Memory.writeByte at he
  split at he
  · exact hm.2 e (mem_erase he)
  · rename_i hb
    rcases mem_insert he with he | he
    · subst he; exact ⟨ha, hb⟩
    · exact hm.2 e he

theorem ascending_writeBytes {m : Memory} (hm : m.ascending = true) (a : Nat) (bs : List Byte) :
    (Memory.writeBytes init m a bs).ascending = true := by
  induction bs generalizing m a with
  | nil => exact hm
  | cons b bs ih => exact ih (ascending_writeByte init hm a b) (a + 1)

/-- A string written below `size` keeps the canonical form. -/
theorem wf_writeBytes {m : Memory} {size a : Nat} {bs : List Byte}
    (hm : Memory.wf init size m = true) (ha : a + bs.length ≤ size) :
    Memory.wf init size (Memory.writeBytes init m a bs) = true := by
  induction bs generalizing m a with
  | nil => exact hm
  | cons b bs ih =>
    simp only [List.length_cons] at ha
    exact ih (wf_writeByte init hm (by omega) b) (by omega)

/-- What a byte reads as after a string is written (R61): the string's byte inside its range, the old
byte outside. -/
theorem readByte_writeBytes {m : Memory} (hm : m.ascending = true) (a : Nat) (bs : List Byte)
    (x : Nat) : Memory.readByte init (Memory.writeBytes init m a bs) x =
      if a ≤ x ∧ x < a + bs.length then bs.getD (x - a) 0 else Memory.readByte init m x := by
  induction bs generalizing m a with
  | nil => rw [if_neg (by simp only [List.length_nil]; omega)]; rfl
  | cons b bs ih =>
    rw [Memory.writeBytes, ih (ascending_writeByte init hm a b), readByte_writeByte init hm]
    simp only [List.length_cons]
    by_cases h1 : a + 1 ≤ x ∧ x < a + 1 + bs.length
    · rw [if_pos h1, if_pos (by omega)]
      obtain ⟨k, hk⟩ : ∃ k, x = a + 1 + k := ⟨x - (a + 1), by omega⟩
      subst hk
      simp [show a + 1 + k - a = k + 1 by omega]
    · rw [if_neg h1]
      by_cases h2 : a = x
      · subst h2; rw [if_pos rfl, if_pos (by omega)]; simp
      · rw [if_neg h2, if_neg (by omega)]

@[simp] theorem length_readBytes (a n : Nat) : (Memory.readBytes init m a n).length = n := by
  simp [Memory.readBytes]

@[simp] theorem readBytes_zero (a : Nat) : Memory.readBytes init m a 0 = [] := rfl

theorem getElem_readBytes {a n i : Nat} (h : i < (Memory.readBytes init m a n).length) :
    (Memory.readBytes init m a n)[i] = Memory.readByte init m (a + i) := by
  simp [Memory.readBytes]

/-- A string that was written reads back whole (R61). -/
theorem readBytes_writeBytes {m : Memory} (hm : m.ascending = true) (a : Nat) (bs : List Byte) :
    Memory.readBytes init (Memory.writeBytes init m a bs) a bs.length = bs := by
  apply List.ext_getElem (by simp)
  intro i h1 h2
  rw [getElem_readBytes, readByte_writeBytes init hm, if_pos (by omega)]
  simp [h2]

/-- A range that a write does not touch reads as before. -/
theorem readBytes_writeBytes_disjoint {m : Memory} (hm : m.ascending = true) (a : Nat)
    (bs : List Byte) (x n : Nat) (h : x + n ≤ a ∨ a + bs.length ≤ x) :
    Memory.readBytes init (Memory.writeBytes init m a bs) x n = Memory.readBytes init m x n := by
  apply List.ext_getElem (by simp)
  intro i h1 h2
  simp only [length_readBytes] at h1
  rw [getElem_readBytes, getElem_readBytes, readByte_writeBytes init hm, if_neg (by omega)]

end Sys2Proof.Machine
end

