-- ==== Sys2Proof/Laws/PerInstr.lean ====
section
/-! SUPPORT. One statement about each instruction as syntax: its word fits its own row of the opcode map
(30_encoding.md R93). -/

namespace Sys2Proof.Laws.EncodeFits

/-- The word of a command has the command's `OPC` and fits a row of the opcode map with that `OPC`. -/
def Statement (i : Instr) : Prop :=
  opcField (encode i) = i.opc ∧ ∃ r ∈ opcodeRows, r.opc = i.opc ∧ r.fits (encode i) = true

theorem gfmul (bd ba bb : BReg) : Statement (.gfmul bd ba bb) := by
  revert bd ba bb; unfold Statement; decide +kernel

theorem inc32 (bd ba : BReg) : Statement (.inc32 bd ba) := by
  revert bd ba; unfold Statement; decide +kernel

theorem ldb (bd : BReg) : Statement (.ldb bd) := by
  revert bd; unfold Statement; decide +kernel

theorem stb (ba : BReg) : Statement (.stb ba) := by
  revert ba; unfold Statement; decide +kernel

theorem hkey (ks : Option KeySize) : Statement (.hkey ks) := by
  unfold Statement; rcases ks with _ | _ | _ | _ <;> decide +kernel

theorem ghash : Statement .ghash := by unfold Statement; decide +kernel

theorem gctr (ks : Option KeySize) : Statement (.gctr ks) := by
  unfold Statement; rcases ks with _ | _ | _ | _ <;> decide +kernel

theorem encrypt (ks : Option KeySize) (tlen : BitVec 5) : Statement (.encrypt ks tlen) := by
  revert tlen; unfold Statement; rcases ks with _ | _ | _ | _ <;> decide +kernel

theorem decrypt (ks : Option KeySize) (tlen : BitVec 5) : Statement (.decrypt ks tlen) := by
  revert tlen; unfold Statement; rcases ks with _ | _ | _ | _ <;> decide +kernel

end Sys2Proof.Laws.EncodeFits
end

