-- ==== Sys2Proof/Laws/Step.lean ====
section
/-! SUPPORT. What one step does, said once for each way the turn can fall (10_state.md R48, R49;
70_reset_and_hazards.md R240), and what each check of the operands can answer (60_exceptions.md R213). -/

namespace Sys2Proof.Machine

variable {s : State} {t : HostTxn}

/-- The reset input goes before all else. -/
theorem step_reset {es : List Event} (h : s.agenda = .reset :: es) :
    step s = .next s.takeTurn.resetEvent := by
  simp only [step, h]

/-- While the engine is busy a transaction is issued: answered if it reads `STATUS`, else held. -/
theorem step_host_busy {es : List Event} (h : s.agenda = .host t :: es)
    (hb : statusBusy s.status = true) : step s = .next (s.takeTurn.issueBusy t) := by
  simp only [step, h, hb, if_true]

/-- An idle core performs the oldest held transaction first. -/
theorem step_held {u : HostTxn} {us : List HostTxn} (hr : s.agenda.head? ≠ some .reset)
    (hb : statusBusy s.status = false) (hh : s.held = u :: us) :
    step s = State.perform Config.env u { s with held := us, reply := none } := by
  unfold step
  cases ha : s.agenda with
  | nil => simp [hb, hh]
  | cons e es =>
    cases e with
    | reset => simp [ha] at hr
    | host t => simp [hb, hh]
    | engine => simp [hb, hh]

/-- An idle core that holds nothing performs what the host issues. -/
theorem step_host_idle {es : List Event} (h : s.agenda = .host t :: es)
    (hb : statusBusy s.status = false) (hh : s.held = []) :
    step s = s.takeTurn.perform Config.env t := by
  simp [step, h, hb, hh]

/-- The engine's turn. -/
theorem step_engine (h : s.engineTurn) : step s = engineStep s.takeTurn := by
  obtain ⟨hb, ha⟩ := h
  unfold step
  cases hs : s.agenda with
  | nil => simp [hb]
  | cons e es =>
    have he : e = .engine := by simpa [hs] using ha
    subst he
    simp [hb]

/-- An idle core with nothing to do waits. -/
theorem step_idle (hb : statusBusy s.status = false) (hh : s.held = [])
    (ha : s.agenda = [] ∨ s.agenda.head? = some .engine) : step s = .next s.takeTurn := by
  unfold step
  cases hs : s.agenda with
  | nil => simp [hb, hh]
  | cons e es =>
    have he : e = .engine := by simpa [hs] using ha
    subst he
    simp [hb, hh]

/-- The engine runs the command it decodes, and completes an illegal word with `ERR_ILLEGAL_CMD`. -/
theorem engineStep_some {w : Word} (h : s.cmd = some w) : engineStep s =
    match decodeWord w with
    | .illegal _ => .next (s.raiseError .illegalCmd)
    | .command i => exec i s := by
  cases hd : decodeWord w <;> simp [engineStep, h, hd]

/-- The first failing check of R213, orders 3 to 6. -/
theorem checkOperands_eq (ivBad tagBad : Bool) (size : Nat) (f : Footprint) :
    checkOperands ivBad tagBad size f =
      if ivBad then some .ivLen
      else if tagBad then some .tagLen
      else if rangeBad size f then some .range
      else if overlapBad f then some .overlap
      else none := rfl

theorem rangeFits_iff (size : Nat) (r : Range) :
    rangeFits size r = true ↔ r.len = 0 ∨ r.base + r.len ≤ size := by
  simp [rangeFits]

theorem rangesOverlap_iff (r q : Range) : rangesOverlap r q = true ↔
    0 < r.len ∧ 0 < q.len ∧ r.base < q.base + q.len ∧ q.base < r.base + r.len := by
  simp [rangesOverlap, and_assoc]

/-- A transaction that the map and `MEM` have a place for proceeds (10_state.md R48, R50). -/
theorem findReg_ok_iff (off : Nat) (r : HostReg) :
    findReg off = .ok r ↔ off % 4 = 0 ∧ hostReg off = some r := by
  unfold findReg
  by_cases h : off % 4 = 0
  · cases hr : hostReg off <;> simp [h]
  · simp [h]

theorem checkTransfer_ok_iff (size addr n : Nat) :
    checkTransfer size addr n = .ok () ↔ 0 < n ∧ addr + n ≤ size := by
  unfold checkTransfer
  by_cases h : n = 0
  · simp [h]
  · by_cases h2 : size < addr + n
    · simp [h, h2]
    · simp [h, h2]; omega

/-- A run of several steps takes the first and goes on. -/
theorem run_succ {n : Nat} {s u : State} (h : step s = .next u) :
    Host.Core.run Sys2Proof.core (n + 1) s = Host.Core.run Sys2Proof.core n u := by
  simp only [Host.Core.run, Sys2Proof.core, h]

/-- A run of one step is the step. -/
theorem run_one (s : State) : Host.Core.run Sys2Proof.core 1 s = step s := by
  cases h : step s <;> simp only [Host.Core.run, Sys2Proof.core, h]

end Sys2Proof.Machine
end

