-- ==== Sys2Proof/Tests/Slice0.lean ====
section
/-! SUPPORT. The model's own tests: checks of well-formedness, words written out from 30_encoding.md
section 2, one small run of each command on the values of 95_test_vectors.md, and for each statement with
hypotheses a state and operands that meet them. -/

namespace Sys2Proof.Tests

open Sys2Proof.Machine

/-! ### Fields (30_encoding.md R91, R92, R96) -/

theorem test_wf_refuses_key_size_3 :
    Instr.wellFormed (.hkey none) = false ∧ Instr.wellFormed (.gctr none) = false ∧
    Instr.wellFormed (.encrypt none 16) = false ∧ Instr.wellFormed (.decrypt none 16) = false := by
  decide

theorem test_wf_refuses_tag_lengths :
    Instr.wellFormed (.encrypt (some .k128) 5) = false ∧
    Instr.wellFormed (.encrypt (some .k128) 17) = false ∧
    Instr.wellFormed (.decrypt (some .k256) 0) = false ∧
    Instr.wellFormed (.decrypt (some .k256) 3) = false := by decide

theorem test_wf_accepts : Instr.wellFormed (.encrypt (some .k192) 13) = true ∧
    Instr.wellFormed (.decrypt (some .k256) 4) = true ∧ Instr.wellFormed .ghash = true ∧
    Instr.wellFormed (.gfmul 7 7 7) = true := by decide

/-! ### Words, `OPC` `BD` `BA` `BB` `TLEN` `KS` `ZERO` written bit by bit (R90, R93) -/

theorem test_decode_gfmul : decodeWord 0b00000001_101_011_100_00000_00_00000000#32 =
    .command (.gfmul 5 3 4) := by decide

theorem test_decode_inc32 : decodeWord 0b00000010_010_011_000_00000_00_00000000#32 =
    .command (.inc32 2 3) := by decide

theorem test_decode_ldb : decodeWord 0b00000011_011_000_000_00000_00_00000000#32 =
    .command (.ldb 3) := by decide

theorem test_decode_stb : decodeWord 0b00000100_000_101_000_00000_00_00000000#32 =
    .command (.stb 5) := by decide

theorem test_decode_hkey : decodeWord 0b00001000_000_000_000_00000_10_00000000#32 =
    .command (.hkey (some .k256)) := by decide

theorem test_decode_ghash : decodeWord 0b00001001_000_000_000_00000_00_00000000#32 =
    .command .ghash := by decide

theorem test_decode_gctr : decodeWord 0b00001010_000_000_000_00000_01_00000000#32 =
    .command (.gctr (some .k192)) := by decide

theorem test_decode_encrypt : decodeWord 0b00010000_000_000_000_01100_00_00000000#32 =
    .command (.encrypt (some .k128) 12) := by decide

theorem test_decode_decrypt : decodeWord 0b00010001_000_000_000_01101_10_00000000#32 =
    .command (.decrypt (some .k256) 13) := by decide

/-- The examples of R95: no command's `OPC`, and a bit set in `ZERO`, `TLEN` or `KS`. -/
theorem test_decode_illegal : decodeWord 0x00000000 = .illegal (.unknownOpcode 0x00) ∧
    decodeWord 0x09000001 = .illegal (.unusedFieldSet 0x09) ∧
    decodeWord 0x03600400 = .illegal (.unusedFieldSet 0x03) ∧
    decodeWord 0x02000100 = .illegal (.unusedFieldSet 0x02) := by decide

/-- The examples of R96 are words of their commands. -/
theorem test_decode_bad_fields : decodeWord 0x08000300 = .command (.hkey none) ∧
    decodeWord 0x10001400 = .command (.encrypt (some .k128) 5) := by decide

theorem test_table_word : decodeTableWord 32 0x11004000 = some (.decrypt (some .k128) 16) ∧
    decodeTableWord 8 0x00 = none ∧ decodeTableWord 40 0x09000000 = none := by decide

theorem test_asm : Instr.asm (.encrypt (some .k256) 16) = "ENCRYPT 256, 16" ∧
    Instr.asm (.gfmul 5 3 4) = "GFMUL B5, B3, B4" := by decide +kernel

/-! ### The commands, on the values of 95_test_vectors.md -/

/-- `E` under the key of 16 zero bytes at the blocks these tests use (95_test_vectors.md section 0). -/
def zeroKeyTable : List (Block × Block) :=
  [ (0x0, 0x66e94bd4ef8a2c3b884cfa59ca342b2e), (0x1, 0x58e2fccefa7e3061367f1d57a4e7455a),
    (0x2, 0x0388dace60b6a392f328c2b971b2fe78), (0x3, 0xf795aaab494b5923f7fd89ff948bc1e0) ]

/-- The finite cipher of these tests; every byte of `MEM` reads 0xa5 after reset. -/
def testEnv : Env :=
  { cipher := fun k key b =>
      if k = .k128 ∧ key = zeroBytes 16 then (zeroKeyTable.lookup b).getD 0 else 0
    memInit := fun _ _ => 0xa5 }

/-- The block `C` of 95_test_vectors.md section 2. -/
def blockC : Block := 0x0388dace60b6a392f328c2b971b2fe78

/-- The block `H` of 95_test_vectors.md section 2. -/
def blockH : Block := 0x66e94bd4ef8a2c3b884cfa59ca342b2e

/-- After reset with some operand registers set. -/
def withRegs (src dst len : Word) : State :=
  { State.reset with regs := { OperandRegs.reset with srcAddr := src, dstAddr := dst, len := len } }

/-- V-GFC-1. -/
theorem test_gfmul :
    let s := gfmulCommand 5 3 4 ((State.reset.setB 3 blockC).setB 4 blockH)
    s.getB 5 = 0x5e2ec746917062882c85b0685353deb7 ∧ s.getB 3 = blockC ∧ s.status = 0x00000002 := by
  decide +kernel

/-- V-GFC-2: the destination is both sources. -/
theorem test_gfmul_square : (gfmulCommand 3 3 3 (State.reset.setB 3 blockC)).getB 3 =
    0xd4d31a717bc65cde99d7e2b24c09e73d := by decide +kernel

/-- The datapath on V-GF-9. -/
theorem test_datapath : gf128Datapath blockC blockH = 0x5e2ec746917062882c85b0685353deb7 := by
  decide +kernel

/-- V-INCC-1. -/
theorem test_inc32 :
    let s := inc32Command 2 3 (State.reset.setB 3 0xcafebabefacedbaddecaf88800000001)
    s.getB regCB = 0xcafebabefacedbaddecaf88800000002 ∧
      s.getB 3 = 0xcafebabefacedbaddecaf88800000001 := by decide +kernel

/-- V-INC-7: no carry into byte 11. -/
theorem test_inc32_wraps :
    (inc32Command 2 2 (State.reset.setB 2 0xffffffffff)).getB 2 = 0xff00000000 := by decide +kernel

/-- V-MOV-2: an odd address. -/
theorem test_ldb :
    let s := (withRegs 0xff 0 0).memWrite testEnv 0xff (0x11#8 :: blockBytes blockH)
    (ldbCommand testEnv 7 s).getB 7 = 0x1166e94bd4ef8a2c3b884cfa59ca342b := by decide +kernel

/-- LDB of a block that ends one byte beyond `MEM` (60_exceptions.md R212). -/
theorem test_ldb_range : (ldbCommand testEnv 7 (withRegs 0xfff1 0 0)).status = 0x00000506 ∧
    (ldbCommand testEnv 7 (withRegs 0xfff0 0 0)).status = 0x00000002 := by decide +kernel

/-- V-MOV-3. -/
theorem test_stb :
    let s := stbCommand testEnv 1
      ((withRegs 0 0x201 0).setB 1 0x5e2ec746917062882c85b0685353deb7)
    s.readByte testEnv 0x201 = 0x5e ∧ s.readByte testEnv 0x210 = 0xb7 ∧
      s.readByte testEnv 0x200 = 0xa5 ∧ s.readByte testEnv 0x211 = 0xa5 := by decide +kernel

/-- V-H-1. -/
theorem test_hkey :
    (hkeyCommand testEnv (some .k128) (State.reset.memWrite testEnv 0 (zeroBytes 16))).getB regH =
      blockH := by decide +kernel

theorem test_hkey_size_3 : (hkeyCommand testEnv none State.reset).status = 0x00000206 := by decide

/-- V-GHC-2: five bytes, padded with zeros and not with what stands after them. -/
theorem test_ghash :
    let s := ((withRegs 0x101 0 5).setB regH blockH).memWrite testEnv 0x101
      [0x01, 0x02, 0x03, 0x04, 0x05, 0xee, 0xee]
    (ghashCommand testEnv s).getB regY = 0x4f38d7d04adc967f89e4051319dbb8d2 := by decide +kernel

/-- The 8-byte IV of 43_gcm.md R172 takes the GHASH path. -/
theorem test_derive_j0 : deriveJ0 0xb83b533708bf535d0aa6e52980d53b78
    [0xca, 0xfe, 0xba, 0xbe, 0xfa, 0xce, 0xdb, 0xad] = 0xc43a83c4c4badec4354ca984db252f7d := by
  decide +kernel

/-- V-GHC-4: no data. -/
theorem test_ghash_empty :
    (ghashCommand testEnv (((withRegs 0xffffffff 0 0).setB regH blockH).setB regY blockC)).getB regY =
      blockC := by decide +kernel

/-- V-GCTRC-1 with `LEN` = 17: whole blocks and one byte. -/
theorem test_gctr :
    let s := (((withRegs 0x103 0x205 17).setB regCB 2).memWrite testEnv 0 (zeroBytes 16)).memWrite
      testEnv 0x103 ((List.range 20).map (BitVec.ofNat 8))
    let t := gctrCommand testEnv (some .k128) s
    t.memRead testEnv 0x204 19 = [0xa5, 0x03, 0x89, 0xd8, 0xcd, 0x64, 0xb3, 0xa5, 0x95, 0xfb, 0x21,
      0xc8, 0xb2, 0x7d, 0xbf, 0xf0, 0x77, 0xe7, 0xa5] ∧ t.getB regCB = 2 := by decide +kernel

/-- V-ERR-31: out overlaps data and does not begin with it. -/
theorem test_gctr_overlap :
    (gctrCommand testEnv (some .k128) (withRegs 0x100 0x101 0x14)).status = 0x00000606 := by decide

/-- Key at 0x0000, IV of 12 zero bytes at 0x20, data at 0x100, out at 0x200, tag at 0x300. -/
def messageRegs (len : Word) : OperandRegs :=
  { keyAddr := 0, ivAddr := 0x20, ivLen := 12, aadAddr := 0x40, aadLen := 0, srcAddr := 0x100,
    dstAddr := 0x200, len := len, tagAddr := 0x300 }

/-- The message of V-GCM-12 with given data and tag in place. -/
def messageState (data tag : List Byte) : State :=
  let s := { State.reset with regs := messageRegs 5 }
  let s := (s.memWrite testEnv 0 (zeroBytes 16)).memWrite testEnv 0x20 (zeroBytes 12)
  (s.memWrite testEnv 0x100 data).memWrite testEnv 0x300 tag

/-- The ciphertext and the tag of V-GCM-12. -/
def cipherText : List Byte := [0x02, 0x8a, 0xd9, 0xca, 0x65]

/-- The tag of V-GCM-12, 12 bytes. -/
def tagBytes : List Byte := [0x2d, 0x52, 0x34, 0xed, 0x35, 0x76, 0x25, 0x64, 0xf9, 0xfc, 0xc5, 0x8a]

/-- V-GCM-12: the tag is cut to 12 bytes and the byte after it stands. -/
theorem test_encrypt :
    let s := encryptCommand testEnv (some .k128) 12 (messageState [0x01, 0x02, 0x03, 0x04, 0x05] [])
    s.memRead testEnv 0x200 5 = cipherText ∧ s.memRead testEnv 0x300 13 = tagBytes ++ [0xa5] ∧
      s.status = 0x00000002 := by decide +kernel

/-- V-ERR-34 in small: the tag range begins on the last byte of out. -/
theorem test_encrypt_overlap :
    (encryptCommand testEnv (some .k128) 16
      { State.reset with regs := { messageRegs 0x20 with tagAddr := 0x21f } }).status =
        0x00000606 := by decide

/-- V-GCM-12 decrypted with its tag. -/
theorem test_decrypt_authentic :
    let s := decryptCommand testEnv (some .k128) 12 (messageState cipherText tagBytes)
    s.memRead testEnv 0x200 6 = [0x01, 0x02, 0x03, 0x04, 0x05, 0xa5] ∧ s.status = 0x00000012 := by
  decide +kernel

/-- V-GCM-12 decrypted with one bit of its last tag byte flipped. -/
theorem test_decrypt_forged :
    let s := decryptCommand testEnv (some .k128) 12 (messageState cipherText (tagBytes.set 11 0x8b))
    s.memRead testEnv 0x200 6 = [0, 0, 0, 0, 0, 0xa5] ∧ s.status = 0x00000022 := by decide +kernel

/-! ### Host port and reset -/

/-- V-HOST-5: what has no meaning is refused by name. -/
theorem test_host_refused :
    findReg 0x2c = .error (.unmappedRegister 0x2c) ∧ findReg 0x06 = .error (.misalignedRegister 6) ∧
    findReg 0xfc = .ok (.blockWord 7 3) ∧ findReg 0x28 = .ok (.operand .tagAddr) ∧
    findReg 0x0c = .ok (.operand .ivAddr) ∧ findReg 0x18 = .ok (.operand .aadLen) ∧
    checkTransfer 65536 0xffff 2 = .error (.beyondMemory 0xffff 2) ∧
    checkTransfer 65536 0xffff 1 = .ok () := by decide

/-- V-HOST-2: the four writes of `WRB`. -/
theorem test_host_block_words :
    let s := (((State.reset.writeReg (.blockWord 1 0) 0x66e94bd4).writeReg (.blockWord 1 1)
      0xef8a2c3b).writeReg (.blockWord 1 2) 0x884cfa59).writeReg (.blockWord 1 3) 0xca342b2e
    s.getB regY = blockH ∧
      wrb 1 blockH = [.regWrite 0x90 0x66e94bd4, .regWrite 0x94 0xef8a2c3b,
        .regWrite 0x98 0x884cfa59, .regWrite 0x9c 0xca342b2e] := by decide +kernel

/-- Where a run of some steps ends, if it goes on. -/
def ranTo (n : Nat) (s : State) : Option State :=
  match Host.Core.run Sys2Proof.core n s with
  | .next t => some t
  | .fault _ => none
  | .refused _ => none

/-- A command issued by the host, polled while it runs, and complete after the engine's turn (R49). -/
theorem test_host_command :
    let s := { State.reset with
      agenda := [.host (issueCommand 0x024c0000), .host (.regRead 0x04), .engine] }
    (ranTo 2 s).map (fun t => (t.reply, t.phase)) = some (some (.word 0x00000001), .check) ∧
    (ranTo 3 s).map (fun t => (t.getB regCB, t.status, t.phase)) = some (1, 0x00000002, .idle) := by
  decide +kernel

/-- A transaction held while the engine is busy proceeds after completion (R49). -/
theorem test_held_transaction :
    let s := { State.reset.accept 0x024c0000 with agenda := [.host (.regRead 0xac), .engine] }
    (ranTo 2 s).map (fun t => (t.reply, t.held)) = some (none, [.regRead 0xac]) ∧
    (ranTo 3 s).map (fun t => (t.reply, t.held)) = some (some (.word 0x00000001), []) := by
  decide +kernel

/-- A step from `withFetchWord` runs the word's command. -/
theorem test_fetch_word :
    (ranTo 1 (State.reset.withFetchWord 32 0x024c0000)).map (fun t => t.getB regCB) = some 1 ∧
    (ranTo 1 (State.reset.withFetchWord 32 0)).map (fun t => t.status) = some 0x00000106 := by
  decide +kernel

/-! ### States and operands that meet the hypotheses of the statements -/

/-- After reset, the host about to issue a transaction. -/
def issuing (t : HostTxn) : State := { State.reset with agenda := [.host t] }

/-- After reset and the acceptance of a word, with moves to come. -/
def running (w : Word) (es : List Event) : State := { State.reset.accept w with agenda := es }

/-- After reset, with operand registers set. -/
def withOperands (r : OperandRegs) : State := { State.reset with regs := r }

theorem issuing_inv (t : HostTxn) : (issuing t).Inv :=
  ⟨by show Config.legalMemBytes 65536; decide, rfl, by show (0 : Word) ∈ statusValues; decide,
    fun h => absurd (show statusBusy (0 : Word) = true from h) (by decide), fun _ => ⟨rfl, rfl⟩, rfl⟩

theorem running_inv (w : Word) (es : List Event) : (running w es).Inv :=
  ⟨by show Config.legalMemBytes 65536; decide, rfl, by show busyStatus ∈ statusValues; decide,
    fun _ => ⟨rfl, rfl⟩, fun h => absurd (show statusBusy busyStatus = false from h) (by decide), rfl⟩

theorem withOperands_inv (r : OperandRegs) : (withOperands r).Inv :=
  ⟨by show Config.legalMemBytes 65536; decide, rfl, by show (0 : Word) ∈ statusValues; decide,
    fun h => absurd (show statusBusy (0 : Word) = true from h) (by decide), fun _ => ⟨rfl, rfl⟩, rfl⟩

theorem issuing_turn (t : HostTxn) : (issuing t).hostTurn t :=
  ⟨show statusBusy (0 : Word) = false by decide, rfl, rfl⟩

theorem running_turn (w : Word) (es : List Event) : (running w (.engine :: es)).engineTurn :=
  ⟨show statusBusy busyStatus = true by decide, .inr rfl⟩

theorem test_witness_EncodeDecodeRoundTrip :
    decodeWord 0x11007f00 = .command (.decrypt none 31) ∧
    decodeWord 0x01ff8000 = .command (.gfmul 7 7 7) := by decide

theorem test_witness_OpcodeMapIsExclusive :
    ∃ r ∈ opcodeRows, r.fits 0x09000000 = true ∧ r.mnemonic = "GHASH" := by decide

theorem test_witness_IllegalWordsRaiseError :
    (opcField 0x12000000 ∉ ([0x01, 0x02, 0x03, 0x04, 0x08, 0x09, 0x0a, 0x10, 0x11] : List Byte)) ∧
    (∃ r ∈ opcodeRows, r.opc = opcField 0x09000001 ∧ 0x09000001 &&& r.mask ≠ r.mtch) ∧
    (running 0 [.engine]).engineTurn ∧ (running 0 [.engine]).cmd = some 0 ∧
    decodeWord 0 = .illegal (.unknownOpcode 0) :=
  ⟨by decide, by decide, running_turn 0 [], rfl, by decide⟩

theorem test_witness_StatusWordFields :
    (16 : Nat) ≤ 16 ∧ (statusWord true true true .forged 0xff).getLsbD 16 = false := by decide

theorem test_witness_ResetEventGivesResetState :
    (running 0x09000000 [.reset]).agenda.head? = some .reset := rfl

theorem test_witness_StepKeepsInvariant : (running 0x02480000 [.engine]).Inv ∧
    step (running 0x02480000 [.engine]) = .next (inc32Command 2 2 (running 0x02480000 [])) :=
  ⟨running_inv _ _, rfl⟩

theorem test_witness_StepNeverFaultsUnderInvariant :
    (running 0x02480000 [.engine]).Inv ∧ (running 0x02480000 [.engine]).engineTurn :=
  ⟨running_inv _ _, running_turn _ _⟩

theorem test_witness_EngineStepRunsDecodedCommand :
    (running 0x02480000 [.engine]).engineTurn ∧ (running 0x02480000 [.engine]).cmd = some 0x02480000 ∧
    decodeWord 0x02480000 = .command (.inc32 2 2) := ⟨running_turn _ _, rfl, by decide⟩

theorem test_witness_CommandRegisterAccess :
    (issuing (.regWrite 0x00 0x09000000)).hostTurn (.regWrite 0x00 0x09000000) ∧
    (issuing (.regRead 0x00)).hostTurn (.regRead 0x00) := ⟨issuing_turn _, issuing_turn _⟩

theorem test_witness_BusyTransactionsAreHeld :
    (running 0x09000000 [.host (.regRead 0x04)]).Inv ∧
    statusBusy (running 0x09000000 [.host (.regRead 0x04)]).status = true ∧
    (running 0x09000000 [.host (.regRead 0x04)]).agenda.head? = some (.host (.regRead 0x04)) ∧
    (running 0x09000000 [.host (.memRead 0 1)]).agenda.head? = some (.host (.memRead 0 1)) ∧
    HostTxn.memRead 0 1 ≠ .regRead 0x04 := ⟨running_inv _ _, rfl, rfl, rfl, by decide⟩

theorem test_witness_HeldTransactionEqualsPolled :
    (running 0x09000000 []).Inv ∧ statusBusy (running 0x09000000 []).status = true ∧
    (running 0x09000000 []).held = [] ∧ HostTxn.regRead 0x90 ≠ .regRead 0x04 ∧
    ([] : List Event).head? ≠ some .reset := ⟨running_inv _ _, rfl, rfl, by decide, by decide⟩

theorem test_witness_BusyEngineCompletes :
    let hs : List HostTxn := [.regRead 0x04, .regRead 0x90]
    (running 0x09000000 (hs.map Event.host ++ [.engine])).Inv ∧
    statusBusy (running 0x09000000 (hs.map Event.host ++ [.engine])).status = true ∧
    (running 0x09000000 (hs.map Event.host ++ [.engine])).agenda =
      hs.map Event.host ++ .engine :: [] := ⟨running_inv _ _, rfl, rfl⟩

theorem test_witness_MeaninglessTransactionsRefused :
    (issuing (.regRead 0x2c)).hostTurn (.regRead 0x2c) ∧
    (issuing (.regRead 0x7c)).hostTurn (.regRead 0x7c) ∧
    (issuing (.regWrite 0x100 0)).hostTurn (.regWrite 0x100 0) ∧
    (issuing (.regWrite 0x29 0)).hostTurn (.regWrite 0x29 0) ∧ 0x29 % 4 ≠ 0 ∧
    (issuing (.regOtherWidth 0x04 8)).hostTurn (.regOtherWidth 0x04 8) ∧
    (issuing (.memRead 0xffff 2)).hostTurn (.memRead 0xffff 2) ∧
    (issuing (.memRead 0xffff 2)).memBytes < 0xffff + 2 ∧
    (issuing (.memWrite 0x10000 [0])).hostTurn (.memWrite 0x10000 [0]) ∧
    (issuing (.memWrite 0x10000 [0])).memBytes < 0x10000 + 1 :=
  ⟨issuing_turn _, issuing_turn _, issuing_turn _, issuing_turn _, by decide, issuing_turn _,
    issuing_turn _, by decide, issuing_turn _, by decide⟩

theorem test_witness_MappedTransactionsProceed :
    (∀ off ∈ [0x00, 0x28, 0x80, 0xfc], (issuing (.regRead off)).hostTurn (.regRead off) ∧
      (issuing (.regWrite off 1)).hostTurn (.regWrite off 1) ∧ off % 4 = 0 ∧
      (off ≤ 0x28 ∨ (0x80 ≤ off ∧ off ≤ 0xfc))) ∧
    (issuing (.memRead 0xffff 1)).hostTurn (.memRead 0xffff 1) ∧
    0xffff + 1 ≤ (issuing (.memRead 0xffff 1)).memBytes := by
  refine ⟨fun off h => ⟨issuing_turn _, issuing_turn _, ?_⟩, issuing_turn _, by decide⟩
  revert off; decide

theorem test_witness_RegisterWriteFrame :
    HostReg.blockWord 7 3 ≠ .cmd ∧ HostReg.blockWord 7 3 ≠ .status := by decide

theorem test_witness_HostMemoryWriteThenRead :
    (issuing (.memWrite 0xffff [0x5a])).Inv ∧
    (issuing (.memWrite 0xffff [0x5a])).hostTurn (.memWrite 0xffff [0x5a]) ∧
    ([0x5a] : List Byte) ≠ [] ∧ 0xffff + 1 ≤ (issuing (.memWrite 0xffff [0x5a])).memBytes :=
  ⟨issuing_inv _, issuing_turn _, by decide, by decide⟩

theorem test_witness_MemoryDeterminedByItsBytes :
    Memory.wf (fun _ => 0) 64 [(0, 1), (63, 0xff)] = true ∧
    Memory.wf (fun _ => 0) 64 [(0, 1), (64, 0xff)] = false ∧
    Memory.wf (fun _ => 0) 64 [(0, 0)] = false ∧
    (running 0x09000000 [.reset]).agenda.head? = some .reset := by decide

theorem test_witness_bit_bounds : rev32 0x80000000 = 1 ∧ (rev32 0x80000000).getLsbD 0 = true ∧
    (natOrder 1).getLsbD 127 = true ∧ (clmul 1 1).getLsbD 255 = false ∧
    (clmul32 1 1).getLsbD 63 = false := by decide +kernel

theorem test_witness_ReductionFormsAgree :
    (BitVec.allOnes 256 >>> 1 : Wide).getLsbD 255 = false ∧ (0 : Wide).getLsbD 255 = false := by
  decide

theorem test_witness_GhashPadsLastBlock : (zeroBytes 15).length % 16 ≠ 0 := by decide

theorem test_witness_GhashComposes : (zeroBytes 32).length % 16 = 0 := by decide

theorem test_witness_GhashUnderZeroSubkey :
    let s := withOperands { OperandRegs.reset with srcAddr := 0xffff, len := 1 }
    s.getB regH = 0 ∧ 0 < s.regs.len.toNat ∧ s.regs.srcAddr.toNat + s.regs.len.toNat ≤ s.memBytes := by
  decide

theorem test_witness_GctrBlockwise : 16 * 1 < (zeroBytes 17).length := by decide

/-- The direct path, and on either side of it and at the least length the GHASH path. -/
theorem test_witness_DirectPathAndEmptyMessage : (zeroBytes 12).length = 12 ∧
    (zeroBytes 11).length ≠ 12 ∧ (zeroBytes 13).length ≠ 12 ∧ (zeroBytes 1).length ≠ 12 := by decide

theorem test_witness_LdbResult :
    let s := withOperands { OperandRegs.reset with srcAddr := 0xfff0 }
    s.regs.srcAddr.toNat + 16 ≤ s.memBytes := by decide

theorem test_witness_StbResult :
    let s := withOperands { OperandRegs.reset with dstAddr := 0xfff0 }
    s.Inv ∧ s.regs.dstAddr.toNat + 16 ≤ s.memBytes := ⟨withOperands_inv _, by decide⟩

theorem test_witness_HkeyResult :
    (withOperands { OperandRegs.reset with keyAddr := 0xfff0 }).regs.keyAddr.toNat + klen .k128 ≤ 65536 ∧
    (withOperands { OperandRegs.reset with keyAddr := 0xffe8 }).regs.keyAddr.toNat + klen .k192 ≤ 65536 ∧
    (withOperands { OperandRegs.reset with keyAddr := 0xffe0 }).regs.keyAddr.toNat + klen .k256 ≤ 65536 ∧
    State.reset.memBytes = 65536 := by decide

theorem test_witness_GhashResult :
    let s := withOperands { OperandRegs.reset with srcAddr := 0xffff, len := 1 }
    let t := withOperands { OperandRegs.reset with srcAddr := 0xffffffff }
    s.regs.srcAddr.toNat + s.regs.len.toNat ≤ s.memBytes ∧ t.regs.len = 0 := by decide

theorem not_inRange {r q : Range} (h : r.base + r.len ≤ q.base ∨ q.base + q.len ≤ r.base) :
    ∀ a, inRange r a = true → inRange q a = false := by
  intro a ha
  simp only [inRange, Bool.and_eq_true, decide_eq_true_eq, Bool.and_eq_false_iff,
    decide_eq_false_iff_not] at *
  omega

/-- In place, and with out directly after data (V-ERR-32). -/
theorem test_witness_GctrResult :
    ∀ d ∈ ([0x100, 0x114] : List Word),
      let s := withOperands { OperandRegs.reset with srcAddr := 0x100, dstAddr := d, len := 0x14 }
      s.regs.keyAddr.toNat + klen .k128 ≤ s.memBytes ∧
      (s.regs.srcAddr.toNat + s.regs.len.toNat ≤ s.memBytes ∧
        s.regs.dstAddr.toNat + s.regs.len.toNat ≤ s.memBytes) ∧
      (∀ a, inRange s.regs.outRange a = true → inRange (s.regs.keyRange .k128) a = false) ∧
      (s.regs.dstAddr = s.regs.srcAddr ∨
        ∀ a, inRange s.regs.outRange a = true → inRange s.regs.dataRange a = false) := by
  intro d hd
  simp only [List.mem_cons, List.not_mem_nil, or_false] at hd
  rcases hd with rfl | rfl
  · exact ⟨by decide, by decide, not_inRange (.inr (by decide)), .inl rfl⟩
  · exact ⟨by decide, by decide, not_inRange (.inr (by decide)), .inr (not_inRange (.inr (by decide)))⟩

/-- With the tag directly after out (V-ERR-35). -/
def adjacentState : State := withOperands { messageRegs 0x20 with tagAddr := 0x220 }

/-- With the tag directly after out, and of an empty message. -/
theorem test_witness_EncryptResult :
    (adjacentState.regs.ivLen ≠ 0 ∧ tagFieldWf 4 = true ∧
      rangeBad adjacentState.memBytes (encryptFootprint .k128 4 adjacentState.regs) = false ∧
      overlapBad (encryptFootprint .k128 4 adjacentState.regs) = false) ∧
    (rangeBad 65536 (encryptFootprint .k128 16 (messageRegs 0)) = false ∧
      overlapBad (encryptFootprint .k128 16 (messageRegs 0)) = false) :=
  ⟨⟨by decide, by decide, by decide, by decide⟩, by decide, by decide⟩

/-- In place, and to another range. -/
theorem test_witness_DecryptResult :
    (adjacentState.regs.ivLen ≠ 0 ∧ tagFieldWf 16 = true ∧
      rangeBad adjacentState.memBytes (decryptFootprint .k256 16 adjacentState.regs) = false ∧
      overlapBad (decryptFootprint .k256 16 adjacentState.regs) = false) ∧
    (rangeBad 65536 (decryptFootprint .k256 4 { messageRegs 0x20 with dstAddr := 0x100 }) = false ∧
      overlapBad (decryptFootprint .k256 4 { messageRegs 0x20 with dstAddr := 0x100 }) = false) :=
  ⟨⟨by decide, by decide, by decide, by decide⟩, by decide, by decide⟩

theorem test_witness_ChecksInOrder :
    (running 0 [.engine]).engineTurn ∧ (running 0 [.engine]).cmd = some 0 ∧
    decodeWord 0 = .illegal (.unknownOpcode 0) ∧
    (∀ p ∈ ([(0x08000300, .hkey none, some .keySize), (0x10001400, .encrypt (some .k128) 5, some .ivLen),
        (0x02480000, .inc32 2 2, none)] : List (Word × Instr × Option ErrCode)),
      (running p.1 [.engine]).cmd = some p.1 ∧ decodeWord p.1 = .command p.2.1 ∧
      commandError p.2.1 65536 OperandRegs.reset = p.2.2) ∧ OperandRegs.reset.ivLen = 0 :=
  ⟨running_turn 0 [], rfl, by decide, by decide, rfl⟩

theorem test_witness_CommandFrame : exec (.inc32 2 2) State.reset = .next (inc32Command 2 2 State.reset) ∧
    writtenBlock (.inc32 2 2) ≠ some 3 := ⟨rfl, by decide⟩

theorem test_witness_UnusedOperandRegistersIgnored :
    exec .ghash State.reset = .next (ghashCommand Config.env State.reset) ∧
    usesOperand .ghash .keyAddr = false ∧
    statusBusy (running 0x09000000 [.host (.regWrite 0x24 1)]).status = true ∧
    (running 0x09000000 [.host (.regWrite 0x24 1)]).agenda.head? = some (.host (.regWrite 0x24 1)) :=
  ⟨rfl, rfl, rfl, rfl⟩

theorem test_witness_MemoryFrame :
    let s := withOperands { OperandRegs.reset with dstAddr := 0x201 }
    s.Inv ∧ exec (.stb 1) s = .next (stbCommand Config.env 1 s) ∧
    (∀ r ∈ outputRanges (.stb 1) s.regs, inRange r 0x200 = false) ∧
    ∀ r ∈ outputRanges (.stb 1) s.regs, inRange r 0x211 = false :=
  ⟨withOperands_inv _, rfl, by decide, by decide⟩

/-- Two cores that differ in a block register. -/
theorem test_witness_OrchestratorDependsOnNamedInputsOnly :
    let s1 := withOperands (messageRegs 5)
    let s2 := (withOperands (messageRegs 5)).setB 3 blockC
    usesMessage (.encrypt (some .k128) 16) = true ∧ s1.Inv ∧ s2.Inv ∧ s1.regs = s2.regs ∧
    s1.memBytes = s2.memBytes ∧
    (∀ r ∈ (commandFootprint (.encrypt (some .k128) 16) s1.regs).data ::
        (commandFootprint (.encrypt (some .k128) 16) s1.regs).inputs,
      s1.readRange Config.env r = s2.readRange Config.env r) ∧ s1.getB 3 ≠ s2.getB 3 := by
  refine ⟨rfl, withOperands_inv _, ?_, rfl, rfl, fun r _ => rfl, by decide +kernel⟩
  have h := withOperands_inv (messageRegs 5)
  exact ⟨h.1, h.2, h.3, h.4, h.5, h.6⟩

/-- The checks of an ENCRYPT that pass leave it without error, and the DECRYPT of its output passes too,
in place and to a third range. -/
theorem test_witness_DecryptUndoesEncrypt :
    (withOperands (messageRegs 5)).Inv ∧
    exec (.encrypt (some .k128) 12) (withOperands (messageRegs 5)) =
      .next (encryptCommand Config.env (some .k128) 12 (withOperands (messageRegs 5))) ∧
    statusErr (encryptCommand Config.env (some .k128) 12 (withOperands (messageRegs 5))).status =
      false ∧
    ∀ t : State, t = encryptCommand Config.env (some .k128) 12 (withOperands (messageRegs 5)) →
      commandError (.decrypt (some .k128) 12) t.memBytes
        { t.regs with srcAddr := t.regs.dstAddr, dstAddr := 0x280 } = none := by
  have h : encryptCheck .k128 12 (withOperands (messageRegs 5)).memBytes
    (withOperands (messageRegs 5)).regs = none := by decide
  refine ⟨withOperands_inv _, rfl, ?_, ?_⟩
  · simp only [encryptCommand, withKeySize_some]
    rw [runGcm_phases h]
    simp only [emitEncrypt, complete_status]
    decide
  · rintro t rfl
    simp only [encryptCommand, withKeySize_some]
    rw [runGcm_phases h]
    simp only [emitEncrypt, complete_memBytes, memWrite_memBytes, enter_memBytes, latch_memBytes,
      complete_regs, memWrite_regs, enter_regs, latch_regs]
    have hd : commandError (.decrypt (some .k128) 12) 65536
      { messageRegs 5 with srcAddr := 0x200, dstAddr := 0x280 } = none := by decide
    exact hd

/-- The operands of V-GCM-12 on memory as reset leaves it, but for the first byte of the tag. -/
def suppliedState (b : Byte) : State := (withOperands (messageRegs 5)).memWrite Config.env 0x300 [b]

/-- The full tag over that memory, as reset leaves it. -/
def plainTag : Block :=
  gcmTag (Config.cipher .k128 ((withOperands (messageRegs 5)).memRead Config.env 0 16))
    ((withOperands (messageRegs 5)).memRead Config.env 0x20 12)
    ((withOperands (messageRegs 5)).memRead Config.env 0x40 0)
    ((withOperands (messageRegs 5)).memRead Config.env 0x100 5)

/-- With a first tag byte that is not the tag's. -/
def forgedState : State := suppliedState ((blockBytes plainTag).getD 0 0 + 1)

theorem suppliedState_memRead (b : Byte) (a n : Nat) (h : a + n ≤ 0x300) :
    (suppliedState b).memRead Config.env a n =
      (withOperands (messageRegs 5)).memRead Config.env a n :=
  readBytes_writeBytes_disjoint (State.init Config.env (withOperands (messageRegs 5)))
    (wf_ascending (withOperands_inv (messageRegs 5)).memory) 0x300 [b] a n (.inl h)

theorem suppliedState_tag (b : Byte) :
    ((suppliedState b).memRead Config.env 0x300 12)[0]? = some b := by
  have hl : 0 < ((suppliedState b).memRead Config.env 0x300 12).length := by simp [State.memRead]
  rw [List.getElem?_eq_getElem hl]
  simp only [State.memRead, getElem_readBytes]
  exact congrArg some ((readByte_writeBytes (State.init Config.env (withOperands (messageRegs 5)))
    (wf_ascending (withOperands_inv (messageRegs 5)).memory) 0x300 [b] 0x300).trans (by simp))

theorem suppliedState_inv (b : Byte) : (suppliedState b).Inv :=
  have h := withOperands_inv (messageRegs 5)
  ⟨h.1, wf_writeBytes _ h.2 (show 0x300 + 1 ≤ 65536 by decide), h.3, h.4, h.5, h.6⟩

theorem suppliedState_status (b : Byte) (h : b ≠ (blockBytes plainTag).getD 0 0) :
    (decryptCommand Config.env (some .k128) 12 (suppliedState b)).status = 0x00000022 := by
  have hc : decryptCheck .k128 12 (suppliedState b).memBytes (suppliedState b).regs = none := by
    have hc : decryptCheck .k128 12 65536 (messageRegs 5) = none := by decide
    exact hc
  have hd : tagDiff (truncTag 12 plainTag) ((suppliedState b).memRead Config.env 0x300 12) ≠ 0 := by
    rw [Ne, tagDiff_eq_zero (by simp [truncTag, State.memRead])]
    intro he
    have hb := suppliedState_tag b
    rw [← he] at hb
    exact h (by simpa [truncTag, eq_comm] using hb)
  have hr : gcmTag (Config.cipher .k128 ((suppliedState b).memRead Config.env 0 16))
      ((suppliedState b).memRead Config.env 0x20 12) ((suppliedState b).memRead Config.env 0x40 0)
      ((suppliedState b).memRead Config.env 0x100 5) = plainTag := by
    rw [suppliedState_memRead b 0 16 (by decide), suppliedState_memRead b 0x20 12 (by decide),
      suppliedState_memRead b 0x40 0 (by decide), suppliedState_memRead b 0x100 5 (by decide)]
    rfl
  rw [← hr] at hd
  simp only [decryptCommand, withKeySize_some]
  rw [runGcm_phases hc]
  simp only [emitDecrypt, enter_transients, latch_transients, authTag_payloadDone, payloadDone_input,
    payloadDone_tagIn, authTag_tagIn, messageRead, State.readRange]
  exact congrArg State.status (if_neg hd)

theorem test_witness_ForgedOutputIsZero :
    forgedState.Inv ∧ exec (.decrypt (some .k128) 12) forgedState =
      .next (decryptCommand Config.env (some .k128) 12 forgedState) ∧
    (decryptCommand Config.env (some .k128) 12 forgedState).status = 0x00000022 ∧
    inRange (messageRegs 5).outRange 0x204 = true :=
  have hne : ∀ b : Byte, b + 1 ≠ b := by decide +kernel
  ⟨suppliedState_inv _, rfl, suppliedState_status _ (hne _), by decide⟩

theorem test_witness_RegisterCopyThroughMemory :
    let s := (withOperands { OperandRegs.reset with dstAddr := 0xfff0 })
    s.Inv ∧ s.regs.dstAddr.toNat + 16 ≤ s.memBytes := ⟨withOperands_inv _, by decide⟩

end Sys2Proof.Tests
end

section
/-! The bit reversal of a word (00_scope.md R14). -/

namespace Sys2Proof.Machine

theorem getLsbD_rev32 (w : Word) {i : Nat} (h : i < 32) :
    (rev32 w).getLsbD i = w.getLsbD (31 - i) := by
  rw [rev32, BitVec.getLsbD_reverse, BitVec.getMsbD_eq_getLsbD]
  simp [h]

@[simp] theorem rev32_rev32 (w : Word) : rev32 (rev32 w) = w := BitVec.reverse_reverse_eq

/-- Settles O24: the bits by `getLsbD_rev32`, the three examples by evaluation, and that `rev32` undoes
itself by `rev32_rev32`. -/
theorem reverseThirtyTwo : Obligations.ReverseThirtyTwo := by
  refine ⟨fun w i hi => getLsbD_rev32 w hi, ?one, ?mixed, ?half, rev32_rev32⟩
  case one => decide +kernel
  case mixed => decide +kernel
  case half => decide +kernel

end Sys2Proof.Machine
end

section
/-! The host port at `BUSY` = 0 refuses a transaction the spec gives no meaning (10_state.md R48, R50). -/

namespace Sys2Proof.Machine

/-- A transaction that proceeds at once is performed on the state with its turn taken (R49). -/
theorem step_hostTurn {s : State} {t : HostTxn} (h : s.hostTurn t) :
    step s = s.takeTurn.perform Config.env t := by
  obtain ⟨hbusy, hheld, hhead⟩ := h
  obtain ⟨es, hes⟩ := List.head?_eq_some_iff.1 hhead
  exact step_host_idle hes hbusy hheld

/-- The gaps of the register map (10_state.md R32): from 0x2c to below 0x80, and from 0x100 on. -/
theorem hostReg_eq_none {off : Nat} (h : (0x2c ≤ off ∧ off < 0x80) ∨ 0x100 ≤ off) :
    hostReg off = none := by
  unfold hostReg
  split
  · rfl
  · rcases h with ⟨hlo, hhi⟩ | hhigh
    · rw [if_pos hhi, List.getElem?_eq_none]
      simp only [namedRegs, List.length_cons, List.length_nil]
      omega
    · rw [if_neg (by omega), blockWordReg, dif_neg (by omega)]

/-- An offset that is not a multiple of 4 or not mapped names no register (10_state.md R50). -/
theorem findReg_error {off : Nat} (h : off % 4 ≠ 0 ∨ (0x2c ≤ off ∧ off ≤ 0x7c) ∨ 0x100 ≤ off) :
    ∃ e, findReg off = .error e := by
  cases hf : findReg off with
  | error e => exact ⟨e, rfl⟩
  | ok r =>
    obtain ⟨haligned, hmapped⟩ := (findReg_ok_iff off r).1 hf
    have hgap := hostReg_eq_none (off := off) (by omega)
    simp [hgap] at hmapped

/-- A range that ends beyond `MEM_BYTES` is no transfer (10_state.md R50). -/
theorem checkTransfer_error {size addr n : Nat} (h : size < addr + n) :
    ∃ e, checkTransfer size addr n = .error e := by
  cases hc : checkTransfer size addr n with
  | error e => exact ⟨e, rfl⟩
  | ok _ =>
    obtain ⟨-, hfits⟩ := (checkTransfer_ok_iff size addr n).1 hc
    omega

section
variable {env : Env} {s : State} {e : Refusal}

theorem perform_regRead_refused {off : Nat} (h : findReg off = .error e) :
    s.perform env (.regRead off) = .refused e := by
  simp only [State.perform, h]

theorem perform_regWrite_refused {off : Nat} {w : Word} (h : findReg off = .error e) :
    s.perform env (.regWrite off w) = .refused e := by
  simp only [State.perform, h]

theorem perform_memRead_refused {a n : Nat} (h : checkTransfer s.memBytes a n = .error e) :
    s.perform env (.memRead a n) = .refused e := by
  simp only [State.perform, h]

theorem perform_memWrite_refused {a : Nat} {bs : List Byte}
    (h : checkTransfer s.memBytes a bs.length = .error e) :
    s.perform env (.memWrite a bs) = .refused e := by
  simp only [State.perform, h]

end

/-- Settles O17: the engine being idle, the step is the transaction itself, which finds no register
(`findReg_error`) or no range of `MEM` (`checkTransfer_error`). -/
theorem meaninglessTransactionsRefused : Obligations.MeaninglessTransactionsRefused := by
  refine ⟨?regRead, ?regWrite, ?regOtherWidth, ?memRead, ?memWrite⟩
  case regRead =>
    intro s off hturn hoff
    obtain ⟨e, he⟩ := findReg_error hoff
    exact ⟨e, (step_hostTurn hturn).trans (perform_regRead_refused he)⟩
  case regWrite =>
    intro s off w hturn hoff
    obtain ⟨e, he⟩ := findReg_error hoff
    exact ⟨e, (step_hostTurn hturn).trans (perform_regWrite_refused he)⟩
  case regOtherWidth =>
    intro s off bits hturn
    exact ⟨.registerWidth bits, step_hostTurn hturn⟩
  case memRead =>
    intro s a n hturn hend
    obtain ⟨e, he⟩ := checkTransfer_error hend
    exact ⟨e, (step_hostTurn hturn).trans (perform_memRead_refused he)⟩
  case memWrite =>
    intro s a bs hturn hend
    obtain ⟨e, he⟩ := checkTransfer_error hend
    exact ⟨e, (step_hostTurn hturn).trans (perform_memWrite_refused he)⟩

end Sys2Proof.Machine
end

section
/-! A block register seen by the host as four big-endian words (10_state.md R23). -/

namespace Sys2Proof.Machine

/-! ### The words of a block -/

/-- The mask of a word is the 32 low bits. -/
theorem getLsbD_wordMask (m : Nat) : (0xffffffff : Block).getLsbD m = decide (m < 32) := by
  rw [show (0xffffffff : Block) = (BitVec.allOnes 32).setWidth 128 from rfl,
    BitVec.getLsbD_setWidth, BitVec.getLsbD_allOnes, Bool.and_eq_right_iff_imp]
  intro h
  simp only [decide_eq_true_eq] at h ⊢
  omega

/-- Bit `j` of a block after its word `k` was replaced: of the word inside it, else as before. -/
theorem getLsbD_setBlockWord (b : Block) (k : Nat) (w : Word) {j : Nat} (hj : j < 128) :
    (setBlockWord b k w).getLsbD j =
      if 32 * (3 - k) ≤ j ∧ j < 32 * (3 - k) + 32 then w.getLsbD (j - 32 * (3 - k))
      else b.getLsbD j := by
  simp only [setBlockWord, BitVec.getLsbD_or, BitVec.getLsbD_and, BitVec.getLsbD_not,
    BitVec.getLsbD_shiftLeft, BitVec.getLsbD_setWidth, getLsbD_wordMask, hj]
  by_cases hbelow : j < 32 * (3 - k)
  · simp [hbelow]
  · by_cases hword : j < 32 * (3 - k) + 32
    · have hbit : j - 32 * (3 - k) < 32 := by omega
      simp [hbelow, hword, hbit, Nat.not_lt.1 hbelow, Nat.lt_trans hbit]
    · have hbit : ¬ j - 32 * (3 - k) < 32 := by omega
      simp [hbelow, hword, hbit, BitVec.getLsbD_of_ge w _ (Nat.not_lt.1 hbit)]

theorem getElem_blockBytes (b : Block) {i : Nat} (h : i < (blockBytes b).length) :
    (blockBytes b)[i] = b.extractLsb' (8 * (15 - i)) 8 :=
  getElem_toBytes 16 b h

/-- Word `k` is the number of the bytes `4k .. 4k+3` (10_state.md R23). -/
theorem blockWord_eq_be32 (b : Block) {k : Nat} (hk : k < 4) :
    blockWord b k = be32 (((blockBytes b).drop (4 * k)).take 4) := by
  apply BitVec.eq_of_getLsbD_eq
  intro j hj
  have hlen : (((blockBytes b).drop (4 * k)).take 4).length = 4 := by
    simp only [List.length_take, List.length_drop, length_blockBytes]; omega
  have hbyte : j / 8 < (((blockBytes b).drop (4 * k)).take 4).reverse.length := by
    rw [List.length_reverse, hlen]; omega
  have hbit : 8 * (15 - (4 * k + (4 - 1 - j / 8))) + j % 8 = 32 * (3 - k) + j := by omega
  rw [be32, getLsbD_ofBytes, List.getD_eq_getElem _ _ hbyte, List.getElem_reverse, List.getElem_take,
    List.getElem_drop, getElem_blockBytes, BitVec.getLsbD_extractLsb', blockWord,
    BitVec.getLsbD_extractLsb', hlen, hbit]
  simp [hj, Nat.mod_lt]

/-- Byte `i` of a block after its word `k` was replaced. -/
theorem getElem_blockBytes_setBlockWord (b : Block) {k : Nat} (hk : k < 4) (w : Word) {i : Nat}
    (hi : i < 16) : (blockBytes (setBlockWord b k w))[i]'(by simpa) =
      if h : 4 * k ≤ i ∧ i < 4 * k + 4 then (toBe32 w)[i - 4 * k]'(by simp; omega)
      else (blockBytes b)[i]'(by simpa) := by
  apply BitVec.eq_of_getLsbD_eq
  intro j hj
  have hj' : 8 * (15 - i) + j < 128 := by omega
  rw [getElem_blockBytes, BitVec.getLsbD_extractLsb', getLsbD_setBlockWord _ _ _ hj']
  by_cases hword : 4 * k ≤ i ∧ i < 4 * k + 4
  · have hin : 32 * (3 - k) ≤ 8 * (15 - i) + j ∧ 8 * (15 - i) + j < 32 * (3 - k) + 32 := by omega
    have hbit : 8 * (15 - i) + j - 32 * (3 - k) = 8 * (4 - 1 - (i - 4 * k)) + j := by omega
    rw [if_pos hin, dif_pos hword, hbit]
    simp only [toBe32, getElem_toBytes, BitVec.getLsbD_extractLsb']
  · have hout : ¬ (32 * (3 - k) ≤ 8 * (15 - i) + j ∧ 8 * (15 - i) + j < 32 * (3 - k) + 32) := by
      omega
    rw [if_neg hout, dif_neg hword, getElem_blockBytes, BitVec.getLsbD_extractLsb']

/-- Replacing word `k` replaces the bytes `4k .. 4k+3` and leaves the other twelve (10_state.md R23). -/
theorem blockBytes_setBlockWord (b : Block) {k : Nat} (hk : k < 4) (w : Word) :
    blockBytes (setBlockWord b k w) =
      (blockBytes b).take (4 * k) ++ toBe32 w ++ (blockBytes b).drop (4 * k + 4) := by
  apply List.ext_getElem (by simp; omega)
  intro i hi hi'
  rw [length_blockBytes] at hi
  have hk' : min (4 * k) 16 = 4 * k := by omega
  rw [getElem_blockBytes_setBlockWord b hk w hi]
  simp only [List.getElem_append, List.length_append, List.length_take, length_blockBytes,
    length_toBe32, hk', List.getElem_take, List.getElem_drop]
  by_cases hlow : i < 4 * k
  · simp [hlow, Nat.lt_add_right, show ¬ 4 * k ≤ i by omega]
  · by_cases hw : i < 4 * k + 4
    · simp [hlow, hw, Nat.not_lt.1 hlow]
    · simp [hw, show 4 * k + 4 + (i - (4 * k + 4)) = i by omega]

/-- Writing all four words of a block leaves nothing of the old one. -/
theorem setBlockWord_all (b : Block) (w0 w1 w2 w3 : Word) :
    setBlockWord (setBlockWord (setBlockWord (setBlockWord b 0 w0) 1 w1) 2 w2) 3 w3 =
      w0 ++ w1 ++ w2 ++ w3 := by
  apply BitVec.eq_of_getLsbD_eq
  intro j hj
  simp only [getLsbD_setBlockWord _ _ _ hj, BitVec.getLsbD_append]
  by_cases h3 : j < 32
  · simp [h3]
  · by_cases h2 : j < 64
    · simp [h3, h2, Nat.not_lt.1 h3, show j - 32 < 32 by omega]
    · have hge2 : ¬ j - 32 < 32 := by omega
      have hsub2 : j - 32 - 32 = j - 64 := by omega
      by_cases h1 : j < 96
      · simp [h3, h2, h1, Nat.not_lt.1 h2, hge2, hsub2, show j - 64 < 32 by omega]
      · have hge1 : ¬ j - 64 < 32 := by omega
        have hsub1 : j - 64 - 32 = j - 96 := by omega
        simp [h3, h2, h1, hj, Nat.not_lt.1 h1, hge2, hsub2, hge1, hsub1]

/-- The coefficient of the polynomial 1 is the top bit of word 0 (00_scope.md R13). -/
theorem coef_zero (a : Block) : coef a 0 = (blockWord a 0).getLsbD 31 := by
  simp [coef, blockWord]

/-! ### The block registers -/

@[simp] theorem getB_setB (s : State) (i j : BReg) (v : Block) :
    (s.setB i v).getB j = if i = j then v else s.getB j := by
  simp only [State.getB, State.setB, Fin.getElem_fin, Vector.getElem_set, Fin.ext_iff]

/-- Word `k` of `B[i]` stands at offset `0x80 + 16*i + 4*k` (10_state.md R23, R32). -/
theorem hostReg_blockWord (i : BReg) (k : Fin 4) :
    hostReg (0x80 + 16 * i.val + 4 * k.val) = some (.blockWord i k) := by
  have hn : (0x80 + 16 * i.val + 4 * k.val - 0x80) / 4 = 4 * i.val + k.val := by omega
  have hi : (4 * i.val + k.val) / 4 = i.val := by omega
  have hk : (4 * i.val + k.val) % 4 = k.val := by omega
  rw [hostReg, if_neg (by omega), if_neg (by omega), hn, blockWordReg, dif_pos (by omega)]
  simp only [hi, hk, Fin.eta]

/-- Settles O19: the offset by `hostReg_blockWord`, the word read by `blockWord_eq_be32`, the bytes
written by `blockBytes_setBlockWord`; the example writes all four words of `H`. -/
theorem blockWordHostView : Obligations.BlockWordHostView := by
  refine ⟨fun s i k w => ⟨hostReg_blockWord i k, blockWord_eq_be32 _ k.isLt, ?written⟩, fun s => ?_⟩
  case written =>
    rw [State.writeReg, getB_setB, if_pos rfl, blockBytes_setBlockWord _ k.isLt]
  intro t
  have ht : t.getB regH = 0x66e94bd4ef8a2c3b884cfa59ca342b2e := by
    simp only [t, State.writeReg, getB_setB]
    exact setBlockWord_all (s.getB 0) _ _ _ _
  exact ⟨ht, coef_zero _, by rw [ht]; decide +kernel⟩

end Sys2Proof.Machine
end

section
/-! The operand registers are inputs of a command and nothing else (10_state.md R30, R31). -/

namespace Sys2Proof.Machine

/-! ### Every command as a function of the state -/

/-- What a command does to the state. -/
def commandRun (i : Instr) : State → State :=
  match i with
  | .gfmul bd ba bb => gfmulCommand bd ba bb
  | .inc32 bd ba => inc32Command bd ba
  | .ldb bd => ldbCommand Config.env bd
  | .stb ba => stbCommand Config.env ba
  | .hkey ks => hkeyCommand Config.env ks
  | .ghash => ghashCommand Config.env
  | .gctr ks => gctrCommand Config.env ks
  | .encrypt ks tlen => encryptCommand Config.env ks tlen
  | .decrypt ks tlen => decryptCommand Config.env ks tlen

/-- Every command, in every state, answers a next state. -/
theorem exec_eq (i : Instr) (s : State) : exec i s = .next (commandRun i s) := by
  cases i <;> rfl

theorem runUnit_error {check : Nat → OperandRegs → Option ErrCode} {read act : State → State}
    {s : State} {e : ErrCode} (h : check s.memBytes s.regs = some e) :
    runUnit check read act s = s.raiseError e := by
  rw [runUnit_eq, h]

theorem runUnit_pass {check : Nat → OperandRegs → Option ErrCode} {read act : State → State}
    {s : State} (h : check s.memBytes s.regs = none) :
    runUnit check read act s = (act ((read (s.enter .check)).enter .unit)).complete .none := by
  rw [runUnit_eq, h]

/-! ### No command writes an operand register -/

/-- The operation writes no operand register. -/
def KeepsRegs (f : State → State) : Prop := ∀ s, (f s).regs = s.regs

theorem KeepsRegs.withKeySize {f : KeySize → State → State} (hf : ∀ k, KeepsRegs (f k))
    (ks : Option KeySize) : KeepsRegs (State.withKeySize ks f) := by
  intro s
  cases ks with
  | none => rfl
  | some k => exact hf k s

theorem KeepsRegs.runUnit {check : Nat → OperandRegs → Option ErrCode} {read act : State → State}
    (hread : KeepsRegs read) (hact : KeepsRegs act) : KeepsRegs (runUnit check read act) := by
  intro s
  cases hcheck : check s.memBytes s.regs with
  | some e => rw [runUnit_error hcheck, raiseError_regs]
  | none => rw [runUnit_pass hcheck, complete_regs, hact, enter_regs, hread, enter_regs]

theorem KeepsRegs.runGcm {env : Env} {k : KeySize} {check : Nat → OperandRegs → Option ErrCode}
    {tagIn : State → List Byte} {ct : Transients → List Byte} {emit : State → State}
    (hemit : KeepsRegs emit) : KeepsRegs (runGcm env k check tagIn ct emit) := by
  intro s
  cases hcheck : check s.memBytes s.regs with
  | some e => rw [runGcm_error hcheck, raiseError_regs]
  | none => rw [runGcm_phases hcheck, hemit, enter_regs, latch_regs]

theorem emitEncrypt_keepsRegs (env : Env) (tlen : BitVec 5) : KeepsRegs (emitEncrypt env tlen) :=
  fun _ => rfl

theorem emitDecrypt_keepsRegs (env : Env) (tlen : BitVec 5) : KeepsRegs (emitDecrypt env tlen) := by
  intro s
  simp only [emitDecrypt]
  split <;> rfl

/-- A command writes no operand register (10_state.md R31). -/
theorem commandRun_keepsRegs (i : Instr) : KeepsRegs (commandRun i) := by
  cases i with
  | gfmul bd ba bb => exact .runUnit (fun _ => rfl) (fun _ => rfl)
  | inc32 bd ba => exact .runUnit (fun _ => rfl) (fun _ => rfl)
  | ldb bd => exact .runUnit (fun _ => rfl) (fun _ => rfl)
  | stb ba => exact .runUnit (fun _ => rfl) (fun _ => rfl)
  | hkey ks =>
    refine .withKeySize (fun k => ?_) ks
    exact .runUnit (fun _ => rfl) (fun _ => rfl)
  | ghash => exact .runUnit (fun _ => rfl) (fun _ => rfl)
  | gctr ks =>
    refine .withKeySize (fun k => ?_) ks
    exact .runUnit (fun _ => rfl) (fun _ => rfl)
  | encrypt ks tlen =>
    refine .withKeySize (fun k => ?_) ks
    exact .runGcm (emitEncrypt_keepsRegs Config.env tlen)
  | decrypt ks tlen =>
    refine .withKeySize (fun k => ?_) ks
    exact .runGcm (emitDecrypt_keepsRegs Config.env tlen)

/-! ### What a write to an operand register leaves as it was -/

/-- An operand register reads as it was written, and every other one as before (10_state.md R30). -/
theorem OperandRegs.get_set (r : OperandRegs) (n m : OperandReg) (w : Word) :
    (r.set n w).get m = if m = n then w else r.get m := by
  cases n <;> cases m <;> rfl

section
variable (r : OperandRegs) {n : OperandReg} (w : Word)

theorem OperandRegs.get_set_of_ne {m : OperandReg} (h : n ≠ m) : (r.set n w).get m = r.get m := by
  rw [OperandRegs.get_set, if_neg h.symm]

theorem OperandRegs.keyRange_set (h : n ≠ .keyAddr) (k : KeySize) :
    (r.set n w).keyRange k = r.keyRange k :=
  congrArg (fun a : Word => Range.mk a.toNat (klen k)) (r.get_set_of_ne w h)

theorem OperandRegs.loadRange_set (h : n ≠ .srcAddr) : (r.set n w).loadRange = r.loadRange :=
  congrArg (fun a : Word => Range.mk a.toNat 16) (r.get_set_of_ne w h)

theorem OperandRegs.storeRange_set (h : n ≠ .dstAddr) : (r.set n w).storeRange = r.storeRange :=
  congrArg (fun a : Word => Range.mk a.toNat 16) (r.get_set_of_ne w h)

theorem OperandRegs.dataRange_set (hsrc : n ≠ .srcAddr) (hlen : n ≠ .len) :
    (r.set n w).dataRange = r.dataRange :=
  congrArg₂ (fun a l : Word => Range.mk a.toNat l.toNat) (r.get_set_of_ne w hsrc)
    (r.get_set_of_ne w hlen)

theorem OperandRegs.outRange_set (hdst : n ≠ .dstAddr) (hlen : n ≠ .len) :
    (r.set n w).outRange = r.outRange :=
  congrArg₂ (fun a l : Word => Range.mk a.toNat l.toNat) (r.get_set_of_ne w hdst)
    (r.get_set_of_ne w hlen)

end

section
variable (s : State) (n : OperandReg) (w : Word)

@[simp] theorem writeOperand_regs : (s.writeReg (.operand n) w).regs = s.regs.set n w := rfl
@[simp] theorem writeOperand_memBytes : (s.writeReg (.operand n) w).memBytes = s.memBytes := rfl
@[simp] theorem writeOperand_transients :
    (s.writeReg (.operand n) w).transients = s.transients := rfl
@[simp] theorem writeOperand_getB (i : BReg) : (s.writeReg (.operand n) w).getB i = s.getB i := rfl
@[simp] theorem writeOperand_readRange (env : Env) (g : Range) :
    (s.writeReg (.operand n) w).readRange env g = s.readRange env g := rfl

theorem enter_writeOperand (p : Phase) :
    (s.writeReg (.operand n) w).enter p = (s.enter p).writeReg (.operand n) w := rfl
theorem latch_writeOperand (f : Transients → Transients) :
    (s.writeReg (.operand n) w).latch f = (s.latch f).writeReg (.operand n) w := rfl
theorem memWrite_writeOperand (env : Env) (a : Nat) (bs : List Byte) :
    (s.writeReg (.operand n) w).memWrite env a bs =
      (s.memWrite env a bs).writeReg (.operand n) w := rfl
theorem complete_writeOperand (v : Auth) :
    (s.writeReg (.operand n) w).complete v = (s.complete v).writeReg (.operand n) w := rfl
theorem raiseError_writeOperand (e : ErrCode) :
    (s.writeReg (.operand n) w).raiseError e = (s.raiseError e).writeReg (.operand n) w := rfl

end

/-! ### A command does not read an operand register it does not use -/

/-- Writing the operand register `n` before the operation is the same as writing it after: the operation
does not read it. -/
def Ignores (n : OperandReg) (f : State → State) : Prop :=
  ∀ s w, f (s.writeReg (.operand n) w) = (f s).writeReg (.operand n) w

section
variable {n : OperandReg}

theorem Ignores.withKeySize {f : KeySize → State → State} (hf : ∀ k, Ignores n (f k))
    (ks : Option KeySize) : Ignores n (State.withKeySize ks f) := by
  intro s w
  cases ks with
  | none => exact raiseError_writeOperand s n w .keySize
  | some k => exact hf k s w

/-- A unit-level command ignores what its ranges, the reading of its inputs and its work ignore. -/
theorem Ignores.runUnit {f : OperandRegs → Footprint} {read act : State → State}
    (hranges : ∀ r w, f (r.set n w) = f r) (hread : Ignores n read) (hact : Ignores n act) :
    Ignores n (runUnit (unitCheck f) read act) := by
  intro s w
  have hsame : unitCheck f (s.writeReg (.operand n) w).memBytes (s.writeReg (.operand n) w).regs =
      unitCheck f s.memBytes s.regs := by
    rw [unitCheck, writeOperand_regs, hranges, writeOperand_memBytes, unitCheck]
  cases hcheck : unitCheck f s.memBytes s.regs with
  | some e =>
    rw [runUnit_error hcheck, runUnit_error (hsame.trans hcheck), raiseError_writeOperand]
  | none =>
    rw [runUnit_pass hcheck, runUnit_pass (hsame.trans hcheck), enter_writeOperand, hread,
      enter_writeOperand, hact, complete_writeOperand]

theorem gfmulCommand_ignores (bd ba bb : BReg) : Ignores n (gfmulCommand bd ba bb) :=
  .runUnit (fun _ _ => rfl) (fun _ _ => rfl) (fun _ _ => rfl)

theorem inc32Command_ignores (bd ba : BReg) : Ignores n (inc32Command bd ba) :=
  .runUnit (fun _ _ => rfl) (fun _ _ => rfl) (fun _ _ => rfl)

theorem ldbCommand_ignores (env : Env) (bd : BReg) (hsrc : n ≠ .srcAddr) :
    Ignores n (ldbCommand env bd) := by
  refine .runUnit (fun r w => ?ranges) (fun s w => ?read) (fun _ _ => rfl)
  case ranges => simp only [ldbFootprint, r.loadRange_set w hsrc]
  case read =>
    simp only [writeOperand_regs, s.regs.loadRange_set w hsrc, writeOperand_readRange,
      latch_writeOperand]

theorem stbCommand_ignores (env : Env) (ba : BReg) (hdst : n ≠ .dstAddr) :
    Ignores n (stbCommand env ba) := by
  refine .runUnit (fun r w => ?ranges) (fun _ _ => rfl) (fun s w => ?act)
  case ranges => simp only [stbFootprint, r.storeRange_set w hdst]
  case act =>
    simp only [writeOperand_regs, s.regs.storeRange_set w hdst, writeOperand_transients,
      memWrite_writeOperand]

theorem latchKey_ignores (env : Env) (k : KeySize) (hkey : n ≠ .keyAddr) :
    Ignores n (State.latchKey env k) := by
  intro s w
  simp only [State.latchKey, writeOperand_regs, s.regs.keyRange_set w hkey, writeOperand_readRange,
    latch_writeOperand]

theorem hkeyCommand_ignores (env : Env) (ks : Option KeySize) (hkey : n ≠ .keyAddr) :
    Ignores n (hkeyCommand env ks) := by
  refine .withKeySize (fun k => ?_) ks
  refine .runUnit (fun r w => ?ranges) (latchKey_ignores env k hkey) (fun _ _ => rfl)
  case ranges => simp only [hkeyFootprint, r.keyRange_set w hkey]

theorem ghashCommand_ignores (env : Env) (hsrc : n ≠ .srcAddr) (hlen : n ≠ .len) :
    Ignores n (ghashCommand env) := by
  refine .runUnit (fun r w => ?ranges) (fun s w => ?read) (fun _ _ => rfl)
  case ranges => simp only [ghashFootprint, r.dataRange_set w hsrc hlen]
  case read =>
    simp only [writeOperand_regs, s.regs.dataRange_set w hsrc hlen, writeOperand_readRange,
      writeOperand_getB, latch_writeOperand]

theorem gctrCommand_ignores (env : Env) (ks : Option KeySize) (hkey : n ≠ .keyAddr)
    (hsrc : n ≠ .srcAddr) (hdst : n ≠ .dstAddr) (hlen : n ≠ .len) :
    Ignores n (gctrCommand env ks) := by
  refine .withKeySize (fun k => ?_) ks
  refine .runUnit (fun r w => ?ranges) (fun s w => ?read) (fun s w => ?act)
  case ranges =>
    simp only [gctrFootprint, r.keyRange_set w hkey, r.dataRange_set w hsrc hlen,
      r.outRange_set w hdst hlen]
  case read =>
    simp only [latchKey_ignores env k hkey s w, writeOperand_regs, s.regs.dataRange_set w hsrc hlen,
      writeOperand_readRange, writeOperand_getB, latch_writeOperand]
  case act =>
    simp only [writeOperand_regs, s.regs.outRange_set w hdst hlen, writeOperand_transients,
      latch_writeOperand, memWrite_writeOperand, latch_regs, latch_transients]

/-- An operand register a command does not use has no effect on it (10_state.md R31). -/
theorem commandRun_ignores {i : Instr} (h : usesOperand i n = false) : Ignores n (commandRun i) := by
  cases i with
  | gfmul bd ba bb => exact gfmulCommand_ignores bd ba bb
  | inc32 bd ba => exact inc32Command_ignores bd ba
  | ldb bd => exact ldbCommand_ignores Config.env bd (by simpa [usesOperand] using h)
  | stb ba => exact stbCommand_ignores Config.env ba (by simpa [usesOperand] using h)
  | hkey ks => exact hkeyCommand_ignores Config.env ks (by simpa [usesOperand] using h)
  | ghash =>
    obtain ⟨hsrc, hlen⟩ : n ≠ .srcAddr ∧ n ≠ .len := by simpa [usesOperand] using h
    exact ghashCommand_ignores Config.env hsrc hlen
  | gctr ks =>
    obtain ⟨⟨⟨hkey, hsrc⟩, hdst⟩, hlen⟩ :
        ((n ≠ .keyAddr ∧ n ≠ .srcAddr) ∧ n ≠ .dstAddr) ∧ n ≠ .len := by
      simpa [usesOperand] using h
    exact gctrCommand_ignores Config.env ks hkey hsrc hdst hlen
  | encrypt ks tlen => simp [usesOperand] at h
  | decrypt ks tlen => simp [usesOperand] at h

end

/-! ### The host while a command is in the engine -/

/-- A transaction issued while the engine is busy changes at most the reply and what is held
(10_state.md R49). -/
theorem issueBusy_regs (s : State) (t : HostTxn) : (s.issueBusy t).regs = s.regs := by
  unfold State.issueBusy
  split <;> rfl

theorem issueBusy_cmd (s : State) (t : HostTxn) : (s.issueBusy t).cmd = s.cmd := by
  unfold State.issueBusy
  split <;> rfl

/-- Settles O54: a command keeps the operand registers (`commandRun_keepsRegs`) and commutes with a write
to one it does not use (`commandRun_ignores`); a host transaction issued while the engine is busy reads
`STATUS` or is held. -/
theorem unusedOperandRegistersIgnored : Obligations.UnusedOperandRegistersIgnored := by
  refine ⟨fun i s t hexec => ?command, fun s t hbusy hhead => ?host⟩
  case command =>
    obtain rfl : commandRun i s = t := Host.Outcome.next.inj ((exec_eq i s).symm.trans hexec)
    have hregs := commandRun_keepsRegs i s
    refine ⟨fun n => by rw [hregs], fun n w hunused => ?_⟩
    calc
      exec i (s.writeReg (.operand n) w) = .next (commandRun i (s.writeReg (.operand n) w)) :=
        exec_eq i _
      _ = .next ((commandRun i s).writeReg (.operand n) w) := by
        rw [commandRun_ignores hunused s w]
      _ = .next { commandRun i s with regs := s.regs.set n w } := by
        rw [State.writeReg, hregs]
  case host =>
    obtain ⟨es, hes⟩ := List.head?_eq_some_iff.1 hhead
    exact ⟨s.takeTurn.issueBusy t, step_host_busy hes hbusy, issueBusy_regs _ t, issueBusy_cmd _ t⟩

end Sys2Proof.Machine
end

section
/-! The illegal command words and how they complete (30_encoding.md R93 to R95). -/

namespace Sys2Proof.Machine

/-! ### The rows of the opcode map and the `OPC` of a word -/

/-- The `OPC` values of the nine commands (30_encoding.md R93). -/
theorem opcodeRows_map_opc : opcodeRows.map OpcodeRow.opc =
    [0x01, 0x02, 0x03, 0x04, 0x08, 0x09, 0x0a, 0x10, 0x11] := by decide

/-- The rows differ in `OPC` (30_encoding.md R93). -/
theorem opcodeRow_eq_of_opc {r q : OpcodeRow} (hr : r ∈ opcodeRows) (hq : q ∈ opcodeRows)
    (h : r.opc = q.opc) : r = q := by
  have hnodup : (opcodeRows.map OpcodeRow.opc).Nodup := by rw [opcodeRows_map_opc]; decide
  exact List.inj_on_of_nodup_map hnodup hr hq h

theorem opcodeRow_mask_opc : ∀ r ∈ opcodeRows, opcField r.mask = BitVec.allOnes 8 := by decide

theorem opcField_and (v w : Word) : opcField (v &&& w) = opcField v &&& opcField w :=
  BitVec.extractLsb'_and

theorem opcodeRow_fits_iff (r : OpcodeRow) (w : Word) : r.fits w = true ↔ w &&& r.mask = r.mtch :=
  beq_iff_eq

/-- Every mask covers the whole of `OPC`, so a word is a command only under the command's own `OPC`. -/
theorem opcodeRow_opc_of_fits {r : OpcodeRow} {w : Word} (hr : r ∈ opcodeRows)
    (h : r.fits w = true) : r.opc = opcField w := by
  rw [OpcodeRow.opc, ← (opcodeRow_fits_iff r w).1 h, opcField_and, opcodeRow_mask_opc r hr,
    BitVec.and_allOnes]

/-! ### The words that are no command -/

/-- What the decoder answers for a word that is none of the nine commands (30_encoding.md R95). -/
theorem decodeWord_of_no_row {w : Word} (h : ∀ r ∈ opcodeRows, ¬ r.fits w = true) :
    decodeWord w = .illegal (if opcField w ∈ opcodeRows.map OpcodeRow.opc
      then .unusedFieldSet (opcField w) else .unknownOpcode (opcField w)) := by
  have hnone : opcodeRows.find? (fun r => r.fits w) = none := List.find?_eq_none.2 h
  have hany : opcodeRows.any (fun r => r.opc == opcField w) = true ↔
      opcField w ∈ opcodeRows.map OpcodeRow.opc := by
    simp only [List.any_eq_true, beq_iff_eq, List.mem_map]
  rw [decodeWord, hnone]
  by_cases hopc : opcField w ∈ opcodeRows.map OpcodeRow.opc
  · rw [if_pos hopc]
    exact if_pos (hany.2 hopc)
  · rw [if_neg hopc]
    exact if_neg (mt hany.1 hopc)

/-- No command has this `OPC` (30_encoding.md R95, case 1). -/
theorem decodeWord_unknownOpcode {w : Word} (h : opcField w ∉ opcodeRows.map OpcodeRow.opc) :
    decodeWord w = .illegal (.unknownOpcode (opcField w)) := by
  have hunfit : ∀ r ∈ opcodeRows, ¬ r.fits w = true := fun r hr hfits =>
    h (opcodeRow_opc_of_fits hr hfits ▸ List.mem_map_of_mem hr)
  rw [decodeWord_of_no_row hunfit, if_neg h]

/-- The `OPC` is a command's, and the word does not fit that command's row (30_encoding.md R95, case 2):
any row it fitted would be that one. -/
theorem decodeWord_unusedFieldSet {w : Word} {r : OpcodeRow} (hr : r ∈ opcodeRows)
    (hopc : r.opc = opcField w) (h : ¬ r.fits w = true) :
    decodeWord w = .illegal (.unusedFieldSet (opcField w)) := by
  have hunfit : ∀ q ∈ opcodeRows, ¬ q.fits w = true := fun q hq hfits =>
    h (opcodeRow_eq_of_opc hr hq (hopc.trans (opcodeRow_opc_of_fits hq hfits).symm) ▸ hfits)
  rw [decodeWord_of_no_row hunfit, if_pos (hopc ▸ List.mem_map_of_mem hr)]

/-! ### The completion of an illegal word -/

theorem raiseError_eq_completed (e : ErrCode) (s : State) :
    s.raiseError e = s.completed (errorStatus e) := rfl

/-- The engine completes an illegal word with `ERR_ILLEGAL_CMD`, whatever makes it illegal. -/
theorem step_illegal {s : State} {w : Word} {why : IllegalWord} (hturn : s.engineTurn)
    (hcmd : s.cmd = some w) (hw : decodeWord w = .illegal why) :
    step s = .next (s.takeTurn.completed 0x00000106) := by
  have hstatus : errorStatus .illegalCmd = 0x00000106 := by decide
  calc
    step s = engineStep s.takeTurn := step_engine hturn
    _ = .next (s.takeTurn.raiseError .illegalCmd) := by
      rw [engineStep_some ((takeTurn_cmd s).trans hcmd), hw]
    _ = .next (s.takeTurn.completed 0x00000106) := by rw [raiseError_eq_completed, hstatus]

/-- Settles O5: an illegal word by its `OPC` (`decodeWord_unknownOpcode`) or by a field its command does
not use (`decodeWord_unusedFieldSet`), and its completion by `step_illegal`. -/
theorem illegalWordsRaiseError : Obligations.IllegalWordsRaiseError := by
  refine ⟨fun w hopc => ?unknown, ?count, fun w r hr hopc hbits => ?unused, fun w hw => ?examples,
    fun s w why => step_illegal⟩
  case unknown => exact decodeWord_unknownOpcode (opcodeRows_map_opc ▸ hopc)
  case count => decide +kernel
  case unused => exact decodeWord_unusedFieldSet hr hopc (mt (opcodeRow_fits_iff r w).1 hbits)
  case examples =>
    have hunfit : ∀ r ∈ opcodeRows, ¬ r.fits w = true := by
      simp only [List.mem_cons, List.not_mem_nil, or_false] at hw
      obtain rfl | rfl | rfl | rfl := hw <;> decide
    exact ⟨_, decodeWord_of_no_row hunfit⟩

end Sys2Proof.Machine
end

section
/-! Bit strings as polynomials over GF(2) (40_gf128.md R120): exclusive-or is their sum, a shift that
loses no bit a product with a power of `X`, and `clmul` their product. -/

namespace Sys2Proof.Machine

open Polynomial

/-! ### The polynomial of a natural number -/

/-- The polynomial over GF(2) whose coefficient at `X ^ i` is bit `i` of the number. -/
noncomputable def natPoly (n : Nat) : (ZMod 2)[X] :=
  ∑ i ∈ Finset.range n, monomial i ((n.testBit i).toNat : ZMod 2)

theorem coeff_natPoly (n i : Nat) : (natPoly n).coeff i = ((n.testBit i).toNat : ZMod 2) := by
  simp only [natPoly, finsetSum_coeff, coeff_monomial, Finset.sum_ite_eq', Finset.mem_range]
  refine ite_eq_left_iff.2 fun hle => ?_
  have hbit : n.testBit i = false :=
    Nat.testBit_lt_two_pow (lt_of_le_of_lt (not_lt.1 hle) Nat.lt_two_pow_self)
  simp [hbit]

/-- Bit `i` is the parity of what stands from place `i` up. -/
theorem coeff_natPoly_eq_cast_div (n i : Nat) : (natPoly n).coeff i = ((n / 2 ^ i : Nat) : ZMod 2) := by
  rw [coeff_natPoly, Nat.toNat_testBit, ZMod.natCast_mod]

@[simp] theorem natPoly_zero : natPoly 0 = 0 := by simp [natPoly]

theorem natPoly_xor (m n : Nat) : natPoly (m ^^^ n) = natPoly m + natPoly n := by
  have hparity : ∀ a b : Bool, ((a ^^ b).toNat : ZMod 2) = a.toNat + b.toNat := by decide
  ext i
  simp only [coeff_add, coeff_natPoly, Nat.testBit_xor, hparity]

theorem natPoly_mul_two_pow (n k : Nat) : natPoly (n * 2 ^ k) = X ^ k * natPoly n := by
  ext i
  rw [coeff_X_pow_mul', coeff_natPoly, coeff_natPoly, Nat.testBit_mul_two_pow]
  by_cases hki : k ≤ i <;> simp [hki]

theorem natPoly_two_pow (k : Nat) : natPoly (2 ^ k) = X ^ k := by
  have hone : natPoly 1 = 1 := by simp [natPoly]
  rw [← one_mul (2 ^ k), natPoly_mul_two_pow, hone, mul_one]

theorem degree_natPoly_lt {n w : Nat} (h : n < 2 ^ w) : (natPoly n).degree < w := by
  refine (degree_lt_iff_coeff_zero _ _).2 fun i hi => ?_
  rw [coeff_natPoly_eq_cast_div, Nat.div_eq_of_lt (h.trans_le (Nat.pow_le_pow_right two_pos hi)),
    Nat.cast_zero]

/-- A coefficient of a product vanishes where no two ones meet. -/
theorem coeff_natPoly_mul_eq_zero {p q n : Nat}
    (h : ∀ s t, s + t = n → p.testBit s = false ∨ q.testBit t = false) :
    (natPoly p * natPoly q).coeff n = 0 := by
  rw [coeff_mul]
  refine Finset.sum_eq_zero fun x hx => ?_
  rw [coeff_natPoly, coeff_natPoly]
  obtain hbit | hbit := h x.1 x.2 (Finset.HasAntidiagonal.mem_antidiagonal.1 hx) <;> simp [hbit]

/-- The product of `a` bits with `b` bits has `a + b - 1` bits (40_gf128.md R124, R126). -/
theorem coeff_natPoly_mul_eq_zero_of_lt {p q a b n : Nat} (hp : p < 2 ^ a) (hq : q < 2 ^ b)
    (hn : a + b ≤ n + 1) : (natPoly p * natPoly q).coeff n = 0 := by
  have hhigh : ∀ {z c i : Nat}, z < 2 ^ c → c ≤ i → z.testBit i = false := fun hz hi =>
    Nat.testBit_lt_two_pow (hz.trans_le (Nat.pow_le_pow_right two_pos hi))
  refine coeff_natPoly_mul_eq_zero fun s t hst => ?_
  obtain hs | ht : a ≤ s ∨ b ≤ t := by omega
  · exact .inl (hhigh hp hs)
  · exact .inr (hhigh hq ht)

theorem mod_two_pow_succ_of_bit {n k : Nat} (h : n.testBit k = true) :
    n % 2 ^ (k + 1) = n % 2 ^ k + 2 ^ k := by
  rw [Nat.mod_pow_succ, ← Nat.toNat_testBit, h, Bool.toNat_true, mul_one]

theorem mod_two_pow_succ_of_not_bit {n k : Nat} (h : n.testBit k = false) :
    n % 2 ^ (k + 1) = n % 2 ^ k := by
  rw [Nat.mod_pow_succ, ← Nat.toNat_testBit, h, Bool.toNat_false, mul_zero, add_zero]

/-- The next one of a number adds its power of `X`. -/
theorem natPoly_mod_two_pow_succ_of_bit {n k : Nat} (h : n.testBit k = true) :
    natPoly (n % 2 ^ (k + 1)) = natPoly (n % 2 ^ k) + X ^ k := by
  ext i
  simp only [coeff_add, coeff_natPoly, coeff_X_pow, Nat.testBit_mod_two_pow]
  obtain hlt | rfl | hgt := lt_trichotomy i k
  · simp [hlt, hlt.ne, hlt.trans k.lt_succ_self]
  · simp [h]
  · simp [hgt.ne', not_lt.2 hgt.le, not_lt.2 (Nat.succ_le_of_lt hgt)]

/-! ### The polynomial of a bit string -/

/-- The polynomial over GF(2) of a bit string, bit `i` at `X ^ i`. -/
noncomputable def bitPoly {w : Nat} (v : BitVec w) : (ZMod 2)[X] := natPoly v.toNat

section
variable {w n : Nat}

theorem coeff_bitPoly (v : BitVec w) (i : Nat) :
    (bitPoly v).coeff i = ((v.getLsbD i).toNat : ZMod 2) := coeff_natPoly v.toNat i

theorem bitPoly_inj {u v : BitVec w} (h : bitPoly u = bitPoly v) : u = v := by
  have hbool : ∀ a b : Bool, (a.toNat : ZMod 2) = b.toNat → a = b := by decide
  refine BitVec.eq_of_getLsbD_eq fun i _ => hbool _ _ ?_
  rw [← coeff_bitPoly, ← coeff_bitPoly, h]

theorem degree_bitPoly_lt (v : BitVec w) : (bitPoly v).degree < w := degree_natPoly_lt v.isLt

@[simp] theorem bitPoly_zero : bitPoly 0#w = 0 := by simp [bitPoly]

@[simp] theorem bitPoly_xor (u v : BitVec w) : bitPoly (u ^^^ v) = bitPoly u + bitPoly v := by
  simp only [bitPoly, BitVec.toNat_xor, natPoly_xor]

/-- A bit string made longer has the same polynomial. -/
theorem bitPoly_setWidth {v : BitVec w} (h : w ≤ n) : bitPoly (v.setWidth n) = bitPoly v := by
  rw [bitPoly, BitVec.toNat_setWidth_of_le h, bitPoly]

/-- A shift that loses no bit multiplies by a power of `X`. -/
theorem bitPoly_shiftLeft {v : BitVec w} {k m : Nat} (hv : v.toNat < 2 ^ m) (h : m + k ≤ w) :
    bitPoly (v <<< k) = X ^ k * bitPoly v := by
  have hfits : v.toNat * 2 ^ k < 2 ^ w :=
    calc v.toNat * 2 ^ k < 2 ^ m * 2 ^ k := Nat.mul_lt_mul_of_pos_right hv (Nat.two_pow_pos k)
      _ = 2 ^ (m + k) := (pow_add 2 m k).symm
      _ ≤ 2 ^ w := Nat.pow_le_pow_right two_pos h
  rw [bitPoly, BitVec.toNat_shiftLeft, Nat.shiftLeft_eq, Nat.mod_eq_of_lt hfits, natPoly_mul_two_pow,
    bitPoly]

theorem bitPoly_setWidth_shiftLeft {v : BitVec w} {k : Nat} (h : w + k ≤ n) :
    bitPoly (v.setWidth n <<< k) = X ^ k * bitPoly v := by
  have hw : w ≤ n := by omega
  rw [bitPoly_shiftLeft (m := w) (BitVec.toNat_setWidth_of_le hw ▸ v.isLt) h, bitPoly_setWidth hw]

/-- The carryless product of the low `k` bits, where the width holds it (40_gf128.md R120). -/
theorem bitPoly_clmulLow {u v : BitVec w} {m : Nat} (hv : v.toNat < 2 ^ m) :
    ∀ {k : Nat}, m + k ≤ w → bitPoly (clmulLow u v k) = natPoly (u.toNat % 2 ^ k) * bitPoly v
  | 0, _ => by simp [clmulLow, Nat.mod_one]
  | k + 1, h => by
    rw [clmulLow, bitPoly_xor, bitPoly_clmulLow hv (by omega)]
    cases hbit : u.getLsbD k with
    | false =>
      rw [mod_two_pow_succ_of_not_bit hbit]
      simp
    | true =>
      rw [natPoly_mod_two_pow_succ_of_bit hbit, if_pos rfl, bitPoly_shiftLeft hv (by omega), add_mul]

/-- `clmul` is the product of polynomials (40_gf128.md R120). -/
theorem bitPoly_clmul (u v : Block) : bitPoly (clmul u v) = bitPoly u * bitPoly v := by
  have hfits : ∀ z : Block, (z.setWidth 256).toNat = z.toNat := fun z =>
    BitVec.toNat_setWidth_of_le (by decide)
  rw [clmul, bitPoly_clmulLow (m := 128) (hfits v ▸ v.isLt) (by decide), hfits,
    Nat.mod_eq_of_lt u.isLt, bitPoly_setWidth (by decide), bitPoly, bitPoly]

/-! ### Words of a bit string -/

/-- Two neighbouring pieces of a bit string make one piece. -/
theorem bitPoly_extractLsb'_add (v : BitVec w) (s a b : Nat) :
    bitPoly (v.extractLsb' s (a + b)) =
      bitPoly (v.extractLsb' s a) + X ^ a * bitPoly (v.extractLsb' (s + a) b) := by
  ext i
  simp only [coeff_add, coeff_X_pow_mul', coeff_bitPoly, BitVec.getLsbD_extractLsb']
  by_cases hi : a ≤ i
  · have hplace : s + a + (i - a) = s + i := by omega
    have hlen : i < a + b ↔ i - a < b := by omega
    simp [hi, not_lt.2 hi, hplace, hlen]
  · have hlen : i < a + b := by omega
    simp [hi, hlen, not_le.1 hi]

/-- The first `n` words of 32 bits of a bit string. -/
theorem bitPoly_extract_words (v : BitVec w) (n : Nat) :
    bitPoly (v.extractLsb' 0 (32 * n)) =
      ∑ k ∈ Finset.range n, X ^ (32 * k) * bitPoly (v.extractLsb' (32 * k) 32) := by
  induction n with
  | zero => simp [bitPoly]
  | succ n ih => rw [Finset.sum_range_succ, ← ih, mul_add, mul_one, bitPoly_extractLsb'_add, zero_add]

end

end Sys2Proof.Machine
end

section
/-! The carryless product of two words from integer products on interleaved planes (40_gf128.md R125).
Cut into lanes of four bits that start at the bits of one plane, an integer product on planes holds at
most 8 in each lane, so no carry leaves a lane and the lowest bit of each is a parity. -/

namespace Sys2Proof.Machine

open Polynomial

/-! ### Planes and lanes -/

/-- Every one of the number stands on plane `k`: at a place that is `k` modulo 4. -/
def OnPlane (k p : Nat) : Prop := ∀ i, p.testBit i = true → i % 4 = k

/-- Every lane of four bits that starts on plane `k` holds at most `b`, and nothing stands below the
first lane. -/
def LanesAtMost (k b p : Nat) : Prop := 2 ^ k ∣ p ∧ ∀ m, p / 2 ^ (k + 4 * m) % 16 ≤ b

section
variable {k b c p q : Nat}

theorem LanesAtMost.mono (h : LanesAtMost k b p) (hbc : b ≤ c) : LanesAtMost k c p :=
  ⟨h.1, fun m => (h.2 m).trans hbc⟩

theorem lanesAtMost_zero (k b : Nat) : LanesAtMost k b 0 := ⟨dvd_zero _, fun m => by simp⟩

theorem OnPlane.mul_two_pow {i j s : Nat} (h : OnPlane j p) (hs : s % 4 = i) :
    OnPlane ((i + j) % 4) (p * 2 ^ s) := by
  intro n hn
  rw [Nat.testBit_mul_two_pow, Bool.and_eq_true, decide_eq_true_eq] at hn
  have hplane : (n - s) % 4 = j := h _ hn.2
  omega

/-- On one plane each lane holds 0 or 1. -/
theorem OnPlane.lanesAtMost (h : OnPlane k p) (hk : k < 4) : LanesAtMost k 1 p := by
  have hoff : ∀ i, i % 4 ≠ k → p.testBit i = false := fun i hi =>
    Bool.eq_false_iff.2 (mt (h i) hi)
  refine ⟨Nat.dvd_of_mod_eq_zero (Nat.eq_of_testBit_eq fun i => ?_), fun m => ?_⟩
  · rw [Nat.testBit_mod_two_pow, Nat.zero_testBit]
    by_cases hi : i < k
    · rw [hoff i (by omega), Bool.and_false]
    · simp [hi]
  · have hclear : ∀ d, 0 < d → d < 4 → p / 2 ^ (k + 4 * m) / 2 ^ d % 2 = 0 := by
      intro d hd hd4
      rw [← Nat.toNat_testBit, Nat.testBit_div_two_pow, hoff _ (by omega), Bool.toNat_false]
    have h1 := hclear 1 (by decide) (by decide)
    have h2 := hclear 2 (by decide) (by decide)
    have h3 := hclear 3 (by decide) (by decide)
    omega

/-- Lanes whose sums stay below 16 add without a carry from lane to lane. -/
theorem LanesAtMost.add_div (hp : LanesAtMost k b p) (hq : LanesAtMost k c q) (hbc : b + c < 16)
    (m : Nat) : (p + q) / 2 ^ (k + 4 * m) = p / 2 ^ (k + 4 * m) + q / 2 ^ (k + 4 * m) := by
  induction m with
  | zero => exact Nat.add_div_of_dvd_right hp.1
  | succ m ih =>
    have hstep : 2 ^ (k + 4 * (m + 1)) = 2 ^ (k + 4 * m) * 16 := pow_add 2 (k + 4 * m) 4
    simp only [hstep, ← Nat.div_div_eq_div_mul, ih]
    have hlanep := hp.2 m
    have hlaneq := hq.2 m
    omega

theorem LanesAtMost.add (hp : LanesAtMost k b p) (hq : LanesAtMost k c q) (hbc : b + c < 16) :
    LanesAtMost k (b + c) (p + q) := by
  refine ⟨dvd_add hp.1 hq.1, fun m => ?_⟩
  rw [hp.add_div hq hbc m]
  have hlanep := hp.2 m
  have hlaneq := hq.2 m
  omega

/-- Without carries the lowest bit of a lane of the sum is the exclusive-or of the two. -/
theorem LanesAtMost.coeff_natPoly_add (hp : LanesAtMost k b p) (hq : LanesAtMost k c q)
    (hbc : b + c < 16) (m : Nat) : (natPoly (p + q)).coeff (k + 4 * m) =
      (natPoly p).coeff (k + 4 * m) + (natPoly q).coeff (k + 4 * m) := by
  simp only [coeff_natPoly_eq_cast_div, hp.add_div hq hbc m, Nat.cast_add]

end

/-! ### The integer product of two planes -/

section
variable {i j p q : Nat}

/-- The integer product of the low `s` bits of `p` with `q`, one bit at a time: plane `i` has
`(s + 3 - i) / 4` places below `s`, each of which adds at most 1 to a lane, and the lanes' lowest bits are
those of the carryless product. -/
theorem lanes_mul_of_onPlane (hi : i < 4) (hp : OnPlane i p) (hq : OnPlane j q) {s : Nat}
    (hs : s ≤ 32) :
    LanesAtMost ((i + j) % 4) ((s + 3 - i) / 4) (p % 2 ^ s * q) ∧
    ∀ m, (natPoly (p % 2 ^ s * q)).coeff ((i + j) % 4 + 4 * m) =
      (natPoly (p % 2 ^ s) * natPoly q).coeff ((i + j) % 4 + 4 * m) := by
  induction s with
  | zero => simp [Nat.mod_one, lanesAtMost_zero]
  | succ s ih =>
    obtain ⟨hlanes, hcoeff⟩ := ih (by omega)
    cases hbit : p.testBit s with
    | false =>
      rw [mod_two_pow_succ_of_not_bit hbit]
      exact ⟨hlanes.mono (by omega), hcoeff⟩
    | true =>
      have hplane : s % 4 = i := hp s hbit
      have hterm : LanesAtMost ((i + j) % 4) 1 (q * 2 ^ s) :=
        (hq.mul_two_pow hplane).lanesAtMost (Nat.mod_lt _ (by decide))
      have hroom : (s + 3 - i) / 4 + 1 < 16 := by omega
      have hsum : p % 2 ^ (s + 1) * q = p % 2 ^ s * q + q * 2 ^ s := by
        rw [mod_two_pow_succ_of_bit hbit, add_mul, mul_comm (2 ^ s)]
      rw [hsum, natPoly_mod_two_pow_succ_of_bit hbit]
      refine ⟨(hlanes.add hterm hroom).mono (by omega), fun m => ?_⟩
      rw [hlanes.coeff_natPoly_add hterm hroom, hcoeff, natPoly_mul_two_pow, add_mul, coeff_add]

/-- The carryless product of two planes stands on one plane. -/
theorem coeff_natPoly_mul_of_onPlane (hp : OnPlane i p) (hq : OnPlane j q) {n : Nat}
    (hn : n % 4 ≠ (i + j) % 4) : (natPoly p * natPoly q).coeff n = 0 := by
  refine coeff_natPoly_mul_eq_zero fun s t hst => ?_
  simp only [← Bool.not_eq_true]
  by_contra! hboth
  have hs : s % 4 = i := hp s hboth.1
  have ht : t % 4 = j := hq t hboth.2
  omega

end

/-! ### The plane multiplier -/

theorem getLsbD_planeMask {k n : Nat} (hk : k < 4) (hn : n < 64) :
    (planeMask k).getLsbD n = decide (n % 4 = k) := by
  have hall : ∀ k < 4, ∀ n < 64, (planeMask k).getLsbD n = decide (n % 4 = k) := by decide +kernel
  exact hall k hk n hn

theorem onPlane_subWord (x : Word) {i : Nat} (hi : i < 4) : OnPlane i (subWord x i).toNat := by
  intro n hn
  rw [BitVec.testBit_toNat] at hn
  have hn64 : n < 64 := BitVec.lt_of_getLsbD hn
  rw [subWord, BitVec.getLsbD_and, getLsbD_planeMask hi hn64, Bool.and_eq_true] at hn
  exact of_decide_eq_true hn.2

theorem subWord_toNat_lt (x : Word) (i : Nat) : (subWord x i).toNat < 2 ^ 32 := by
  rw [subWord, BitVec.toNat_and, BitVec.toNat_setWidth_of_le (by decide)]
  exact Nat.and_le_left.trans_lt x.isLt

/-- An integer product of two planes, masked back to its plane, is their carryless product
(40_gf128.md R125). -/
theorem bitPoly_subWord_mul (x y : Word) {i j : Nat} (hi : i < 4) (hj : j < 4) :
    bitPoly (subWord x i * subWord y j &&& planeMask ((i + j) % 4)) =
      bitPoly (subWord x i) * bitPoly (subWord y j) := by
  have hx := onPlane_subWord x hi
  have hy := onPlane_subWord y hj
  ext n
  rw [coeff_bitPoly, BitVec.getLsbD_and]
  by_cases hn : n < 64
  · rw [getLsbD_planeMask (Nat.mod_lt _ (by decide)) hn]
    by_cases hplane : n % 4 = (i + j) % 4
    · have hproduct := (lanes_mul_of_onPlane hi hx hy le_rfl).2 (n / 4)
      rw [Nat.mod_eq_of_lt (subWord_toNat_lt x i), ← hplane, Nat.mod_add_div,
        coeff_natPoly] at hproduct
      rw [decide_eq_true hplane, Bool.and_true, ← BitVec.testBit_toNat, BitVec.toNat_mul,
        Nat.testBit_mod_two_pow, decide_eq_true hn, Bool.true_and, hproduct, bitPoly, bitPoly]
    · rw [decide_eq_false hplane, Bool.and_false, Bool.toNat_false, Nat.cast_zero, bitPoly, bitPoly,
        coeff_natPoly_mul_of_onPlane hx hy hplane]
  · rw [BitVec.getLsbD_of_ge _ n (not_lt.1 hn), Bool.false_and, Bool.toNat_false, Nat.cast_zero,
      bitPoly, bitPoly,
      coeff_natPoly_mul_eq_zero_of_lt (subWord_toNat_lt x i) (subWord_toNat_lt y j) (by omega)]

theorem and_planes_or_eq_xor (p0 p1 p2 p3 : BitVec 64) :
    (p0 &&& planeMask 0) ||| (p1 &&& planeMask 1) ||| (p2 &&& planeMask 2) ||| (p3 &&& planeMask 3) =
      (p0 &&& planeMask 0) ^^^ (p1 &&& planeMask 1) ^^^ (p2 &&& planeMask 2) ^^^ (p3 &&& planeMask 3) := by
  refine BitVec.eq_of_getLsbD_eq fun n hn => ?_
  simp only [BitVec.getLsbD_or, BitVec.getLsbD_xor, BitVec.getLsbD_and, getLsbD_planeMask, hn,
    Nat.reduceLT]
  have hplane : n % 4 < 4 := Nat.mod_lt _ (by decide)
  interval_cases n % 4 <;> simp

/-- A word is the sum of its four planes. -/
theorem bitPoly_eq_sum_subWord (x : Word) :
    bitPoly x = bitPoly (subWord x 0) + bitPoly (subWord x 1) + bitPoly (subWord x 2) +
      bitPoly (subWord x 3) := by
  have hsplit : x.setWidth 64 = subWord x 0 ^^^ subWord x 1 ^^^ subWord x 2 ^^^ subWord x 3 := by
    have hall : planeMask 0 ||| planeMask 1 ||| planeMask 2 ||| planeMask 3 = BitVec.allOnes 64 := by
      decide
    simp only [subWord, ← and_planes_or_eq_xor, ← BitVec.and_or_distrib_left, hall,
      BitVec.and_allOnes]
  rw [← bitPoly_setWidth (n := 64) (by decide), hsplit, bitPoly_xor, bitPoly_xor, bitPoly_xor]

/-- A term of `z_k`, masked to plane `k`. -/
theorem bitPoly_planeTerm_and (x y : Word) {k i : Nat} (hk : k < 4) (hi : i < 4) :
    bitPoly (planeTerm x y k i &&& planeMask k) =
      bitPoly (subWord x i) * bitPoly (subWord y ((k + 4 - i) % 4)) := by
  have hplane : (i + (k + 4 - i) % 4) % 4 = k := by omega
  rw [← bitPoly_subWord_mul x y hi (Nat.mod_lt _ (by decide)), hplane, planeTerm]

/-- `z_k` masked to plane `k`: the four pairs of planes whose places add to that plane. -/
theorem bitPoly_planeSum_and (x y : Word) {k : Nat} (hk : k < 4) :
    bitPoly (planeSum x y k &&& planeMask k) =
      bitPoly (subWord x 0) * bitPoly (subWord y ((k + 4) % 4)) +
      bitPoly (subWord x 1) * bitPoly (subWord y ((k + 3) % 4)) +
      bitPoly (subWord x 2) * bitPoly (subWord y ((k + 2) % 4)) +
      bitPoly (subWord x 3) * bitPoly (subWord y ((k + 1) % 4)) := by
  have hmask : ∀ u v m : BitVec 64, (u ^^^ v) &&& m = (u &&& m) ^^^ (v &&& m) := fun u v m =>
    BitVec.eq_of_toNat_eq (by simp only [BitVec.toNat_and, BitVec.toNat_xor, Nat.and_xor_distrib_right])
  simp only [planeSum, hmask, bitPoly_xor]
  rw [bitPoly_planeTerm_and x y hk (by decide), bitPoly_planeTerm_and x y hk (by decide),
    bitPoly_planeTerm_and x y hk (by decide), bitPoly_planeTerm_and x y hk (by decide)]
  rfl

/-- The plane multiplier computes the carryless product of two words (40_gf128.md R125). -/
theorem bitPoly_clmul32Planes (x y : Word) : bitPoly (clmul32Planes x y) = bitPoly x * bitPoly y := by
  rw [clmul32Planes, and_planes_or_eq_xor, bitPoly_xor, bitPoly_xor, bitPoly_xor,
    bitPoly_planeSum_and x y (by decide), bitPoly_planeSum_and x y (by decide),
    bitPoly_planeSum_and x y (by decide), bitPoly_planeSum_and x y (by decide),
    bitPoly_eq_sum_subWord x, bitPoly_eq_sum_subWord y]
  ring

end Sys2Proof.Machine
end

section
/-! The five-step datapath (40_gf128.md R123 to R128): the limbs of a block are the words of its
natural-order number, the limb products make the whole product, and the reduction word by word and
`polymod` both keep the residue modulo the field polynomial, which determines a block. -/

namespace Sys2Proof.Machine

open Polynomial

/-! ### Limbs (R123, R128) -/

theorem getLsbD_natOrder (a : Block) {i : Nat} (h : i < 128) :
    (natOrder a).getLsbD i = a.getLsbD (127 - i) := by
  rw [natOrder, BitVec.getLsbD_reverse, BitVec.getMsbD_eq_getLsbD]
  simp [h]

/-- Limb `k` is word `k` of the natural-order number (40_gf128.md R123). -/
theorem limb_eq_extract_natOrder (a : Block) {k : Nat} (hk : k < 4) :
    limb a k = (natOrder a).extractLsb' (32 * k) 32 := by
  refine BitVec.eq_of_getLsbD_eq fun i hi => ?_
  have hplace : 32 * (3 - k) + (31 - i) = 127 - (32 * k + i) := by omega
  rw [limb, getLsbD_rev32 _ hi, blockWord, BitVec.getLsbD_extractLsb', BitVec.getLsbD_extractLsb',
    getLsbD_natOrder a (by omega), hplace, decide_eq_true hi, decide_eq_true (by omega)]

theorem getLsbD_rev32_extract (z : Block) (s : Nat) {i : Nat} (h : i < 32) :
    (rev32 (z.extractLsb' s 32)).getLsbD i = z.getLsbD (s + (31 - i)) := by
  rw [getLsbD_rev32 _ h, BitVec.getLsbD_extractLsb', decide_eq_true (by omega), Bool.true_and]

/-- The words un-reflected and stored big-endian are the bits of the whole reversed, so step 5 undoes
step 1 (40_gf128.md R128). -/
theorem storeLimbs_eq_natOrder (z : Block) : storeLimbs z = natOrder z := by
  refine BitVec.eq_of_getLsbD_eq fun i hi => ?_
  rw [getLsbD_natOrder z hi, storeLimbs]
  simp only [BitVec.getLsbD_append]
  split_ifs
  all_goals
    rw [getLsbD_rev32_extract z _ (by omega)]
    congr 1
    omega

/-! ### The limb products (R126) -/

theorem bitPoly_natOrder (a : Block) :
    bitPoly (natOrder a) = bitPoly (limb a 0) + X ^ 32 * bitPoly (limb a 1) +
      X ^ 64 * bitPoly (limb a 2) + X ^ 96 * bitPoly (limb a 3) := by
  have hwords := bitPoly_extract_words (natOrder a) 4
  rw [BitVec.extractLsb'_eq_self] at hwords
  simpa [Finset.sum_range_succ, limb_eq_extract_natOrder] using hwords

theorem bitPoly_placed (p : BitVec 64) {n : Nat} (hn : n ≤ 6) :
    bitPoly (placed p n) = X ^ (32 * n) * bitPoly p :=
  bitPoly_setWidth_shiftLeft (by omega)

/-- The sixteen limb products make the 256-bit product (40_gf128.md R126). -/
theorem schoolbook_eq_clmul (a b : Block) : schoolbook a b = clmul (natOrder a) (natOrder b) := by
  have hrange : List.range 4 = [0, 1, 2, 3] := rfl
  refine bitPoly_inj ?_
  rw [bitPoly_clmul, bitPoly_natOrder a, bitPoly_natOrder b, schoolbook, hrange]
  simp only [List.foldl_cons, List.foldl_nil, bitPoly_xor, bitPoly_placed, bitPoly_clmul32Planes,
    Nat.reduceLeDiff, Nat.reduceAdd, BitVec.ofNat_eq_ofNat, bitPoly_zero]
  ring

/-- Bit 255 of a product is 0 (40_gf128.md R126). -/
theorem getLsbD_clmul_top (u v : Block) : (clmul u v).getLsbD 255 = false := by
  have hbool : ∀ b : Bool, (b.toNat : ZMod 2) = 0 → b = false := by decide
  refine hbool _ ?_
  rw [← coeff_bitPoly, bitPoly_clmul]
  exact coeff_natPoly_mul_eq_zero_of_lt u.isLt v.isLt (by decide)

/-! ### Residues modulo the field polynomial -/

/-- The polynomial of `P` as R120 writes it. -/
theorem bitPoly_fieldPoly : bitPoly fieldPoly = X ^ 128 + X ^ 7 + X ^ 2 + X + 1 := by
  have hbits : fieldPoly.toNat = 2 ^ 128 ^^^ 2 ^ 7 ^^^ 2 ^ 2 ^^^ 2 ^ 1 ^^^ 2 ^ 0 := by decide
  simp only [bitPoly, hbits, natPoly_xor, natPoly_two_pow]
  rw [pow_zero, pow_one]

/-- The class of a bit string in GF(2)[X] modulo the field polynomial. -/
noncomputable def residue {w : Nat} (v : BitVec w) : AdjoinRoot (bitPoly fieldPoly) :=
  AdjoinRoot.mk _ (bitPoly v)

/-- Blocks with the same residue are equal: both have degree below 128. -/
theorem residue_inj {u v : Block} (h : residue u = residue v) : u = v := by
  have hdvd : bitPoly fieldPoly ∣ bitPoly (u ^^^ v) := by
    rw [bitPoly_xor, ← CharTwo.sub_eq_add]
    exact AdjoinRoot.mk_eq_mk.1 h
  have hcoeff : (bitPoly fieldPoly).coeff 128 ≠ 0 := by
    have hbit : fieldPoly.getLsbD 128 = true := by decide
    rw [coeff_bitPoly, hbit]
    decide
  have hzero : bitPoly (u ^^^ v) = 0 := eq_zero_of_dvd_of_degree_lt hdvd
    ((degree_bitPoly_lt _).trans_le (le_degree_of_ne_zero hcoeff))
  have hxor : u ^^^ v = 0#128 := bitPoly_inj (hzero.trans bitPoly_zero.symm)
  exact BitVec.xor_eq_zero_iff.1 hxor

theorem residue_xor {w : Nat} (u v : BitVec w) : residue (u ^^^ v) = residue u + residue v := by
  rw [residue, bitPoly_xor, map_add, residue, residue]

theorem getLsbD_fieldPoly_high {i : Nat} (h : 128 < i) : fieldPoly.getLsbD i = false := by
  have hlt : fieldPoly.toNat < 2 ^ 129 := by decide
  exact Nat.testBit_lt_two_pow (hlt.trans_le (Nat.pow_le_pow_right two_pos h))

theorem residue_fieldPoly_shiftLeft {n : Nat} (hn : n ≤ 127) : residue (fieldPoly <<< n) = 0 := by
  rw [residue, bitPoly_shiftLeft (m := 129) (by decide) (by omega), map_mul, AdjoinRoot.mk_self,
    mul_zero]

/-! ### The definition of `polymod` (R120) -/

theorem residue_polymodLoop (p : Wide) {n : Nat} (hn : n ≤ 127) :
    residue (polymodLoop p n) = residue p := by
  induction n generalizing p with
  | zero => rfl
  | succ n ih =>
    rw [polymodLoop, ih _ (by omega)]
    split
    · rw [residue_xor, residue_fieldPoly_shiftLeft (by omega), add_zero]
    · rfl

/-- The loop clears the bits it passes. -/
theorem getLsbD_polymodLoop_high {p : Wide} {n : Nat} (h : ∀ i, 128 + n ≤ i → p.getLsbD i = false) :
    ∀ i, 128 ≤ i → (polymodLoop p n).getLsbD i = false := by
  induction n generalizing p with
  | zero => exact h
  | succ n ih =>
    refine ih fun i hi => ?_
    obtain rfl | hgt := hi.eq_or_lt
    · have htop : fieldPoly.getLsbD 128 = true := by decide
      split
      case isTrue hbit =>
        have hlt : 128 + n < 256 := BitVec.lt_of_getLsbD hbit
        have hfold : (fieldPoly <<< n).getLsbD (128 + n) = true := by
          rw [BitVec.getLsbD_shiftLeft, Nat.add_sub_cancel, htop]
          simp [hlt]
        rw [BitVec.getLsbD_xor, hbit, hfold, Bool.xor_self]
      case isFalse hbit => exact Bool.eq_false_iff.2 hbit
    · have hp : p.getLsbD i = false := h i hgt
      have hfold : (fieldPoly <<< n).getLsbD i = false := by
        rw [BitVec.getLsbD_shiftLeft, getLsbD_fieldPoly_high (by omega), Bool.and_false]
      split
      · rw [BitVec.getLsbD_xor, hp, hfold, Bool.false_xor]
      · exact hp

theorem bitPoly_setWidth_of_high {p : Wide} (h : ∀ i, 128 ≤ i → p.getLsbD i = false) :
    bitPoly (p.setWidth 128) = bitPoly p := by
  ext i
  rw [coeff_bitPoly, coeff_bitPoly, BitVec.getLsbD_setWidth]
  by_cases hi : i < 128
  · simp [hi]
  · simp [hi, h i (not_lt.1 hi)]

/-- `polymod` keeps the residue of a number whose bit 255 is 0 (40_gf128.md R120). -/
theorem residue_polymod {p : Wide} (h : p.getLsbD 255 = false) : residue (polymod p) = residue p := by
  have hhigh : ∀ i, 128 + 127 ≤ i → p.getLsbD i = false := by
    intro i hi
    obtain rfl | hgt := hi.eq_or_lt
    · exact h
    · exact BitVec.getLsbD_of_ge p i hgt
  rw [residue, polymod, bitPoly_setWidth_of_high (getLsbD_polymodLoop_high hhigh)]
  exact residue_polymodLoop p le_rfl

/-! ### Reduction word by word (R127) -/

/-- What a shift of a word up by `s` loses is the word shifted down by `32 - s`. -/
theorem X_pow_mul_bitPoly (v : Word) {s : Nat} (hs : s ≤ 32) :
    X ^ s * bitPoly v = bitPoly (v <<< s) + X ^ 32 * bitPoly (v >>> (32 - s)) := by
  ext i
  simp only [coeff_add, coeff_X_pow_mul', coeff_bitPoly, BitVec.getLsbD_shiftLeft,
    BitVec.getLsbD_ushiftRight]
  by_cases hi : i < 32
  · by_cases hsi : s ≤ i
    · simp [hi, hsi, not_le.2 hi, not_lt.2 hsi]
    · simp [hsi, not_le.2 hi, not_le.1 hsi]
  · have hplace : 32 - s + (i - 32) = i - s := by omega
    simp [hi, not_lt.1 hi, hs.trans (not_lt.1 hi), hplace]

/-- Placing a word and then keeping the low `n` bits is placing it among `n` bits. -/
theorem extractLsb'_setWidth_shiftLeft (v : Word) (s : Nat) {n : Nat} (hn : n ≤ 256) :
    (v.setWidth 256 <<< s).extractLsb' 0 n = v.setWidth n <<< s := by
  refine BitVec.eq_of_getLsbD_eq fun i hi => ?_
  have hi256 : i < 256 := by omega
  simp [hi, hi256]

/-- Folding word `k` into the words below it replaces `X ^ 128` by `X ^ 7 + X ^ 2 + X + 1`. -/
theorem bitPoly_foldWord (p : Wide) {k : Nat} (hk : 4 ≤ k) (hk7 : k ≤ 7) :
    bitPoly ((foldWord k p).extractLsb' 0 (32 * k)) = bitPoly (p.extractLsb' 0 (32 * k)) +
      X ^ (32 * (k - 4)) * ((X ^ 7 + X ^ 2 + X + 1) * bitPoly (p.extractLsb' (32 * k) 32)) := by
  have hxor : ∀ u v : Wide, (u ^^^ v).extractLsb' 0 (32 * k) =
      u.extractLsb' 0 (32 * k) ^^^ v.extractLsb' 0 (32 * k) := fun u v => BitVec.extractLsb'_xor
  have hhigh : X ^ (32 * (k - 3)) = X ^ (32 * (k - 4)) * (X ^ 32 : (ZMod 2)[X]) := by
    rw [← pow_add]
    congr 1
    omega
  have hcut := fun v s => extractLsb'_setWidth_shiftLeft v s (n := 32 * k) (by omega)
  have h1 := X_pow_mul_bitPoly (p.extractLsb' (32 * k) 32) (s := 1) (by decide)
  have h2 := X_pow_mul_bitPoly (p.extractLsb' (32 * k) 32) (s := 2) (by decide)
  have h7 := X_pow_mul_bitPoly (p.extractLsb' (32 * k) 32) (s := 7) (by decide)
  simp only [foldWord, hxor, hcut, bitPoly_xor]
  rw [bitPoly_setWidth_shiftLeft (by omega), bitPoly_setWidth_shiftLeft (by omega), hhigh]
  simp only [bitPoly_xor]
  linear_combination -(X ^ (32 * (k - 4))) * (h1 + h2 + h7)

/-- Folding word `k` keeps the residue of the words up to it (40_gf128.md R127). -/
theorem residue_foldWord (p : Wide) {k : Nat} (hk : 4 ≤ k) (hk7 : k ≤ 7) :
    residue ((foldWord k p).extractLsb' 0 (32 * k)) = residue (p.extractLsb' 0 (32 * (k + 1))) := by
  have hpow : (X ^ (32 * k) : (ZMod 2)[X]) = X ^ (32 * (k - 4)) * X ^ 128 := by
    rw [← pow_add]
    congr 1
    omega
  rw [residue, residue, AdjoinRoot.mk_eq_mk, bitPoly_foldWord p hk hk7, mul_add, mul_one,
    bitPoly_extractLsb'_add, zero_add, bitPoly_fieldPoly, hpow, CharTwo.sub_eq_add]
  refine ⟨X ^ (32 * (k - 4)) * bitPoly (p.extractLsb' (32 * k) 32), ?_⟩
  linear_combination CharTwo.add_self_eq_zero (bitPoly (p.extractLsb' 0 (32 * k)))

/-- The reduction word by word keeps the residue (40_gf128.md R127). -/
theorem residue_reduceWords (p : Wide) : residue (reduceWords p) = residue p := by
  have hlow : ∀ q : Wide, q.setWidth 128 = q.extractLsb' 0 (32 * 4) := fun q => by
    refine BitVec.eq_of_getLsbD_eq fun i hi => ?_
    simp [hi]
  rw [reduceWords, hlow, residue_foldWord _ (by decide) (by decide),
    residue_foldWord _ (by decide) (by decide), residue_foldWord _ (by decide) (by decide),
    residue_foldWord _ (by decide) (by decide), BitVec.extractLsb'_eq_self]

/-- Step 4 is `polymod` wherever bit 255 is 0 (40_gf128.md R127). -/
theorem reduceWords_eq_polymod {p : Wide} (h : p.getLsbD 255 = false) : reduceWords p = polymod p :=
  residue_inj ((residue_reduceWords p).trans (residue_polymod h).symm)

/-- Settles O30: step by step, the limb products make the carryless product (`schoolbook_eq_clmul`), whose
bit 255 is 0, so its reduction is `polymod` (`reduceWords_eq_polymod`), and the last step reflects as `nat`
does (`storeLimbs_eq_natOrder`). -/
theorem datapathIsFieldProduct : Obligations.DatapathIsFieldProduct := by
  intro a b
  calc
    gf128Datapath a b = natOrder (reduceWords (schoolbook a b)) := storeLimbs_eq_natOrder _
    _ = natOrder (reduceWords (clmul (natOrder a) (natOrder b))) := by rw [schoolbook_eq_clmul]
    _ = gf128Mul a b := by rw [reduceWords_eq_polymod (getLsbD_clmul_top _ _), gf128Mul]

end Sys2Proof.Machine
end

section
/-! Laws of the field product (40_gf128.md R121): in natural order it is the product of residues, so it
distributes over exclusive-or and zero absorbs. -/

namespace Sys2Proof.Machine

@[simp] theorem natOrder_natOrder (a : Block) : natOrder (natOrder a) = a :=
  BitVec.reverse_reverse_eq

theorem natOrder_xor (a b : Block) : natOrder (a ^^^ b) = natOrder a ^^^ natOrder b := by
  refine BitVec.eq_of_getLsbD_eq fun i hi => ?_
  simp only [BitVec.getLsbD_xor, getLsbD_natOrder _ hi]

/-- Blocks whose natural-order numbers have the same residue are equal. -/
theorem eq_of_residue_natOrder {a b : Block} (h : residue (natOrder a) = residue (natOrder b)) :
    a = b := by
  rw [← natOrder_natOrder a, residue_inj h, natOrder_natOrder]

/-- `gf128_mul` multiplies residues (40_gf128.md R120). -/
theorem residue_natOrder_gf128Mul (a b : Block) :
    residue (natOrder (gf128Mul a b)) = residue (natOrder a) * residue (natOrder b) := by
  rw [gf128Mul, natOrder_natOrder, residue_polymod (getLsbD_clmul_top _ _), residue, bitPoly_clmul,
    map_mul, residue, residue]

theorem residue_natOrder_zero : residue (natOrder 0) = 0 := by
  have hzero : natOrder 0 = 0#128 := BitVec.eq_of_getLsbD_eq fun i hi => by
    rw [getLsbD_natOrder _ hi, BitVec.ofNat_eq_ofNat, BitVec.getLsbD_zero, BitVec.getLsbD_zero]
  rw [hzero, residue, bitPoly_zero, map_zero]

theorem gf128Mul_xor_left (a c b : Block) :
    gf128Mul (a ^^^ c) b = gf128Mul a b ^^^ gf128Mul c b := by
  refine eq_of_residue_natOrder ?_
  simp only [natOrder_xor, residue_xor, residue_natOrder_gf128Mul, add_mul]

@[simp] theorem gf128Mul_zero_right (a : Block) : gf128Mul a 0 = 0 := by
  refine eq_of_residue_natOrder ?_
  rw [residue_natOrder_gf128Mul, residue_natOrder_zero, mul_zero]

end Sys2Proof.Machine
end

section
/-! GHASH block by block (41_ghash.md R140): its padding, its linearity in the accumulator, and what it
does under a subkey of zero (R141, R145, R146). -/

namespace Sys2Proof.Machine

/-! ### Padded blocks (R141) -/

/-- Zeros that complete a string to no more than a block are the padding it gets anyway. -/
theorem padBlock_append_zeroBytes {p : List Byte} {k : Nat} (h : p.length + k ≤ 16) :
    padBlock (p ++ zeroBytes k) = padBlock p := by
  have hsplit : zeroBytes k ++ zeroBytes (16 - (p.length + k)) = zeroBytes (16 - p.length) := by
    rw [zeroBytes, zeroBytes, List.replicate_append_replicate, zeroBytes]
    congr 1
    omega
  rw [padBlock, List.length_append, length_zeroBytes, List.append_assoc, hsplit, padBlock]

theorem padBlock_nil : padBlock [] = 0 := by decide

theorem padBlock_zeroBytes {k : Nat} (h : k ≤ 16) : padBlock (zeroBytes k) = 0 := by
  have hpad := padBlock_append_zeroBytes (p := []) (k := k) (by simpa using h)
  rwa [List.nil_append, padBlock_nil] at hpad

/-! ### The loop (R140) -/

/-- Induction on a string as GHASH takes it, a block at a time. -/
theorem block_induction {motive : List Byte → Prop} (nil : motive [])
    (block : ∀ s, s ≠ [] → motive (s.drop 16) → motive s) (s : List Byte) : motive s := by
  by_cases hne : s = []
  · exact hne ▸ nil
  · have hpos : 0 < s.length := List.length_pos_iff.2 hne
    exact block s hne (block_induction nil block (s.drop 16))
termination_by s.length
decreasing_by rw [List.length_drop]; omega

section
variable (h acc : Block)

@[simp] theorem ghashUpdate_nil : ghashUpdate h acc [] = acc := rfl

/-- The first block, padded where it is partial, and then the rest. -/
theorem ghashUpdate_of_ne_nil {s : List Byte} (hne : s ≠ []) :
    ghashUpdate h acc s =
      ghashUpdate h (gf128Mul (acc ^^^ padBlock (s.take 16)) h) (s.drop 16) := by
  rw [ghashUpdate, pieces_of_ne_nil hne, List.foldl_cons, ghashBlock, ghashUpdate]

/-- A string of at most one block is one multiplication. -/
theorem ghashUpdate_block {p : List Byte} (hne : p ≠ []) (hlen : p.length ≤ 16) :
    ghashUpdate h acc p = gf128Mul (acc ^^^ padBlock p) h := by
  rw [ghashUpdate_of_ne_nil h acc hne, List.take_of_length_le hlen, List.drop_of_length_le hlen,
    ghashUpdate_nil]

/-- Whole blocks, and then the rest (41_ghash.md R142). -/
theorem ghashUpdate_append {s : List Byte} (hs : s.length % 16 = 0) (t : List Byte) :
    ghashUpdate h acc (s ++ t) = ghashUpdate h (ghashUpdate h acc s) t := by
  simp only [ghashUpdate, pieces_append hs, List.foldl_append]

/-- The zeros that complete the last block change nothing (41_ghash.md R141). -/
theorem ghashUpdate_append_padding {s : List Byte} (hs : s.length % 16 ≠ 0) :
    ghashUpdate h acc (s ++ zeroBytes (16 - s.length % 16)) = ghashUpdate h acc s := by
  obtain ⟨t, p, rfl, ht, hp⟩ : ∃ t p, s = t ++ p ∧ t.length % 16 = 0 ∧ p.length = s.length % 16 := by
    refine ⟨s.take (16 * (s.length / 16)), s.drop (16 * (s.length / 16)),
      (List.take_append_drop _ s).symm, ?_, ?_⟩
    · rw [List.length_take]; omega
    · rw [List.length_drop]; omega
  have hne : p ≠ [] := List.length_pos_iff.1 (by omega)
  have hlen : p.length < 16 := by omega
  rw [← hp, List.append_assoc, ghashUpdate_append h acc ht, ghashUpdate_append h acc ht,
    ghashUpdate_block _ _ (List.append_ne_nil_of_left_ne_nil hne _)
      (by rw [List.length_append, length_zeroBytes]; omega),
    ghashUpdate_block _ _ hne hlen.le, padBlock_append_zeroBytes (by omega)]

end

/-- Settles O34: the padding law is `ghashUpdate_append_padding`; the five bytes and the sixteen zeros are
one block each (`ghashUpdate_block`), and no bytes are none. -/
theorem ghashPadsLastBlock : Obligations.GhashPadsLastBlock := by
  refine ⟨fun h acc s hs => (ghashUpdate_append_padding h acc hs).symm, fun h acc => ?five,
    ghashUpdate_nil, fun h acc => ?zeros⟩
  case five =>
    have hpad : padBlock [0x01, 0x02, 0x03, 0x04, 0x05] = 0x01020304050000000000000000000000 := by
      decide
    rw [ghashUpdate_block h acc (by decide) (by decide), hpad]
  case zeros =>
    rw [ghashUpdate_block h acc (by decide) (by decide), padBlock_zeroBytes le_rfl,
      BitVec.ofNat_eq_ofNat, BitVec.xor_zero]

/-- Settles O36, a block at a time: the block of the data goes with one accumulator and a block of zeros
with the other, and the product distributes (`gf128Mul_xor_left`). -/
theorem ghashIsLinear : Obligations.GhashIsLinear := by
  intro h acc1 acc2 data
  induction data using block_induction generalizing acc1 acc2 with
  | nil => rfl
  | block s hne ih =>
    have hzeros : zeroBytes s.length ≠ [] := by simpa [zeroBytes] using hne
    have hfirst : padBlock ((zeroBytes s.length).take 16) = 0 := by
      rw [zeroBytes, List.take_replicate]
      exact padBlock_zeroBytes (min_le_left _ _)
    have hrest : (zeroBytes s.length).drop 16 = zeroBytes (s.drop 16).length := by
      simp [zeroBytes]
    have hswap : acc1 ^^^ acc2 ^^^ padBlock (s.take 16) =
        (acc1 ^^^ padBlock (s.take 16)) ^^^ (acc2 ^^^ 0) := by
      rw [BitVec.ofNat_eq_ofNat, BitVec.xor_zero]
      ac_rfl
    rw [ghashUpdate_of_ne_nil _ _ hne, ghashUpdate_of_ne_nil _ _ hne,
      ghashUpdate_of_ne_nil _ _ hzeros, hfirst, hrest, hswap, gf128Mul_xor_left, ih]

/-! ### The command (R144, R146) -/

/-- A subkey of zero makes the accumulator zero at every block (41_ghash.md R146). -/
theorem ghashUpdate_zero_subkey (acc : Block) (s : List Byte) :
    ghashUpdate 0 acc s = if s = [] then acc else 0 := by
  induction s using block_induction generalizing acc with
  | nil => rfl
  | block s hne ih =>
    rw [ghashUpdate_of_ne_nil _ _ hne, gf128Mul_zero_right, ih, ite_self, if_neg hne]

/-- The one check of GHASH is that its data range fits (41_ghash.md R144). -/
theorem unitCheck_ghashFootprint_eq_none {size : Nat} {r : OperandRegs}
    (h : rangeFits size r.dataRange = true) : unitCheck ghashFootprint size r = none := by
  have hrange : rangeBad size (ghashFootprint r) = false := by
    simp [rangeBad, Footprint.ranges, ghashFootprint, h, rangeFits_iff, noRange]
  have hoverlap : overlapBad (ghashFootprint r) = false := by
    simp [overlapBad, ghashFootprint, rangesOverlap, noRange]
  simp [unitCheck, checkOperands_eq, hrange, hoverlap]

/-- GHASH where its check passes (41_ghash.md R144). -/
theorem ghashCommand_of_rangeFits (env : Env) {s : State}
    (h : rangeFits s.memBytes s.regs.dataRange = true) :
    ghashCommand env s = (s.setB regY (ghashUpdate (s.getB regH) (s.getB regY)
      (s.readRange env s.regs.dataRange))).completed 0x00000002 := by
  have hstatus : doneStatus .none = 0x00000002 := by decide
  rw [ghashCommand, runUnit_pass (unitCheck_ghashFootprint_eq_none h)]
  simp only [latch_transients, hash_acc, State.complete, hstatus]
  rfl

/-- Settles O37: the command updates `Y` under `H` (`ghashCommand_of_rangeFits`), which with `H` zero and
data that are not empty is zero (`ghashUpdate_zero_subkey`). -/
theorem ghashUnderZeroSubkey : Obligations.GhashUnderZeroSubkey := by
  refine ⟨fun s hsubkey hlen hfits => ?_, by decide⟩
  have hdata : s.readRange Config.env s.regs.dataRange ≠ [] := List.length_pos_iff.1 <| by
    rwa [State.readRange, State.memRead, length_readBytes]
  rw [exec_eq, commandRun, ghashCommand_of_rangeFits Config.env ((rangeFits_iff _ _).2 (.inr hfits)),
    hsubkey, ghashUpdate_zero_subkey, if_neg hdata]

end Sys2Proof.Machine
end

section
/-! The counter of GCTR as the last word of its block (42_gctr.md R155). -/

namespace Sys2Proof.Machine

/-- `inc32` replaces the last word of a block, bytes 12 to 15, by its successor. -/
theorem inc32_eq_setBlockWord (cb : Block) : inc32 cb = setBlockWord cb 3 (blockWord cb 3 + 1) := by
  apply BitVec.eq_of_getLsbD_eq
  intro j hj
  rw [getLsbD_setBlockWord _ _ _ hj, inc32, BitVec.getLsbD_append]
  by_cases hlow : j < 32
  · simp [hlow, blockWord]
  · have hhigh : j - 32 < 96 := by omega
    have hbit : 32 + (j - 32) = j := by omega
    simp [hlow, hhigh, hbit]

/-- The successor of a word is its number plus one, modulo `2^32`. -/
theorem word_add_one (w : Word) : w + 1 = BitVec.ofNat 32 ((w.toNat + 1) % 2 ^ 32) := by
  apply BitVec.eq_of_toNat_eq
  simp [BitVec.toNat_add]

/-- The last word of a block is the number of its last four bytes. -/
theorem blockWord_last (b : Block) : blockWord b 3 = be32 ((blockBytes b).drop 12) := by
  have hlen : ((blockBytes b).drop 12).length ≤ 4 := by simp
  rw [blockWord_eq_be32 b (by decide), List.take_of_length_le hlen]

/-- The bytes of an incremented counter block (42_gctr.md R155). -/
theorem blockBytes_inc32 (cb : Block) : blockBytes (inc32 cb) =
    (blockBytes cb).take 12 ++ toBe32 (be32 ((blockBytes cb).drop 12) + 1) := by
  have hrest : (blockBytes cb).drop (4 * 3 + 4) = [] := List.drop_of_length_le (by simp)
  rw [inc32_eq_setBlockWord, blockBytes_setBlockWord cb (by decide), hrest, List.append_nil,
    blockWord_last]

/-- Settles O38: the bytes by `blockBytes_inc32`, the counter modulo `2^32` by `word_add_one`; the examples
are computed. -/
theorem inc32OnBytes : Obligations.Inc32OnBytes := by
  refine ⟨fun cb => ?bytes, by decide, by decide, by decide, by decide⟩
  case bytes => rw [blockBytes_inc32, word_add_one]

end Sys2Proof.Machine
end

section
/-! The fields of `STATUS` (10_state.md R28) and the error completion (60_exceptions.md R214). -/

namespace Sys2Proof.Machine

/-! ### Each field of a status word reads back as it was put in -/

section
variable (busy done err : Bool) (auth : Auth) (code : Byte)

@[simp] theorem statusBusy_statusWord : statusBusy (statusWord busy done err auth code) = busy := by
  simp [statusBusy, statusWord]

@[simp] theorem statusDone_statusWord : statusDone (statusWord busy done err auth code) = done := by
  simp [statusDone, statusWord]

@[simp] theorem statusErr_statusWord : statusErr (statusWord busy done err auth code) = err := by
  simp [statusErr, statusWord]

@[simp] theorem statusAuth_statusWord :
    statusAuth (statusWord busy done err auth code) = authCode auth := by
  refine BitVec.eq_of_getLsbD_eq fun i hi => ?_
  obtain rfl | rfl : i = 0 ∨ i = 1 := by omega
  · simp [statusAuth, statusWord]
  · simp [statusAuth, statusWord]

@[simp] theorem statusErrCode_statusWord :
    statusErrCode (statusWord busy done err auth code) = code := by
  refine BitVec.eq_of_getLsbD_eq fun i hi => ?_
  have herr : 8 + i - 2 ≠ 0 := by omega
  have hauth : (authCode auth).getLsbD (8 + i - 4) = false := BitVec.getLsbD_of_ge _ _ (by omega)
  have hword : 8 + i < 32 := by omega
  simp [statusErrCode, statusWord, herr, hauth, hword, hi]

end

/-! ### The two final values of `STATUS` -/

/-- The status word of an error, in numbers (60_exceptions.md R214). -/
theorem errorStatus_eq (e : ErrCode) :
    errorStatus e = (6 : Word) ||| ((errByte e).setWidth 32 <<< 8) := by
  cases e <;> decide

theorem statusErr_doneStatus (v : Auth) : statusErr (doneStatus v) = false :=
  statusErr_statusWord false true false v 0

theorem statusErrCode_doneStatus (v : Auth) : statusErrCode (doneStatus v) = 0 :=
  statusErrCode_statusWord false true false v 0

/-- `raise Error(code)` is the completion with the status word of R214. -/
theorem raiseError_eq_completed_code (e : ErrCode) (s : State) :
    s.raiseError e = s.completed ((6 : Word) ||| ((errByte e).setWidth 32 <<< 8)) := by
  rw [raiseError_eq_completed, errorStatus_eq]

/-- Settles O52: the word of `STATUS` is `errorStatus_eq`, its fields are those `errorStatus` is made of,
and `raiseError` writes nothing that a register or a byte of `MEM` is read from. -/
theorem errorCompletionWritesStatusOnly : Obligations.ErrorCompletionWritesStatusOnly := by
  intro e s
  refine ⟨raiseError_eq_completed_code e s, ?busy, ?done, ?err, ?auth, ?code, raiseError_transients s e,
    raiseError_phase s e, raiseError_blk s e, raiseError_regs s e, fun a => ?byte⟩
  case busy => rw [raiseError_status, errorStatus, statusBusy_statusWord]
  case done => rw [raiseError_status, errorStatus, statusDone_statusWord]
  case err => rw [raiseError_status, errorStatus, statusErr_statusWord]
  case auth => rw [raiseError_status, errorStatus, statusAuth_statusWord, authCode]
  case code => rw [raiseError_status, errorStatus, statusErrCode_statusWord]
  case byte => rw [State.readByte, raiseError_mem, raiseError_init, State.readByte]

end Sys2Proof.Machine
end

section
/-! The checks of every command and their order (60_exceptions.md R213). -/

namespace Sys2Proof.Machine

/-! ### The order of the checks -/

/-- The two lists of legal tag lengths agree (30_encoding.md R92). -/
theorem tagLenLegal_eq_tagFieldWf : ∀ tlen : BitVec 5, tagLenLegal tlen = tagFieldWf tlen := by decide

/-- `KS` is tested first, then what `checkOperands` tests (60_exceptions.md R213). -/
theorem commandError_eq (i : Instr) (size : Nat) (r : OperandRegs) :
    commandError i size r =
      if keyFieldBad i then some .keySize
      else checkOperands (usesMessage i && r.ivLen == 0) (tagFieldBad i) size (commandFootprint i r) :=
  rfl

/-! ### An operation that begins with checks -/

/-- The operation begins with these checks: where one fails it is the error completion and nothing else,
and where none fails it ends in a completion without error. -/
structure Tests (check : Nat → OperandRegs → Option ErrCode) (f : State → State) : Prop where
  fails : ∀ {s : State} {e : ErrCode}, check s.memBytes s.regs = some e → f s = s.raiseError e
  passes : ∀ {s : State}, check s.memBytes s.regs = none → ∃ t v, f s = State.complete v t

theorem Tests.runUnit {check : Nat → OperandRegs → Option ErrCode} {read act : State → State} :
    Tests check (runUnit check read act) where
  fails := runUnit_error
  passes hcheck := ⟨_, _, runUnit_pass hcheck⟩

theorem Tests.runGcm {env : Env} {k : KeySize} {check : Nat → OperandRegs → Option ErrCode}
    {tagIn : State → List Byte} {ct : Transients → List Byte} {emit : State → State}
    (hemit : ∀ s, ∃ t v, emit s = State.complete v t) :
    Tests check (runGcm env k check tagIn ct emit) where
  fails := runGcm_error
  passes hcheck := by
    rw [runGcm_phases hcheck]
    exact hemit _

/-- The `KS` check comes before every other (60_exceptions.md R213, order 2). -/
theorem Tests.withKeySize {check : KeySize → Nat → OperandRegs → Option ErrCode}
    {f : KeySize → State → State} (hf : ∀ k, Tests (check k) (f k)) (ks : Option KeySize) :
    Tests (fun size r => ks.elim (some .keySize) (fun k => check k size r))
      (State.withKeySize ks f) := by
  cases ks with
  | none =>
    refine ⟨fun hcheck => ?_, fun hcheck => nomatch hcheck⟩
    rw [withKeySize_none, Option.some.inj hcheck]
  | some k => exact ⟨(hf k).fails, (hf k).passes⟩

theorem emitEncrypt_completes (env : Env) (tlen : BitVec 5) (s : State) :
    ∃ t v, emitEncrypt env tlen s = State.complete v t :=
  ⟨_, _, rfl⟩

theorem emitDecrypt_completes (env : Env) (tlen : BitVec 5) (s : State) :
    ∃ t v, emitDecrypt env tlen s = State.complete v t := by
  simp only [emitDecrypt]
  split <;> exact ⟨_, _, rfl⟩

/-! ### Every command begins with the checks of R213 -/

/-- The checks the engine makes for each command. -/
def engineChecks : Instr → Nat → OperandRegs → Option ErrCode
  | .gfmul _ _ _ => unitCheck (fun _ => noFootprint)
  | .inc32 _ _ => unitCheck (fun _ => noFootprint)
  | .ldb _ => unitCheck ldbFootprint
  | .stb _ => unitCheck stbFootprint
  | .hkey ks => fun size r => ks.elim (some .keySize) (fun k => unitCheck (hkeyFootprint k) size r)
  | .ghash => unitCheck ghashFootprint
  | .gctr ks => fun size r => ks.elim (some .keySize) (fun k => unitCheck (gctrFootprint k) size r)
  | .encrypt ks tlen => fun size r => ks.elim (some .keySize) (fun k => encryptCheck k tlen size r)
  | .decrypt ks tlen => fun size r => ks.elim (some .keySize) (fun k => decryptCheck k tlen size r)

theorem commandRun_tests_engineChecks (i : Instr) : Tests (engineChecks i) (commandRun i) := by
  cases i with
  | gfmul bd ba bb => exact show Tests _ (gfmulCommand bd ba bb) from .runUnit
  | inc32 bd ba => exact show Tests _ (inc32Command bd ba) from .runUnit
  | ldb bd => exact .runUnit
  | stb ba => exact .runUnit
  | hkey ks => exact .withKeySize (fun _ => .runUnit) ks
  | ghash => exact .runUnit
  | gctr ks => exact .withKeySize (fun _ => .runUnit) ks
  | encrypt ks tlen =>
    exact .withKeySize (fun _ => .runGcm (emitEncrypt_completes Config.env tlen)) ks
  | decrypt ks tlen =>
    exact .withKeySize (fun _ => .runGcm (emitDecrypt_completes Config.env tlen)) ks

/-- What the engine tests is the list of R213, in its order. -/
theorem engineChecks_eq_commandError (i : Instr) : engineChecks i = commandError i := by
  funext size r
  rw [commandError_eq]
  cases i with
  | gfmul bd ba bb => rfl
  | inc32 bd ba => rfl
  | ldb bd => rfl
  | stb ba => rfl
  | hkey ks => cases ks <;> rfl
  | ghash => rfl
  | gctr ks => cases ks <;> rfl
  | encrypt ks tlen =>
    cases ks with
    | none => rfl
    | some k => rw [tagFieldBad, ← tagLenLegal_eq_tagFieldWf]; rfl
  | decrypt ks tlen =>
    cases ks with
    | none => rfl
    | some k => rw [tagFieldBad, ← tagLenLegal_eq_tagFieldWf]; rfl

/-- Every command begins with the checks of R213. -/
theorem commandRun_tests (i : Instr) : Tests (commandError i) (commandRun i) :=
  engineChecks_eq_commandError i ▸ commandRun_tests_engineChecks i

/-- In its turn the engine runs the command it holds. -/
theorem step_command {s : State} {w : Word} {i : Instr} (hturn : s.engineTurn)
    (hcmd : s.cmd = some w) (hw : decodeWord w = .command i) :
    step s = .next (commandRun i s.takeTurn) := by
  rw [step_engine hturn, engineStep_some ((takeTurn_cmd s).trans hcmd), hw]
  exact exec_eq i _

/-- Settles O51: an illegal word by `step_illegal`; a command that decodes makes the checks of R213 in
their order (`commandRun_tests`), on the operands as they stand at the engine's turn. -/
theorem checksInOrder : Obligations.ChecksInOrder := by
  refine ⟨fun s w hturn hcmd => ⟨fun why hw => ?illegal, fun i e hw herr => ?fails,
    fun i hw hnone => ?passes⟩, fun n r hiv => ⟨rfl, ?ivLen, rfl⟩⟩
  case illegal => exact step_illegal hturn hcmd hw
  case fails =>
    have hrun : commandRun i s.takeTurn = s.takeTurn.raiseError e := (commandRun_tests i).fails herr
    rw [step_command hturn hcmd hw, hrun, raiseError_eq_completed_code]
  case passes =>
    obtain ⟨t, v, hrun⟩ : ∃ t v, commandRun i s.takeTurn = State.complete v t :=
      (commandRun_tests i).passes hnone
    refine ⟨t.complete v, by rw [step_command hturn hcmd hw, hrun], ?_, ?_⟩
    · rw [complete_status, statusErr_doneStatus]
    · rw [complete_status, statusErrCode_doneStatus]
  case ivLen => simp [commandError_eq, checkOperands_eq, keyFieldBad, usesMessage, hiv]

end Sys2Proof.Machine
end

section
/-! The reset event gives every register its value after reset (70_reset_and_hazards.md R240). -/

namespace Sys2Proof.Machine

/-! ### The registers in the reset state -/

@[simp] theorem OperandRegs.get_reset (n : OperandReg) : OperandRegs.reset.get n = 0 := by
  cases n <;> rfl

@[simp] theorem reset_getB (i : BReg) : State.reset.getB i = 0 :=
  Vector.getElem_replicate i.isLt

/-! ### The registers after the reset event -/

section
variable (s : State)

@[simp] theorem resetEvent_getB (i : BReg) : s.resetEvent.getB i = 0 := reset_getB i
@[simp] theorem resetEvent_regs : s.resetEvent.regs = OperandRegs.reset := rfl
@[simp] theorem resetEvent_status : s.resetEvent.status = 0x00000000 := rfl
@[simp] theorem resetEvent_phase : s.resetEvent.phase = .idle := rfl
@[simp] theorem resetEvent_transients : s.resetEvent.transients = Transients.cleared := rfl
@[simp] theorem resetEvent_cmd : s.resetEvent.cmd = none := rfl
@[simp] theorem resetEvent_held : s.resetEvent.held = [] := rfl

end

/-- A reset at the head of the agenda is the step, whatever else the state holds. -/
theorem step_of_head_reset {s : State} (h : s.agenda.head? = some .reset) :
    step s = .next s.takeTurn.resetEvent := by
  obtain ⟨es, hes⟩ := List.head?_eq_some_iff.1 h
  exact step_reset hes

/-- Settles O7: the step is the reset event (`step_of_head_reset`), after which every register has its
value after reset. -/
theorem resetEventGivesResetState : Obligations.ResetEventGivesResetState := by
  intro s hreset
  refine ⟨s.takeTurn.resetEvent, step_of_head_reset hreset, resetEvent_getB _, fun n => ?operands,
    resetEvent_status _, resetEvent_phase _, resetEvent_transients _, resetEvent_cmd _,
    resetEvent_held _⟩
  case operands => rw [resetEvent_regs, OperandRegs.get_reset]

end Sys2Proof.Machine
end

section
/-! Encoding and decoding are inverse to each other (30_encoding.md R90 to R94). -/

namespace Sys2Proof.Machine

/-! ### The row of a word (R93) -/

/-- A word fits at most one row: the row's `OPC` is the word's. -/
theorem opcodeRow_eq_of_fits {r q : OpcodeRow} {w : Word} (hr : r ∈ opcodeRows)
    (hq : q ∈ opcodeRows) (hrw : r.fits w = true) (hqw : q.fits w = true) : r = q :=
  opcodeRow_eq_of_opc hr hq
    ((opcodeRow_opc_of_fits hr hrw).trans (opcodeRow_opc_of_fits hq hqw).symm)

/-- Settles O3: a word fits one row only (`opcodeRow_eq_of_fits`). -/
theorem opcodeMapIsExclusive : Obligations.OpcodeMapIsExclusive :=
  fun _ _ hr _ hq hrw hqw => congrArg OpcodeRow.mnemonic (opcodeRow_eq_of_fits hr hq hrw hqw)

/-- A word that fits a row is read by that row. -/
theorem decodeWord_of_fits {r : OpcodeRow} {w : Word} (hr : r ∈ opcodeRows)
    (hw : r.fits w = true) : decodeWord w = .command (r.build w) := by
  cases hfind : opcodeRows.find? (fun q => q.fits w) with
  | none => exact absurd hw (List.find?_eq_none.1 hfind r hr)
  | some q =>
    have hq : q.fits w = true := List.find?_some (p := fun q : OpcodeRow => q.fits w) hfind
    rw [decodeWord, hfind, opcodeRow_eq_of_fits hr (List.mem_of_find?_eq_some hfind) hw hq]

/-- A command was read by a row that its word fits. -/
theorem exists_row_of_decodeWord {w : Word} {i : Instr} (h : decodeWord w = .command i) :
    ∃ r ∈ opcodeRows, r.fits w = true ∧ r.build w = i := by
  by_cases hrow : ∃ r ∈ opcodeRows, r.fits w = true
  · obtain ⟨r, hr, hw⟩ := hrow
    exact ⟨r, hr, hw, Decoded.command.inj ((decodeWord_of_fits hr hw).symm.trans h)⟩
  · have hunfit : ∀ r ∈ opcodeRows, ¬ r.fits w = true := fun r hr hw => hrow ⟨r, hr, hw⟩
    rw [decodeWord_of_no_row hunfit] at h
    cases h

/-! ### The fields of an assembled word (R90 to R92) -/

/-- A register number stands in its own field and leaves the other two alone. -/
theorem extractLsb'_putReg : ∀ p ∈ [15, 18, 21], ∀ q ∈ [15, 18, 21], ∀ r : BReg,
    (putReg p r).extractLsb' q 3 = if p = q then BitVec.ofFin r else 0 := by decide +kernel

theorem regField_assemble (opc : BitVec 8) (regs : Word) (tlen : BitVec 5) (ks : BitVec 2) {lo : Nat}
    (hlo : 15 ≤ lo) (hhi : lo ≤ 21) : regField lo (assemble opc regs tlen ks) = regField lo regs := by
  rw [regField, regField]
  congr 1
  refine BitVec.eq_of_getLsbD_eq fun j hj => ?_
  have hopc : lo + j < 24 := by omega
  have htlen : tlen.getLsbD (lo + j - 10) = false := BitVec.getLsbD_of_ge _ _ (by omega)
  have hks : ks.getLsbD (lo + j - 8) = false := BitVec.getLsbD_of_ge _ _ (by omega)
  simp [assemble, hj, hopc, htlen, hks]

/-- The three register fields read back (R92). -/
theorem regField_assemble_putReg (opc : BitVec 8) (bd ba bb : BReg) :
    ∀ w, w = assemble opc (putReg 21 bd ||| putReg 18 ba ||| putReg 15 bb) 0 0 →
      regField 21 w = bd ∧ regField 18 w = ba ∧ regField 15 w = bb := by
  rintro w rfl
  simp only [regField_assemble, Nat.reduceLeDiff]
  simp [regField, BitVec.extractLsb'_or, extractLsb'_putReg]

theorem tagField_assemble (opc : BitVec 8) (tlen : BitVec 5) (ks : BitVec 2) :
    tagField (assemble opc 0 tlen ks) = tlen := by
  refine BitVec.eq_of_getLsbD_eq fun j hj => ?_
  have hopc : 10 + j < 24 := by omega
  have hks : ks.getLsbD (10 + j - 8) = false := BitVec.getLsbD_of_ge _ _ (by omega)
  have hword : 10 + j < 32 := by omega
  simp [tagField, assemble, hj, hopc, hks, hword]

theorem extractKs_assemble (opc : BitVec 8) (tlen : BitVec 5) (ks : BitVec 2) :
    (assemble opc 0 tlen ks).extractLsb' 8 2 = ks := by
  refine BitVec.eq_of_getLsbD_eq fun j hj => ?_
  have hopc : 8 + j < 24 := by omega
  have htlen : 8 + j < 10 := by omega
  have hword : 8 + j < 32 := by omega
  simp [assemble, hj, hopc, htlen, hword]

theorem keyField_assemble (opc : BitVec 8) (tlen : BitVec 5) (ks : Option KeySize) :
    keyField (assemble opc 0 tlen (keyCode ks)) = ks := by
  rw [keyField, extractKs_assemble]
  rcases ks with _ | _ | _ | _ <;> rfl

/-! ### Decoding undoes encoding -/

/-- A row with a command's `OPC` reads the command from its word. -/
theorem opcodeRow_build_encode {r : OpcodeRow} {i : Instr} (hr : r ∈ opcodeRows)
    (h : r.opc = i.opc) : r.build (encode i) = i := by
  have hrow : ∀ (n : Nat) (hn : n < opcodeRows.length), opcodeRows[n].opc = i.opc →
      r = opcodeRows[n] := fun n hn hopc =>
    opcodeRow_eq_of_opc hr (List.getElem_mem hn) (h.trans hopc.symm)
  cases i with
  | gfmul bd ba bb =>
    obtain ⟨hbd, hba, hbb⟩ := regField_assemble_putReg 0x01 bd ba bb (encode (.gfmul bd ba bb)) rfl
    rw [hrow 0 (by decide) rfl]
    exact congr (congrArg₂ Instr.gfmul hbd hba) hbb
  | inc32 bd ba =>
    obtain ⟨hbd, hba, -⟩ := regField_assemble_putReg 0x02 bd ba 0 (encode (.inc32 bd ba))
      (by simp [encode, putReg, Instr.opc])
    rw [hrow 1 (by decide) rfl]
    exact congrArg₂ Instr.inc32 hbd hba
  | ldb bd =>
    obtain ⟨hbd, -, -⟩ := regField_assemble_putReg 0x03 bd 0 0 (encode (.ldb bd))
      (by simp [encode, putReg, Instr.opc])
    rw [hrow 2 (by decide) rfl]
    exact congrArg Instr.ldb hbd
  | stb ba =>
    obtain ⟨-, hba, -⟩ := regField_assemble_putReg 0x04 0 ba 0 (encode (.stb ba))
      (by simp [encode, putReg, Instr.opc])
    rw [hrow 3 (by decide) rfl]
    exact congrArg Instr.stb hba
  | hkey ks =>
    rw [hrow 4 (by decide) rfl]
    exact congrArg Instr.hkey (keyField_assemble _ 0 ks)
  | ghash => rw [hrow 5 (by decide) rfl]; rfl
  | gctr ks =>
    rw [hrow 6 (by decide) rfl]
    exact congrArg Instr.gctr (keyField_assemble _ 0 ks)
  | encrypt ks tlen =>
    rw [hrow 7 (by decide) rfl]
    exact congrArg₂ Instr.encrypt (keyField_assemble _ tlen ks) (tagField_assemble _ tlen _)
  | decrypt ks tlen =>
    rw [hrow 8 (by decide) rfl]
    exact congrArg₂ Instr.decrypt (keyField_assemble _ tlen ks) (tagField_assemble _ tlen _)

/-- The word of a command fits the row of its `OPC` (R93). -/
theorem exists_row_of_encode (i : Instr) :
    ∃ r ∈ opcodeRows, r.opc = i.opc ∧ r.fits (encode i) = true := by
  cases i with
  | gfmul bd ba bb => exact (Laws.EncodeFits.gfmul bd ba bb).2
  | inc32 bd ba => exact (Laws.EncodeFits.inc32 bd ba).2
  | ldb bd => exact (Laws.EncodeFits.ldb bd).2
  | stb ba => exact (Laws.EncodeFits.stb ba).2
  | hkey ks => exact (Laws.EncodeFits.hkey ks).2
  | ghash => exact Laws.EncodeFits.ghash.2
  | gctr ks => exact (Laws.EncodeFits.gctr ks).2
  | encrypt ks tlen => exact (Laws.EncodeFits.encrypt ks tlen).2
  | decrypt ks tlen => exact (Laws.EncodeFits.decrypt ks tlen).2

theorem decodeWord_encode (i : Instr) : decodeWord (encode i) = .command i := by
  obtain ⟨r, hr, hopc, hw⟩ := exists_row_of_encode i
  rw [decodeWord_of_fits hr hw, opcodeRow_build_encode hr hopc]

/-- Settles O1: the word of a command fits the row of its `OPC`, which reads the operands back
(`opcodeRow_build_encode`). -/
theorem decodeEncodeRoundTrip : Obligations.DecodeEncodeRoundTrip := decodeWord_encode

/-! ### Encoding undoes decoding -/

/-- A field of a word put back at its place is the word's bits of that field. -/
theorem extractLsb'_setWidth_shiftLeft_self (w : Word) (lo n : Nat) :
    (w.extractLsb' lo n).setWidth 32 <<< lo = w &&& ((BitVec.allOnes n).setWidth 32 <<< lo) := by
  refine BitVec.eq_of_getLsbD_eq fun j hj => ?_
  by_cases hlo : j < lo
  · simp [hlo]
  · have hplace : lo + (j - lo) = j := by omega
    simp [hj, hlo, hplace, Bool.and_comm]

theorem putReg_regField (lo : Nat) (w : Word) :
    putReg lo (regField lo w) = w &&& ((BitVec.allOnes 3).setWidth 32 <<< lo) := by
  rw [← extractLsb'_setWidth_shiftLeft_self, ← BitVec.ofNat_toNat]
  rfl

theorem tagField_setWidth_shiftLeft (w : Word) :
    (tagField w).setWidth 32 <<< 10 = w &&& ((BitVec.allOnes 5).setWidth 32 <<< 10) :=
  extractLsb'_setWidth_shiftLeft_self w 10 5

theorem keyCode_keyField (w : Word) : keyCode (keyField w) = w.extractLsb' 8 2 := by
  rw [keyField]
  generalize w.extractLsb' 8 2 = ks
  revert ks
  decide

theorem keyField_setWidth_shiftLeft (w : Word) :
    (keyCode (keyField w)).setWidth 32 <<< 8 = w &&& ((BitVec.allOnes 2).setWidth 32 <<< 8) := by
  rw [keyCode_keyField, extractLsb'_setWidth_shiftLeft_self]

/-- A word that fits a row is the row's fixed bits and its own bits elsewhere (R93). -/
theorem opcodeRow_mtch_or_eq {r : OpcodeRow} {w : Word} (h : r.fits w = true) :
    r.mtch ||| (w &&& ~~~r.mask) = w := by
  refine BitVec.eq_of_getLsbD_eq fun j hj => ?_
  rw [← (opcodeRow_fits_iff r w).1 h]
  simp [hj, ← Bool.and_or_distrib_left]

/-- The word of the command a row reads is the row's fixed bits and the word's bits elsewhere. -/
theorem encode_opcodeRow_build (w : Word) :
    ∀ r ∈ opcodeRows, encode (r.build w) = r.mtch ||| (w &&& ~~~r.mask) := by
  simp only [opcodeRows, List.forall_mem_cons, List.not_mem_nil, false_implies, implies_true,
    and_true, encode, Instr.opc, assemble, putReg_regField, tagField_setWidth_shiftLeft,
    keyField_setWidth_shiftLeft, ← BitVec.and_or_distrib_left]
  simp [BitVec.or_assoc, ← BitVec.and_or_distrib_left]

/-- Settles O2: the word fits the row it was read by, whose command has the row's fixed bits and the
word's own bits elsewhere (`encode_opcodeRow_build`), which is the word. -/
theorem encodeDecodeRoundTrip : Obligations.EncodeDecodeRoundTrip := by
  intro w i h
  obtain ⟨r, hr, hw, rfl⟩ := exists_row_of_decodeWord h
  rw [encode_opcodeRow_build w r hr, opcodeRow_mtch_or_eq hw]

/-- Settles O4: the words are computed. -/
theorem workedWordsDecode : Obligations.WorkedWordsDecode := by
  unfold Obligations.WorkedWordsDecode
  decide +kernel

end Sys2Proof.Machine
end

section
/-! The carryless products bit by bit, and the other forms of the datapath's steps (40_gf128.md R120,
R124 to R127). -/

namespace Sys2Proof.Machine

open Polynomial

/-! ### A bit of a product (R120, R124) -/

/-- An exclusive-or over a list of places is their sum modulo 2. -/
theorem cast_foldl_xor (f : Nat → Bool) (n : Nat) :
    (((List.range n).foldl (fun p i => p ^^ f i) false).toNat : ZMod 2) =
      ∑ i ∈ Finset.range n, ((f i).toNat : ZMod 2) := by
  have hparity : ∀ a b : Bool, ((a ^^ b).toNat : ZMod 2) = a.toNat + b.toNat := by decide
  induction n with
  | zero => simp
  | succ n ih =>
    rw [List.range_succ, List.foldl_append, Finset.sum_range_succ, ← ih]
    exact hparity _ _

/-- A bit of a bit string whose polynomial is a product is the parity of the pairs of ones that meet
there. -/
theorem getLsbD_of_bitPoly_eq_mul {w m n : Nat} {p : BitVec w} {u : BitVec m} {v : BitVec n}
    (h : bitPoly p = bitPoly u * bitPoly v) (k : Nat) : p.getLsbD k =
      (List.range (k + 1)).foldl (fun p i => p ^^ (u.getLsbD i && v.getLsbD (k - i))) false := by
  have hbool : ∀ a b : Bool, (a.toNat : ZMod 2) = b.toNat → a = b := by decide
  have hand : ∀ a b : Bool, ((a && b).toNat : ZMod 2) = a.toNat * b.toNat := by decide
  refine hbool _ _ ?_
  rw [cast_foldl_xor, ← coeff_bitPoly, h, coeff_mul, Finset.Nat.sum_antidiagonal_eq_sum_range_succ_mk]
  simp only [coeff_bitPoly, hand]

/-- `clmul32` is the product of polynomials (40_gf128.md R124). -/
theorem bitPoly_clmul32 (x y : Word) : bitPoly (clmul32 x y) = bitPoly x * bitPoly y := by
  have hfits : ∀ z : Word, (z.setWidth 64).toNat = z.toNat := fun z =>
    BitVec.toNat_setWidth_of_le (by decide)
  rw [clmul32, bitPoly_clmulLow (m := 32) (hfits y ▸ y.isLt) (by decide), hfits,
    Nat.mod_eq_of_lt x.isLt, bitPoly_setWidth (by decide), bitPoly, bitPoly]

/-- Settles O26: both carryless products are products of polynomials, whose coefficients are these
parities (`getLsbD_of_bitPoly_eq_mul`). -/
theorem clmulBitIsParity : Obligations.ClmulBitIsParity :=
  ⟨fun u v n _ => getLsbD_of_bitPoly_eq_mul (bitPoly_clmul u v) n,
    fun x y n _ => getLsbD_of_bitPoly_eq_mul (bitPoly_clmul32 x y) n⟩

/-- Settles O27: both sides are the product of polynomials. -/
theorem planeMultiplierIsCarryless : Obligations.PlaneMultiplierIsCarryless := fun x y =>
  bitPoly_inj ((bitPoly_clmul32Planes x y).trans (bitPoly_clmul32 x y).symm)

/-! ### Karatsuba (R126) -/

/-- The product of two-limb halves from three limb products (40_gf128.md R126): the middle product less
the outer two is the two mixed ones. -/
theorem bitPoly_karatsubaHalf (a0 a1 b0 b1 : Word) : bitPoly (karatsubaHalf a0 a1 b0 b1) =
    (bitPoly a0 + X ^ 32 * bitPoly a1) * (bitPoly b0 + X ^ 32 * bitPoly b1) := by
  simp only [karatsubaHalf, bitPoly_xor, bitPoly_placed, bitPoly_clmul32Planes, Nat.reduceLeDiff]
  linear_combination
    (X ^ 32) * CharTwo.add_self_eq_zero (bitPoly a0 * bitPoly b0 + bitPoly a1 * bitPoly b1)

theorem shiftLeft_toNat_lt {w k m n : Nat} {v : BitVec w} (h : v.toNat < 2 ^ m) (hn : m + k ≤ n) :
    (v <<< k).toNat < 2 ^ n := by
  rw [BitVec.toNat_shiftLeft, Nat.shiftLeft_eq]
  calc v.toNat * 2 ^ k % 2 ^ w ≤ v.toNat * 2 ^ k := Nat.mod_le _ _
    _ < 2 ^ m * 2 ^ k := Nat.mul_lt_mul_of_pos_right h (Nat.two_pow_pos k)
    _ = 2 ^ (m + k) := (pow_add 2 m k).symm
    _ ≤ 2 ^ n := Nat.pow_le_pow_right two_pos hn

theorem placed_toNat_lt (p : BitVec 64) {n : Nat} (hn : n ≤ 2) : (placed p n).toNat < 2 ^ 128 :=
  shiftLeft_toNat_lt (m := 64) (by rw [BitVec.toNat_setWidth_of_le (by decide)]; exact p.isLt)
    (by omega)

theorem xor_toNat_lt {w m : Nat} {u v : BitVec w} (hu : u.toNat < 2 ^ m) (hv : v.toNat < 2 ^ m) :
    (u ^^^ v).toNat < 2 ^ m := by
  rw [BitVec.toNat_xor]
  exact Nat.xor_lt_two_pow hu hv

theorem karatsubaHalf_toNat_lt (a0 a1 b0 b1 : Word) : (karatsubaHalf a0 a1 b0 b1).toNat < 2 ^ 128 :=
  xor_toNat_lt (xor_toNat_lt (placed_toNat_lt _ (by decide)) (placed_toNat_lt _ (by decide)))
    (placed_toNat_lt _ (by decide))

/-- The identity of the outer level: the product of the sums less the outer two products. -/
theorem karatsuba_identity (l0 l1 u0 u1 : (ZMod 2)[X]) (y : (ZMod 2)[X]) :
    l0 * l1 + y * ((l0 + u0) * (l1 + u1) + l0 * l1 + u0 * u1) + y ^ 2 * (u0 * u1) =
      (l0 + y * u0) * (l1 + y * u1) := by
  linear_combination y * CharTwo.add_self_eq_zero (l0 * l1 + u0 * u1)

/-- The natural-order number by its halves of two limbs. -/
theorem bitPoly_natOrder_halves (a : Block) : bitPoly (natOrder a) =
    (bitPoly (limb a 0) + X ^ 32 * bitPoly (limb a 1)) +
      X ^ 64 * (bitPoly (limb a 2) + X ^ 32 * bitPoly (limb a 3)) := by
  have hpow : (X ^ 96 : (ZMod 2)[X]) = X ^ 64 * X ^ 32 := pow_add X 64 32
  rw [bitPoly_natOrder, hpow, mul_add, mul_assoc, ← add_assoc]

theorem bitPoly_half_xor (a0 a1 a2 a3 : Word) :
    bitPoly (a0 ^^^ a2) + X ^ 32 * bitPoly (a1 ^^^ a3) =
      (bitPoly a0 + X ^ 32 * bitPoly a1) + (bitPoly a2 + X ^ 32 * bitPoly a3) := by
  rw [bitPoly_xor, bitPoly_xor, mul_add, add_add_add_comm]

/-- Nine limb products make the 256-bit product (40_gf128.md R126). -/
theorem karatsuba_eq_clmul (a b : Block) : karatsuba a b = clmul (natOrder a) (natOrder b) := by
  have hhalf := karatsubaHalf_toNat_lt
  have hpow : (X ^ 128 : (ZMod 2)[X]) = (X ^ 64) ^ 2 := pow_mul X 64 2
  refine bitPoly_inj ?_
  simp only [karatsuba, bitPoly_xor]
  rw [bitPoly_shiftLeft (m := 128) (xor_toNat_lt (xor_toNat_lt (hhalf ..) (hhalf ..)) (hhalf ..))
      (by decide), bitPoly_shiftLeft (m := 128) (hhalf ..) (by decide), hpow, bitPoly_clmul,
    bitPoly_natOrder_halves a, bitPoly_natOrder_halves b, ← karatsuba_identity]
  simp only [bitPoly_xor (_ ^^^ _), bitPoly_xor (karatsubaHalf ..), bitPoly_karatsubaHalf,
    bitPoly_half_xor]

/-- Settles O28: the sixteen products by `schoolbook_eq_clmul`, the nine by `karatsuba_eq_clmul`, bit 255
by `getLsbD_clmul_top`. -/
theorem limbProductsMakeProduct : Obligations.LimbProductsMakeProduct := fun a b =>
  ⟨schoolbook_eq_clmul a b, karatsuba_eq_clmul a b, getLsbD_clmul_top _ _⟩

/-! ### Reduction on whole numbers (R127) -/

/-- A number is its low half and `X ^ 128` times its high half. -/
theorem bitPoly_halves (p : Wide) :
    bitPoly p = bitPoly (p.setWidth 128) + X ^ 128 * bitPoly (p >>> 128) := by
  ext i
  simp only [coeff_add, coeff_X_pow_mul', coeff_bitPoly, BitVec.getLsbD_setWidth,
    BitVec.getLsbD_ushiftRight]
  by_cases hi : i < 128
  · simp [hi, not_le.2 hi]
  · have hplace : 128 + (i - 128) = i := by omega
    simp [hi, not_lt.1 hi, hplace]

/-- `X ^ 128` is `X ^ 7 + X ^ 2 + X + 1` modulo the field polynomial (40_gf128.md R120). -/
theorem mk_X_pow_128 : AdjoinRoot.mk (bitPoly fieldPoly) (X ^ 128) =
    AdjoinRoot.mk (bitPoly fieldPoly) (X ^ 7 + X ^ 2 + X + 1) := by
  rw [AdjoinRoot.mk_eq_mk, CharTwo.sub_eq_add, ← add_assoc, ← add_assoc, ← add_assoc,
    ← bitPoly_fieldPoly]

/-- The high half folded into the low one keeps the residue. -/
theorem residue_eq_fold (p : Wide) : residue p = residue (p.setWidth 128) +
    AdjoinRoot.mk (bitPoly fieldPoly) ((X ^ 7 + X ^ 2 + X + 1 : (ZMod 2)[X]) * bitPoly (p >>> 128)) := by
  rw [residue, bitPoly_halves p, map_add, map_mul, mk_X_pow_128, map_mul, residue]

/-- A bit string folded as R127 folds it: its exclusive-or with itself shifted by 1, 2 and 7. -/
def foldShifts {w : Nat} (v : BitVec w) : BitVec w := v ^^^ (v <<< 1) ^^^ (v <<< 2) ^^^ (v <<< 7)

/-- Where no bit is lost it is the product with `X ^ 7 + X ^ 2 + X + 1`. -/
theorem bitPoly_foldShifts {w m : Nat} {v : BitVec w} (hv : v.toNat < 2 ^ m) (hm : m + 7 ≤ w) :
    bitPoly (foldShifts v) = (X ^ 7 + X ^ 2 + X + 1) * bitPoly v := by
  rw [foldShifts, bitPoly_xor, bitPoly_xor, bitPoly_xor, bitPoly_shiftLeft hv (by omega),
    bitPoly_shiftLeft hv (by omega), bitPoly_shiftLeft hv (by omega)]
  ring

theorem foldShifts_toNat_lt {w m : Nat} {v : BitVec w} (hv : v.toNat < 2 ^ m) :
    (foldShifts v).toNat < 2 ^ (m + 7) := by
  have hshift : ∀ k ≤ 7, (v <<< k).toNat < 2 ^ (m + 7) := fun k hk =>
    shiftLeft_toNat_lt hv (by omega)
  have hself : v.toNat < 2 ^ (m + 7) := hv.trans_le (Nat.pow_le_pow_right two_pos (by omega))
  exact xor_toNat_lt (xor_toNat_lt (xor_toNat_lt hself (hshift 1 (by decide)))
    (hshift 2 (by decide))) (hshift 7 (by decide))

theorem ushiftRight_toNat_lt (p : Wide) {m n : Nat} (h : p.toNat < 2 ^ (m + n)) :
    (p >>> n).toNat < 2 ^ m := by
  rw [BitVec.toNat_ushiftRight, Nat.shiftRight_eq_div_pow]
  exact Nat.div_lt_of_lt_mul (by rwa [mul_comm, ← pow_add])

/-- The high half of a number as a block. -/
theorem bitPoly_high_half (p : Wide) : bitPoly ((p >>> 128).setWidth 128) = bitPoly (p >>> 128) :=
  bitPoly_setWidth_of_high fun i hi => by
    rw [BitVec.getLsbD_ushiftRight, BitVec.getLsbD_of_ge _ _ (by omega)]

/-- The high half folded, its low half taken, and what overflows folded again (40_gf128.md R127). -/
theorem reduceWhole_eq (p : Wide) : reduceWhole p =
    p.setWidth 128 ^^^ (foldShifts (p >>> 128)).setWidth 128 ^^^
      foldShifts ((foldShifts (p >>> 128) >>> 128).setWidth 128) := by
  simp only [reduceWhole, foldShifts, BitVec.xor_assoc]

/-- The reduction on whole numbers keeps the residue (40_gf128.md R127). -/
theorem residue_reduceWhole (p : Wide) : residue (reduceWhole p) = residue p := by
  have hhigh : (p >>> 128).toNat < 2 ^ 128 := ushiftRight_toNat_lt p p.isLt
  have hoverflow : ((foldShifts (p >>> 128) >>> 128).setWidth 128 : Block).toNat < 2 ^ 7 := by
    rw [BitVec.toNat_setWidth]
    exact (Nat.mod_le _ _).trans_lt (ushiftRight_toNat_lt _ (foldShifts_toNat_lt hhigh))
  calc
    residue (reduceWhole p) = residue (p.setWidth 128) + (residue ((foldShifts (p >>> 128)).setWidth 128) +
        AdjoinRoot.mk (bitPoly fieldPoly) ((X ^ 7 + X ^ 2 + X + 1 : (ZMod 2)[X]) *
          bitPoly (foldShifts (p >>> 128) >>> 128))) := by
      rw [reduceWhole_eq, residue_xor, residue_xor, add_assoc, ← bitPoly_high_half,
        ← bitPoly_foldShifts hoverflow (by decide)]
      rfl
    _ = residue (p.setWidth 128) + residue (foldShifts (p >>> 128)) := by rw [← residue_eq_fold]
    _ = residue p := by
      rw [residue_eq_fold p, ← bitPoly_foldShifts hhigh (by decide)]
      rfl

/-- Settles O29: both forms keep the residue, as `polymod` does where bit 255 is 0. -/
theorem reductionFormsAgree : Obligations.ReductionFormsAgree := fun p h =>
  ⟨reduceWords_eq_polymod h, residue_inj ((residue_reduceWhole p).trans (residue_polymod h).symm)⟩

end Sys2Proof.Machine
end

section
/-! The laws of the field product (40_gf128.md R121) and the natural order of a block (00_scope.md R13). -/

namespace Sys2Proof.Machine

open Polynomial

/-! ### Natural order (R13) -/

theorem natOrder_fieldOne : natOrder fieldOne = 1#128 := by decide +kernel

theorem natOrder_fieldX : natOrder fieldX = 2#128 := by decide +kernel

/-- Settles O25: the natural order reverses the block (`getLsbD_natOrder`), and a byte of a block is
eight of its bits (`getElem_blockBytes`). -/
theorem naturalOrderOfBlock : Obligations.NaturalOrderOfBlock := by
  refine ⟨fun a i hi => ?bits, natOrder_fieldOne, natOrder_fieldX, by decide +kernel⟩
  case bits =>
    have hbyte : i / 8 < (blockBytes a).length := by rw [length_blockBytes]; omega
    have hbit : 7 - i % 8 < 8 := by omega
    have hplace : 8 * (15 - i / 8) + (7 - i % 8) = 127 - i := by omega
    rw [getLsbD_natOrder a hi, List.getD_eq_getElem _ _ hbyte, getElem_blockBytes,
      BitVec.getLsbD_extractLsb', decide_eq_true hbit, Bool.true_and, hplace]

/-! ### Laws (1) to (5) (R121) -/

theorem residue_natOrder_fieldOne : residue (natOrder fieldOne) = 1 := by
  have hpoly : bitPoly 1#128 = 1 := (natPoly_two_pow 0).trans (pow_zero X)
  rw [natOrder_fieldOne, residue, hpoly, map_one]

theorem gf128Mul_comm (a b : Block) : gf128Mul a b = gf128Mul b a := by
  refine eq_of_residue_natOrder ?_
  rw [residue_natOrder_gf128Mul, residue_natOrder_gf128Mul, mul_comm]

theorem gf128Mul_assoc (a b c : Block) : gf128Mul (gf128Mul a b) c = gf128Mul a (gf128Mul b c) := by
  refine eq_of_residue_natOrder ?_
  simp only [residue_natOrder_gf128Mul, mul_assoc]

@[simp] theorem gf128Mul_zero_left (a : Block) : gf128Mul 0 a = 0 := by
  rw [gf128Mul_comm, gf128Mul_zero_right]

theorem gf128Mul_fieldOne_left (a : Block) : gf128Mul fieldOne a = a := by
  refine eq_of_residue_natOrder ?_
  rw [residue_natOrder_gf128Mul, residue_natOrder_fieldOne, one_mul]

/-- Settles O31: each law is that of the residues, which the product multiplies
(`residue_natOrder_gf128Mul`). -/
theorem fieldProductLaws : Obligations.FieldProductLaws :=
  ⟨fun a => ⟨gf128Mul_zero_left a, gf128Mul_zero_right a⟩, gf128Mul_comm, gf128Mul_fieldOne_left,
    fun a b c => gf128Mul_xor_left a c b⟩

/-- Settles O33: residues multiply associatively. -/
theorem fieldProductAssociates : Obligations.FieldProductAssociates := gf128Mul_assoc

/-! ### Law (6): multiplying by `x` -/

theorem residue_natOrder_fieldX (v : Block) :
    residue (natOrder fieldX) * residue v = AdjoinRoot.mk (bitPoly fieldPoly) (X * bitPoly v) := by
  have hpoly : bitPoly 2#128 = X := (natPoly_two_pow 1).trans (pow_one X)
  rw [natOrder_fieldX, residue, hpoly, residue, map_mul]

/-- What a shift of a block up by one loses is its top bit, at `X ^ 128`. -/
theorem X_mul_bitPoly (v : Block) :
    X * bitPoly v = bitPoly (v <<< 1) + (if v.getLsbD 127 then X ^ 128 else 0) := by
  have hcarry : (if v.getLsbD 127 then X ^ 128 else 0 : (ZMod 2)[X]) =
      C ((v.getLsbD 127).toNat : ZMod 2) * X ^ 128 := by cases v.getLsbD 127 <;> simp
  ext i
  rw [hcarry, coeff_add, coeff_C_mul_X_pow, coeff_bitPoly, BitVec.getLsbD_shiftLeft]
  cases i with
  | zero => simp
  | succ i =>
    rw [coeff_X_mul, coeff_bitPoly]
    obtain hlt | rfl | hgt := lt_trichotomy i 127
    · simp [show i + 1 < 128 by omega, hlt.ne]
    · simp
    · simp [show ¬ i + 1 < 128 by omega, hgt.ne', BitVec.getLsbD_of_ge v i (by omega)]

/-- Shifting the string right by one bit raises every coefficient by one place (00_scope.md R13). -/
theorem natOrder_ushiftRight_one (a : Block) : natOrder (a >>> 1) = natOrder a <<< 1 := by
  refine BitVec.eq_of_getLsbD_eq fun i hi => ?_
  rw [getLsbD_natOrder _ hi, BitVec.getLsbD_ushiftRight, BitVec.getLsbD_shiftLeft]
  cases i with
  | zero => simp
  | succ i =>
    have hplace : 1 + (127 - (i + 1)) = 127 - i := by omega
    rw [hplace, Nat.add_sub_cancel, getLsbD_natOrder a (by omega)]
    simp [hi]

/-- `0xe1` in byte 0 is `X ^ 7 + X ^ 2 + X + 1`, the residue of `X ^ 128`. -/
theorem residue_natOrder_fold :
    residue (natOrder 0xe1000000000000000000000000000000) =
      AdjoinRoot.mk (bitPoly fieldPoly) (X ^ 128) := by
  have hbits : (natOrder 0xe1000000000000000000000000000000).toNat =
      2 ^ 7 ^^^ 2 ^ 2 ^^^ 2 ^ 1 ^^^ 2 ^ 0 := by decide +kernel
  have hpoly : bitPoly (natOrder 0xe1000000000000000000000000000000) = X ^ 7 + X ^ 2 + X + 1 := by
    simp only [bitPoly, hbits, natPoly_xor, natPoly_two_pow]
    rw [pow_zero, pow_one]
  rw [mk_X_pow_128, residue, hpoly]

/-- Settles O32: the product by `x` shifts the coefficients up by one place, and the one that leaves at
`X ^ 128` is the residue that 0xe1 in byte 0 stands for. -/
theorem fieldProductByX : Obligations.FieldProductByX := by
  intro a
  have htop : (natOrder a).getLsbD 127 = a.getLsbD 0 := getLsbD_natOrder a (by decide)
  refine eq_of_residue_natOrder ?_
  rw [residue_natOrder_gf128Mul, residue_natOrder_fieldX, X_mul_bitPoly, map_add, natOrder_xor,
    residue_xor, natOrder_ushiftRight_one, htop, residue]
  congr 1
  cases a.getLsbD 0 with
  | true => exact residue_natOrder_fold.symm
  | false => exact (map_zero _).trans residue_natOrder_zero.symm

end Sys2Proof.Machine
end

section
/-! GHASH and GCTR block by block, and the pre-counter block (41_ghash.md R142, 42_gctr.md R157 to R160,
43_gcm.md R172, R181). -/

namespace Sys2Proof.Machine

/-! ### GHASH calls (R142) -/

/-- Settles O35: whole blocks compose (`ghashUpdate_append`); the two runs of the example are computed. -/
theorem ghashComposes : Obligations.GhashComposes :=
  ⟨fun h acc _ t hs => (ghashUpdate_append h acc hs t).symm, by decide +kernel, by decide +kernel⟩

/-! ### GCTR (R157 to R160) -/

section
variable (enc : Block → Block) (icb : Block)

@[simp] theorem gctr_nil : gctr enc icb [] = [] := rfl

/-- The first block, whole or partial, and then the rest under the incremented counter. -/
theorem gctr_of_ne_nil {s : List Byte} (hne : s ≠ []) :
    gctr enc icb s =
      xorBytes (s.take 16) (blockBytes (enc icb)) ++ gctr enc (inc32 icb) (s.drop 16) := by
  rw [gctr, pieces_of_ne_nil hne, gctrPieces, gctr]

@[simp] theorem length_gctr (s : List Byte) : (gctr enc icb s).length = s.length := by
  induction s using block_induction generalizing icb with
  | nil => rfl
  | block s hne ih =>
    rw [gctr_of_ne_nil enc icb hne, List.length_append, ih, length_xorBytes, length_blockBytes,
      List.length_take, List.length_drop]
    omega

/-- The first 16 bytes are those of the first block, and the rest those of the rest of the data under the
incremented counter: the first block is full, or nothing follows it. -/
theorem take_drop_gctr (s : List Byte) :
    (gctr enc icb s).take 16 = xorBytes (s.take 16) (blockBytes (enc icb)) ∧
      (gctr enc icb s).drop 16 = gctr enc (inc32 icb) (s.drop 16) := by
  by_cases hne : s = []
  · subst hne; exact ⟨rfl, rfl⟩
  rw [gctr_of_ne_nil enc icb hne]
  by_cases hfull : 16 ≤ s.length
  · have hlen : (xorBytes (s.take 16) (blockBytes (enc icb))).length = 16 := by
      rw [length_xorBytes, length_blockBytes, List.length_take_of_le hfull, min_self]
    exact ⟨List.take_left' hlen, List.drop_left' hlen⟩
  · have hlen : (xorBytes (s.take 16) (blockBytes (enc icb))).length ≤ 16 :=
      (length_xorBytes _ _).trans_le (min_le_right _ _)
    rw [List.drop_of_length_le (by omega : s.length ≤ 16), gctr_nil, List.append_nil]
    exact ⟨List.take_of_length_le hlen, List.drop_of_length_le hlen⟩

/-- From block `i` on it is GCTR from the counter incremented `i` times (42_gctr.md R158). -/
theorem drop_mul_gctr (i : Nat) (s : List Byte) :
    (gctr enc icb s).drop (16 * i) = gctr enc (inc32^[i] icb) (s.drop (16 * i)) := by
  induction i generalizing icb s with
  | zero => rfl
  | succ i ih =>
    rw [Nat.mul_succ, Nat.add_comm, ← List.drop_drop, (take_drop_gctr ..).2, ih, ← List.drop_drop,
      Function.iterate_succ_apply]

end

/-- The same keystream twice gives a string back. -/
theorem xorBytes_xorBytes {p k : List Byte} (h : p.length ≤ k.length) :
    xorBytes (xorBytes p k) k = p := by
  refine List.ext_getElem (by simp [h]) fun i h1 h2 => ?_
  simp [xorBytes]

/-- GCTR is its own inverse (42_gctr.md R160). -/
@[simp] theorem gctr_gctr (enc : Block → Block) (icb : Block) (s : List Byte) :
    gctr enc icb (gctr enc icb s) = s := by
  induction s using block_induction generalizing icb with
  | nil => simp only [gctr_nil]
  | block s hne ih =>
    have hne' : gctr enc icb s ≠ [] := by
      rwa [← List.length_pos_iff, length_gctr, List.length_pos_iff]
    obtain ⟨htake, hdrop⟩ := take_drop_gctr enc icb s
    have hpiece : (s.take 16).length ≤ (blockBytes (enc icb)).length := by
      rw [length_blockBytes, List.length_take]; omega
    rw [gctr_of_ne_nil enc icb hne', htake, hdrop, ih, xorBytes_xorBytes hpiece,
      List.take_append_drop]

/-- Settles O39: block `i` is the first of what begins there (`drop_mul_gctr`, `take_drop_gctr`). -/
theorem gctrBlockwise : Obligations.GctrBlockwise := fun enc icb data =>
  ⟨length_gctr enc icb data, fun i _ => by rw [drop_mul_gctr, (take_drop_gctr ..).1]⟩

/-- Settles O40, by `gctr_gctr`. -/
theorem gctrIsInvolution : Obligations.GctrIsInvolution := gctr_gctr

/-! ### The pre-counter block and the empty message (R172, R181) -/

theorem blockBytes_deriveJ0 (h : Block) {iv : List Byte} (hiv : iv.length = 12) :
    blockBytes (deriveJ0 h iv) = iv ++ [0x00, 0x00, 0x00, 0x01] := by
  rw [deriveJ0, if_pos hiv, blockBytes_blockOf (by rw [List.length_append, hiv]; rfl)]

/-- `j1` of the direct path: the counter goes from 1 to 2. -/
theorem blockBytes_inc32_deriveJ0 (h : Block) {iv : List Byte} (hiv : iv.length = 12) :
    blockBytes (inc32 (deriveJ0 h iv)) = iv ++ [0x00, 0x00, 0x00, 0x02] := by
  have hcounter : toBe32 (be32 [0x00, 0x00, 0x00, 0x01] + 1) = [0x00, 0x00, 0x00, 0x02] := by decide
  rw [blockBytes_inc32, blockBytes_deriveJ0 h hiv, ← hiv, List.take_left, List.drop_left, hcounter]

/-- Of an empty message without AAD GHASH runs over the zero length block alone (43_gcm.md R181). -/
theorem ghashS_nil_nil (h : Block) : ghashS h [] [] = 0 := by
  have hblock : padBlock (lengthBlock 0 0) = 0 := by decide
  have hne : lengthBlock 0 0 ≠ [] := by decide
  rw [ghashS, ghashUpdate_nil, ghashUpdate_nil, List.length_nil,
    ghashUpdate_block _ _ hne (length_lengthBlock 0 0).le, hblock, BitVec.xor_self]
  exact gf128Mul_zero_left h

/-- Settles O41: the direct path by `blockBytes_deriveJ0` and `blockBytes_inc32_deriveJ0`, the other by
its definition, the examples computed; the empty message by `ghashS_nil_nil`. -/
theorem directPathAndEmptyMessage : Obligations.DirectPathAndEmptyMessage := by
  refine ⟨fun h iv hiv => ⟨blockBytes_deriveJ0 h hiv, blockBytes_inc32_deriveJ0 h hiv⟩,
    fun h iv hiv => if_neg hiv, ⟨by decide +kernel, by decide, by decide +kernel⟩, fun enc iv => ?empty⟩
  case empty =>
    rw [gcmTag, ghashS_nil_nil, fullTag, BitVec.ofNat_eq_ofNat, BitVec.zero_xor]

end Sys2Proof.Machine
end

section
/-! The range check and the overlap check in terms of addresses (20_memory.md R66, R67). -/

namespace Sys2Proof.Machine

theorem inRange_iff (r : Range) (a : Nat) : inRange r a = true ↔ r.base ≤ a ∧ a < r.base + r.len := by
  simp [inRange]

/-- The range check fails for a range that is not empty and ends beyond `MEM_BYTES` (R66). -/
theorem rangeBad_iff (size : Nat) (f : Footprint) :
    rangeBad size f = true ↔ ∃ r ∈ f.ranges, 0 < r.len ∧ size < r.base + r.len := by
  have hfits : ∀ r, (!rangeFits size r) = true ↔ 0 < r.len ∧ size < r.base + r.len := fun r => by
    rw [Bool.not_eq_true', ← Bool.not_eq_true, rangeFits_iff]
    omega
  simp only [rangeBad, List.any_eq_true, hfits]

theorem rangeBad_eq_false_iff (size : Nat) (f : Footprint) :
    rangeBad size f = false ↔ ∀ r ∈ f.ranges, rangeFits size r = true := by
  simp [rangeBad]

/-- Ranges overlap when they share an address: the later of their bases, if any (R67). -/
theorem rangesOverlap_iff_exists (r q : Range) :
    rangesOverlap r q = true ↔ ∃ a, inRange r a = true ∧ inRange q a = true := by
  simp only [rangesOverlap_iff, inRange_iff]
  constructor
  · rintro ⟨hr, hq, hrq, hqr⟩
    exact ⟨max r.base q.base, by omega, by omega⟩
  · rintro ⟨a, hr, hq⟩
    omega

theorem rangesOverlap_eq_false {r q : Range} (h : ∀ a, inRange r a = true → inRange q a = false) :
    rangesOverlap r q = false := by
  refine Bool.eq_false_iff.2 fun hoverlap => ?_
  obtain ⟨a, hr, hq⟩ := (rangesOverlap_iff_exists r q).1 hoverlap
  exact Bool.false_ne_true ((h a hr).symm.trans hq)

theorem rangesOverlap_comm (r q : Range) : rangesOverlap r q = rangesOverlap q r := by
  rw [Bool.eq_iff_iff, rangesOverlap_iff_exists, rangesOverlap_iff_exists]
  simp only [and_comm]

/-- The overlap check by its four clauses (R67). -/
theorem overlapBad_iff (f : Footprint) : overlapBad f = true ↔
    (∃ q ∈ f.inputs, rangesOverlap f.out q = true) ∨
    (f.out.base ≠ f.data.base ∧ rangesOverlap f.out f.data = true) ∨
    (∃ q ∈ f.data :: f.inputs, rangesOverlap f.tagOut q = true) ∨
    rangesOverlap f.out f.tagOut = true := by
  simp only [overlapBad, Bool.or_eq_true, List.any_eq_true, Bool.and_eq_true, bne_iff_ne, or_assoc,
    and_comm (a := rangesOverlap f.out f.data = true)]

theorem overlapBad_eq_false_iff (f : Footprint) : overlapBad f = false ↔
    (∀ q ∈ f.inputs, rangesOverlap f.out q = false) ∧
    (f.out.base = f.data.base ∨ rangesOverlap f.out f.data = false) ∧
    (∀ q ∈ f.data :: f.inputs, rangesOverlap f.tagOut q = false) ∧
    rangesOverlap f.out f.tagOut = false := by
  rw [← Bool.not_eq_true, overlapBad_iff]
  simp only [not_or, not_exists, not_and, Bool.not_eq_true]
  simp only [ne_eq, or_iff_not_imp_left]

/-- Settles O23: the two checks by `rangeBad_iff` and `overlapBad_iff`, each overlap in them as an address
shared by `rangesOverlap_iff_exists`. -/
theorem rangeAndOverlapChecks : Obligations.RangeAndOverlapChecks := by
  refine ⟨rangeBad_iff, rangesOverlap_iff_exists, fun f => ?_⟩
  simp only [overlapBad_iff, rangesOverlap_iff_exists]

end Sys2Proof.Machine
end

section
/-! What a command does, as one function of the state (10_state.md R22, 20_memory.md R65): where its
checks pass, it writes at most one block register and its output ranges, and completes with its verdict.
The engine's sequencing by `PHASE` computes this. -/

namespace Sys2Proof.Machine

/-! ### What a command computes -/

/-- `E` under the key in the key range (43_gcm.md R170). -/
def State.keyCipher (s : State) (k : KeySize) : Block → Block :=
  Config.cipher k (s.readRange Config.env (s.regs.keyRange k))

/-- The payload of an orchestrator command: the data range under GCTR (43_gcm.md R174). -/
def State.payload (s : State) (k : KeySize) : List Byte :=
  gcmPayload (s.keyCipher k) (s.readRange Config.env s.regs.ivRange)
    (s.readRange Config.env s.regs.dataRange)

/-- The cut tag over a ciphertext (43_gcm.md R175 to R178). -/
def State.cutTag (s : State) (k : KeySize) (tlen : BitVec 5) (ct : List Byte) : List Byte :=
  truncTag tlen.toNat (gcmTag (s.keyCipher k) (s.readRange Config.env s.regs.ivRange)
    (s.readRange Config.env s.regs.aadRange) ct)

/-- The verdict of DECRYPT (43_gcm.md R183, R184). -/
def State.verdict (s : State) (k : KeySize) (tlen : BitVec 5) : Auth :=
  if s.cutTag k tlen (s.readRange Config.env s.regs.dataRange) =
      s.readRange Config.env (s.regs.tagRange tlen) then .authentic
  else .forged

/-- What DECRYPT writes under each verdict (43_gcm.md R185). -/
def State.released (s : State) (k : KeySize) : Auth → List Byte
  | .authentic => s.payload k
  | .none | .forged => zeroBytes s.regs.outRange.len

/-- The block a command leaves in the register that `writtenBlock` names. -/
def commandBlock (i : Instr) (s : State) : Block :=
  match i with
  | .gfmul _ ba bb => gf128Mul (s.getB ba) (s.getB bb)
  | .inc32 _ ba => inc32 (s.getB ba)
  | .ldb _ => blockOf (s.readRange Config.env s.regs.loadRange)
  | .hkey ks => ks.elim 0 (fun k => s.keyCipher k 0)
  | .ghash => ghashUpdate (s.getB regH) (s.getB regY) (s.readRange Config.env s.regs.dataRange)
  | .stb _ | .gctr _ | .encrypt _ _ | .decrypt _ _ => 0

/-- The bytes a command writes, each string with its range, in order. -/
def commandWrites (i : Instr) (s : State) : List (Range × List Byte) :=
  match i with
  | .stb ba => [(s.regs.storeRange, blockBytes (s.getB ba))]
  | .gctr ks => ks.elim [] (fun k =>
      [(s.regs.outRange,
        gctr (s.keyCipher k) (s.getB regCB) (s.readRange Config.env s.regs.dataRange))])
  | .encrypt ks tlen => ks.elim [] (fun k =>
      [(s.regs.outRange, s.payload k), (s.regs.tagRange tlen, s.cutTag k tlen (s.payload k))])
  | .decrypt ks tlen => ks.elim [] (fun k =>
      [(s.regs.outRange, s.released k (s.verdict k tlen))])
  | .gfmul _ _ _ | .inc32 _ _ | .ldb _ | .hkey _ | .ghash => []

/-- `AUTH` at the completion of a command: a verdict for DECRYPT alone (43_gcm.md R184). -/
def commandVerdict (i : Instr) (s : State) : Auth :=
  match i with
  | .decrypt ks tlen => ks.elim .none (fun k => s.verdict k tlen)
  | .gfmul _ _ _ | .inc32 _ _ | .ldb _ | .stb _ | .hkey _ | .ghash | .gctr _ | .encrypt _ _ => .none

/-- The memory after several strings are written to their ranges, in order. -/
def Memory.writeRanges (init : Nat → Byte) (m : Memory) (ws : List (Range × List Byte)) : Memory :=
  ws.foldl (fun m w => Memory.writeBytes init m w.1.base w.2) m

/-- The block registers and `MEM` after a command whose checks pass; nothing else differs. -/
def commandEffect (i : Instr) (s : State) : State :=
  { s with
    blk := (writtenBlock i).elim s.blk (fun j => s.blk.set j (commandBlock i s))
    mem := Memory.writeRanges (s.init Config.env) s.mem (commandWrites i s) }

/-! ### The engine computes it -/

/-- No legal tag is longer than a block (30_encoding.md R92). -/
theorem toNat_le_of_tagFieldWf : ∀ {tlen : BitVec 5}, tagFieldWf tlen = true → tlen.toNat ≤ 16 := by
  decide

theorem length_truncTag (n : Nat) (t : Block) : (truncTag n t).length = min n 16 := by
  simp [truncTag]

@[simp] theorem length_readRange (env : Env) (s : State) (r : Range) :
    (s.readRange env r).length = r.len :=
  length_readBytes _ _ _ _

/-- `diff` of R183 is zero exactly when the tags agree, both being of the legal length. -/
theorem tagDiff_truncTag_eq_zero {tlen : BitVec 5} (h : tagFieldWf tlen = true) (t : Block) {env : Env}
    {s : State} {r : OperandRegs} :
    tagDiff (truncTag tlen.toNat t) (s.readRange env (r.tagRange tlen)) = 0 ↔
      truncTag tlen.toNat t = s.readRange env (r.tagRange tlen) := by
  have hle := toNat_le_of_tagFieldWf h
  refine tagDiff_eq_zero ?_
  rw [length_truncTag, length_readRange]
  exact min_eq_left hle

/-- The checks of R213 pass when none of them fails. -/
theorem commandError_eq_none_iff (i : Instr) (size : Nat) (r : OperandRegs) :
    commandError i size r = none ↔ keyFieldBad i = false ∧ (usesMessage i && r.ivLen == 0) = false ∧
      tagFieldBad i = false ∧ rangeBad size (commandFootprint i r) = false ∧
      overlapBad (commandFootprint i r) = false := by
  unfold commandError
  split_ifs <;> simp_all

theorem hkeyCommand_of_checks {k : KeySize} {s : State}
    (h : unitCheck (hkeyFootprint k) s.memBytes s.regs = none) :
    hkeyCommand Config.env (some k) s = (commandEffect (.hkey (some k)) s).complete .none := by
  rw [hkeyCommand, withKeySize_some, runUnit_pass h]
  rfl

theorem ghashCommand_of_checks {s : State} (h : unitCheck ghashFootprint s.memBytes s.regs = none) :
    ghashCommand Config.env s = (commandEffect .ghash s).complete .none := by
  rw [ghashCommand, runUnit_pass h]
  simp only [latch_transients, hash_acc]
  rfl

theorem gctrCommand_of_checks {k : KeySize} {s : State}
    (h : unitCheck (gctrFootprint k) s.memBytes s.regs = none) :
    gctrCommand Config.env (some k) s = (commandEffect (.gctr (some k)) s).complete .none := by
  rw [gctrCommand, withKeySize_some, runUnit_pass h]
  simp only [latch_transients, cryptInput_output]
  rfl

theorem encryptCommand_of_checks {k : KeySize} {tlen : BitVec 5} {s : State}
    (h : encryptCheck k tlen s.memBytes s.regs = none) :
    encryptCommand Config.env (some k) tlen s =
      (commandEffect (.encrypt (some k) tlen) s).complete .none := by
  rw [encryptCommand, withKeySize_some, runGcm_phases h, emitEncrypt]
  simp only [enter_transients, latch_transients, authTag_payloadDone, payloadDone_output,
    authTag_output, messageRead]
  rfl

theorem decryptCommand_of_checks {k : KeySize} {tlen : BitVec 5} {s : State}
    (htag : tagFieldWf tlen = true) (h : decryptCheck k tlen s.memBytes s.regs = none) :
    decryptCommand Config.env (some k) tlen s =
      (commandEffect (.decrypt (some k) tlen) s).complete (s.verdict k tlen) := by
  rw [decryptCommand, withKeySize_some, runGcm_phases h, emitDecrypt]
  simp only [enter_transients, latch_transients, authTag_payloadDone, payloadDone_output,
    payloadDone_input, payloadDone_tagIn, authTag_output, authTag_tagIn, messageRead]
  by_cases htags : s.cutTag k tlen (s.readRange Config.env s.regs.dataRange) =
      s.readRange Config.env (s.regs.tagRange tlen)
  · have hverdict : s.verdict k tlen = .authentic := if_pos htags
    refine (if_pos ((tagDiff_truncTag_eq_zero htag _).2 htags)).trans ?_
    simp only [commandEffect, commandWrites, Option.elim_some, hverdict]
    rfl
  · have hverdict : s.verdict k tlen = .forged := if_neg htags
    refine (if_neg (mt (tagDiff_truncTag_eq_zero htag _).1 htags)).trans ?_
    simp only [commandEffect, commandWrites, Option.elim_some, hverdict]
    rfl

/-- A command whose checks pass (60_exceptions.md R213) does what `commandEffect` says and completes. -/
theorem commandRun_of_checks {i : Instr} {s : State} (h : commandError i s.memBytes s.regs = none) :
    commandRun i s = (commandEffect i s).complete (commandVerdict i s) := by
  obtain ⟨-, -, htag, -, -⟩ := (commandError_eq_none_iff _ _ _).1 h
  have hchecks : engineChecks i s.memBytes s.regs = none := engineChecks_eq_commandError i ▸ h
  cases i with
  | gfmul bd ba bb =>
    rw [commandRun, gfmulCommand, runUnit_pass rfl]
    rfl
  | inc32 bd ba =>
    rw [commandRun, inc32Command, runUnit_pass rfl]
    rfl
  | ldb bd => exact runUnit_pass hchecks
  | stb ba => exact runUnit_pass hchecks
  | hkey ks =>
    cases ks with
    | none => cases hchecks
    | some k => exact hkeyCommand_of_checks hchecks
  | ghash => exact ghashCommand_of_checks hchecks
  | gctr ks =>
    cases ks with
    | none => cases hchecks
    | some k => exact gctrCommand_of_checks hchecks
  | encrypt ks tlen =>
    cases ks with
    | none => cases hchecks
    | some k => exact encryptCommand_of_checks hchecks
  | decrypt ks tlen =>
    cases ks with
    | none => cases hchecks
    | some k => exact decryptCommand_of_checks (by simpa [tagFieldBad] using htag) hchecks

/-- A command whose checks do not pass is its error completion (60_exceptions.md R213, R214). -/
theorem commandRun_of_error {i : Instr} {s : State} {e : ErrCode}
    (h : commandError i s.memBytes s.regs = some e) : commandRun i s = s.raiseError e :=
  (commandRun_tests i).fails h

theorem exec_eq_next_iff {i : Instr} {s t : State} : exec i s = .next t ↔ commandRun i s = t := by
  rw [exec_eq, Host.Outcome.next.injEq]

end Sys2Proof.Machine
end

section
/-! The results of the commands where their checks pass (40_gf128.md R130, 41_ghash.md R143, R144,
42_gctr.md R156, R160, 43_gcm.md R180, R183 to R185, 44_move.md R200, R201). -/

namespace Sys2Proof.Machine

/-- The completion without error, with its status word in numbers (10_state.md R27, R49). -/
theorem complete_eq_completed {v : Auth} {w : Word} (h : doneStatus v = w) (s : State) :
    s.complete v = s.completed w := h ▸ rfl

theorem doneStatus_none : doneStatus .none = 0x00000002 := by decide

theorem doneStatus_authentic : doneStatus .authentic = 0x00000012 := by decide

theorem doneStatus_forged : doneStatus .forged = 0x00000022 := by decide

/-- A command with no verdict whose checks pass. -/
theorem exec_of_checks {i : Instr} {s : State} (h : commandError i s.memBytes s.regs = none)
    (hverdict : commandVerdict i s = .none) :
    exec i s = .next ((commandEffect i s).completed 0x00000002) := by
  rw [exec_eq, commandRun_of_checks h, hverdict, complete_eq_completed doneStatus_none]

/-- Settles O42: GFMUL has no check that could fail, and its effect is the product. -/
theorem gfmulResult : Obligations.GfmulResult := fun bd ba bb s =>
  exec_of_checks (i := .gfmul bd ba bb) (s := s) rfl rfl

/-- Settles O43: INC32 has no check that could fail, and its effect is the increment. -/
theorem inc32Result : Obligations.Inc32Result := fun bd ba s =>
  exec_of_checks (i := .inc32 bd ba) (s := s) rfl rfl

/-- A command with neither `IV_LEN` nor `TLEN` to check, and one range that is not empty. -/
theorem checks_of_one_range {i : Instr} {size : Nat} {r : OperandRegs} {q : Range}
    (hkey : keyFieldBad i = false) (hmsg : usesMessage i = false) (htag : tagFieldBad i = false)
    (hranges : ∀ p ∈ (commandFootprint i r).ranges, p = q ∨ p = noRange)
    (hoverlap : overlapBad (commandFootprint i r) = false)
    (hfits : q.len = 0 ∨ q.base + q.len ≤ size) : commandError i size r = none := by
  refine (commandError_eq_none_iff i size r).2
    ⟨hkey, by rw [hmsg, Bool.false_and], htag, (rangeBad_eq_false_iff _ _).2 fun p hp => ?_, hoverlap⟩
  obtain rfl | rfl := hranges p hp
  · exact (rangeFits_iff size _).2 hfits
  · rfl

section
variable {size : Nat} {r : OperandRegs}

theorem ldb_checks (bd : BReg) (h : r.srcAddr.toNat + 16 ≤ size) :
    commandError (.ldb bd) size r = none := by
  refine checks_of_one_range (q := r.loadRange) rfl rfl rfl ?_ rfl (.inr h)
  simp [commandFootprint, ldbFootprint, Footprint.ranges]

theorem stb_checks (ba : BReg) (h : r.dstAddr.toNat + 16 ≤ size) :
    commandError (.stb ba) size r = none := by
  refine checks_of_one_range (q := r.storeRange) rfl rfl rfl ?_ rfl (.inr h)
  simp [commandFootprint, stbFootprint, Footprint.ranges]

theorem hkey_checks (k : KeySize) (h : r.keyAddr.toNat + klen k ≤ size) :
    commandError (.hkey (some k)) size r = none := by
  refine checks_of_one_range (q := r.keyRange k) rfl rfl rfl ?_ rfl (.inr h)
  simp [commandFootprint, hkeyFootprint, Footprint.ranges]

theorem ghash_checks (h : r.len.toNat = 0 ∨ r.srcAddr.toNat + r.len.toNat ≤ size) :
    commandError .ghash size r = none := by
  refine checks_of_one_range (q := r.dataRange) rfl rfl rfl ?_ rfl h
  simp [commandFootprint, ghashFootprint, Footprint.ranges]

end

theorem getD_blockBytes_blockOf {bs : List Byte} (h : bs.length = 16) (j : Nat) :
    (blockBytes (blockOf bs)).getD j 0 = bs.getD j 0 := by rw [blockBytes_blockOf h]

/-- Byte `j` of a range. -/
theorem getD_readRange (env : Env) (s : State) (r : Range) {j : Nat} (h : j < r.len) :
    (s.readRange env r).getD j 0 = s.readByte env (r.base + j) := by
  rw [List.getD_eq_getElem _ _ (by rwa [length_readRange])]
  exact getElem_readBytes _ _ _

/-- Settles O44: the block loaded is `blockOf` of the sixteen bytes, whose bytes are those again. -/
theorem ldbResult : Obligations.LdbResult := by
  intro bd s hfits
  refine ⟨_, exec_of_checks (ldb_checks bd hfits) rfl, fun j hj => ?_⟩
  exact (getD_blockBytes_blockOf (length_readRange _ _ _) j).trans (getD_readRange _ _ _ hj)

/-- Settles O45: the sixteen bytes of the register are written to the store range, and read back there
alone (`readByte_writeBytes`). -/
theorem stbResult : Obligations.StbResult := by
  intro ba s hinv hfits
  refine ⟨_, exec_of_checks (stb_checks ba hfits) rfl, fun a => ?_⟩
  have hread := readByte_writeBytes (s.init Config.env) (wf_ascending hinv.memory)
    s.regs.dstAddr.toNat (blockBytes (s.getB ba)) a
  rwa [length_blockBytes] at hread

/-- Settles O46: the one check is that the key range fits, and the effect is the cipher of the zero
block. -/
theorem hkeyResult : Obligations.HkeyResult :=
  ⟨fun k _ hfits => exec_of_checks (hkey_checks k hfits) rfl, rfl, rfl, rfl⟩

/-- Of no data the update is the accumulator, written back to `Y` (41_ghash.md R144). -/
theorem commandEffect_ghash_of_len_zero {s : State} (h : s.regs.len.toNat = 0) :
    commandEffect .ghash s = s := by
  have hdata : s.readRange Config.env s.regs.dataRange = [] :=
    List.length_eq_zero_iff.1 ((length_readRange _ _ _).trans h)
  have hsame : s.blk.set regY (commandBlock .ghash s) = s.blk := by
    rw [commandBlock, hdata, ghashUpdate_nil]
    exact Vector.set_getElem_self regY.isLt
  exact congrArg (fun b => { s with blk := b }) hsame

/-- Settles O47: the one check is that the data range fits, which an empty one always does. -/
theorem ghashResult : Obligations.GhashResult := by
  refine ⟨fun s hfits => exec_of_checks (ghash_checks (.inr hfits)) rfl, fun s hlen => ?_⟩
  have hlen' : s.regs.len.toNat = 0 := by rw [hlen]; rfl
  rw [exec_of_checks (ghash_checks (.inl hlen')) rfl, commandEffect_ghash_of_len_zero hlen']

/-- Settles O48: the checks are those the hypotheses state, by the addresses shared
(`rangesOverlap_eq_false`). -/
theorem gctrResult : Obligations.GctrResult := by
  intro k s hkey hlen hkeyOut hdataOut
  have hoverlap : overlapBad (gctrFootprint k s.regs) = false := by
    refine (overlapBad_eq_false_iff _).2 ⟨?_, ?_, fun _ _ => rfl, ?_⟩
    · exact List.forall_mem_singleton.2 (rangesOverlap_eq_false hkeyOut)
    · exact hdataOut.imp (congrArg BitVec.toNat) rangesOverlap_eq_false
    · rw [rangesOverlap_comm]; rfl
  have hranges : rangeBad s.memBytes (gctrFootprint k s.regs) = false := by
    have hdata : rangeFits s.memBytes s.regs.dataRange = true :=
      (rangeFits_iff _ _).2 (hlen.imp_right And.left)
    have hout : rangeFits s.memBytes s.regs.outRange = true :=
      (rangeFits_iff _ _).2 (hlen.imp_right And.right)
    have hkeyFits : rangeFits s.memBytes (s.regs.keyRange k) = true := (rangeFits_iff _ _).2 (.inr hkey)
    have hnone : rangeFits s.memBytes noRange = true := rfl
    simp [rangeBad_eq_false_iff, Footprint.ranges, gctrFootprint, hdata, hout, hkeyFits, hnone]
  exact exec_of_checks ((commandError_eq_none_iff _ _ _).2 ⟨rfl, rfl, rfl, hranges, hoverlap⟩) rfl

/-- The checks of an orchestrator command that pass (43_gcm.md R179). -/
theorem message_checks {i : Instr} {size : Nat} {r : OperandRegs} (hkey : keyFieldBad i = false)
    (hiv : r.ivLen ≠ 0) (htag : tagFieldBad i = false)
    (hrange : rangeBad size (commandFootprint i r) = false)
    (hoverlap : overlapBad (commandFootprint i r) = false) : commandError i size r = none := by
  refine (commandError_eq_none_iff i size r).2 ⟨hkey, ?_, htag, hrange, hoverlap⟩
  rw [beq_eq_false_iff_ne.2 hiv, Bool.and_false]

/-- The cut tag with its length block written from the operand registers (43_gcm.md R176 to R178). -/
theorem cutTag_eq (s : State) (k : KeySize) (tlen : BitVec 5) {ct : List Byte}
    (h : ct.length = s.regs.len.toNat) :
    s.cutTag k tlen ct =
      (blockBytes (ghashUpdate (s.keyCipher k 0) (ghashUpdate (s.keyCipher k 0)
          (ghashUpdate (s.keyCipher k 0) 0 (s.readRange Config.env s.regs.aadRange)) ct)
        (toBe64 (BitVec.ofNat 64 (8 * s.regs.aadLen.toNat)) ++
          toBe64 (BitVec.ofNat 64 (8 * s.regs.len.toNat))) ^^^
        s.keyCipher k (deriveJ0 (s.keyCipher k 0) (s.readRange Config.env s.regs.ivRange)))).take
        tlen.toNat := by
  rw [State.cutTag, truncTag, gcmTag, fullTag, ghashS, lengthBlock, bitLength, bitLength,
    length_readRange, h]
  rfl

@[simp] theorem length_payload (s : State) (k : KeySize) :
    (s.payload k).length = s.regs.len.toNat :=
  (length_gctr _ _ _).trans (length_readRange _ _ _)

/-- Settles O49: the checks pass (`message_checks`), and the effect is the ciphertext and the cut tag over
it, in the form of `cutTag_eq`. -/
theorem encryptResult : Obligations.EncryptResult := by
  intro k tlen s hiv htag hrange hoverlap
  have hchecks : commandError (.encrypt (some k) tlen) s.memBytes s.regs = none :=
    message_checks rfl hiv (by rw [tagFieldBad, htag]; rfl) hrange hoverlap
  have htagBytes := cutTag_eq s k tlen (length_payload s k)
  refine (exec_of_checks hchecks rfl).trans ?_
  simp only [commandEffect, commandWrites, Option.elim_some, htagBytes]
  rfl

/-- DECRYPT where its checks pass, by its verdict (43_gcm.md R185). -/
theorem exec_decrypt_of_checks {k : KeySize} {tlen : BitVec 5} {s : State}
    (h : commandError (.decrypt (some k) tlen) s.memBytes s.regs = none) :
    exec (.decrypt (some k) tlen) s =
      if s.cutTag k tlen (s.readRange Config.env s.regs.dataRange) =
          s.readRange Config.env (s.regs.tagRange tlen) then
        .next ((s.memWrite Config.env s.regs.outRange.base (s.payload k)).completed 0x00000012)
      else
        .next ((s.memWrite Config.env s.regs.outRange.base
          (zeroBytes s.regs.outRange.len)).completed 0x00000022) := by
  have heffect : commandEffect (.decrypt (some k) tlen) s =
      s.memWrite Config.env s.regs.outRange.base (s.released k (s.verdict k tlen)) := rfl
  have hverdict : commandVerdict (.decrypt (some k) tlen) s = s.verdict k tlen := rfl
  rw [exec_eq, commandRun_of_checks h, heffect, hverdict, State.verdict]
  split
  · rw [complete_eq_completed doneStatus_authentic]; rfl
  · rw [complete_eq_completed doneStatus_forged]; rfl

/-- Settles O50: the checks pass, and the verdict compares the tag in the form of `cutTag_eq`. -/
theorem decryptResult : Obligations.DecryptResult := by
  intro k tlen s hiv htag hrange hoverlap
  have hchecks : commandError (.decrypt (some k) tlen) s.memBytes s.regs = none :=
    message_checks rfl hiv (by rw [tagFieldBad, htag]; rfl) hrange hoverlap
  have htagBytes := cutTag_eq s k tlen (length_readRange Config.env s s.regs.dataRange)
  refine (exec_decrypt_of_checks hchecks).trans ?_
  rw [htagBytes]
  rfl

end Sys2Proof.Machine
end

section
/-! What every command keeps and what it does not look at (10_state.md R22, R27, R45, R49; 20_memory.md
R65, R66). -/

namespace Sys2Proof.Machine

/-! ### Every command completes (R49) -/

/-- The word is one that a completed command leaves in `STATUS` (10_state.md R27, R28). -/
def FinalStatus (w : Word) : Prop :=
  statusDone w = true ∧ statusBusy w = false ∧ w ∈ statusValues

theorem doneStatus_final (v : Auth) : FinalStatus (doneStatus v) := by
  unfold FinalStatus
  cases v <;> decide

theorem errorStatus_final (e : ErrCode) : FinalStatus (errorStatus e) := by
  unfold FinalStatus
  cases e <;> decide

/-- A command finishes with such a word, having changed at most what its effect changes. -/
theorem commandRun_eq_finish (i : Instr) (s : State) : ∃ w, FinalStatus w ∧
    (commandRun i s = s.finish w ∨ commandRun i s = (commandEffect i s).finish w) := by
  cases h : commandError i s.memBytes s.regs with
  | some e => exact ⟨_, errorStatus_final e, .inl (commandRun_of_error h)⟩
  | none => exact ⟨_, doneStatus_final _, .inr (commandRun_of_checks h)⟩

/-- Settles O11: a command finishes (`commandRun_eq_finish`), with a status that says so. -/
theorem everyCommandCompletes : Obligations.EveryCommandCompletes := by
  intro i s
  obtain ⟨w, ⟨hdone, hbusy, hvalue⟩, hrun | hrun⟩ := commandRun_eq_finish i s
  · exact ⟨s.finish w, (exec_eq i s).trans (congrArg _ hrun), hdone, hbusy, hvalue, rfl, rfl, rfl⟩
  · exact ⟨(commandEffect i s).finish w, (exec_eq i s).trans (congrArg _ hrun), hdone, hbusy, hvalue,
      rfl, rfl, rfl⟩

/-! ### What it keeps (R22) -/

/-- The effect leaves every block register but the one `writtenBlock` names. -/
theorem getB_commandEffect {i : Instr} {j : BReg} (hj : writtenBlock i ≠ some j) (s : State) :
    (commandEffect i s).getB j = s.getB j := by
  have hblk : (commandEffect i s).blk =
    (writtenBlock i).elim s.blk (fun k => (s.setB k (commandBlock i s)).blk) := rfl
  rw [State.getB, State.getB, hblk]
  cases hw : writtenBlock i with
  | none => rfl
  | some k =>
    have hne : k ≠ j := fun h => hj (h ▸ hw)
    exact (getB_setB s k j _).trans (if_neg hne)

/-- Settles O53: the effect sets the register `writtenBlock` names, and `MEM`. -/
theorem commandFrame : Obligations.CommandFrame := by
  intro i s t hexec
  obtain rfl := exec_eq_next_iff.1 hexec
  obtain ⟨w, -, hrun | hrun⟩ := commandRun_eq_finish i s <;> rw [hrun]
  · exact ⟨fun _ _ => rfl, rfl, rfl, rfl, rfl, rfl, rfl⟩
  · exact ⟨fun j hj => getB_commandEffect hj s, rfl, rfl, rfl, rfl, rfl, rfl⟩

/-! ### Where it writes (20_memory.md R65) -/

theorem length_released (s : State) (k : KeySize) (v : Auth) :
    (s.released k v).length = s.regs.outRange.len := by
  cases v with
  | authentic => exact length_payload s k
  | none => exact length_zeroBytes _
  | forged => exact length_zeroBytes _

theorem length_cutTag_le (s : State) (k : KeySize) (tlen : BitVec 5) (ct : List Byte) :
    (s.cutTag k tlen ct).length ≤ (s.regs.tagRange tlen).len :=
  (length_truncTag _ _).trans_le (min_le_left _ _)

/-- Every string is written to an output range of the command, and is no longer than it. -/
theorem commandWrites_within (i : Instr) (s : State) :
    ∀ p ∈ commandWrites i s, p.1 ∈ outputRanges i s.regs ∧ p.2.length ≤ p.1.len := by
  have hnone : ∀ p ∈ ([] : List (Range × List Byte)),
      p.1 ∈ outputRanges i s.regs ∧ p.2.length ≤ p.1.len := fun _ hp => absurd hp List.not_mem_nil
  cases i with
  | gfmul bd ba bb => exact hnone
  | inc32 bd ba => exact hnone
  | ldb bd => exact hnone
  | stb ba =>
    exact List.forall_mem_singleton.2 ⟨List.mem_singleton_self _, (length_blockBytes _).le⟩
  | hkey ks => exact hnone
  | ghash => exact hnone
  | gctr ks =>
    cases ks with
    | none => exact hnone
    | some k =>
      have hlen := (length_gctr (s.keyCipher k) (s.getB regCB) _).trans
        (length_readRange Config.env s s.regs.dataRange)
      exact List.forall_mem_singleton.2 ⟨List.mem_singleton_self _, hlen.le⟩
  | encrypt ks tlen =>
    cases ks with
    | none => exact hnone
    | some k =>
      refine List.forall_mem_cons.2 ⟨⟨List.mem_cons_self, (length_payload s k).le⟩, ?_⟩
      exact List.forall_mem_singleton.2
        ⟨List.mem_cons_of_mem _ (List.mem_singleton_self _), length_cutTag_le s k tlen _⟩
  | decrypt ks tlen =>
    cases ks with
    | none => exact hnone
    | some k =>
      exact List.forall_mem_singleton.2 ⟨List.mem_singleton_self _, (length_released s k _).le⟩

/-- The output ranges of a command whose `KS` is legal are ranges its checks look at (R65, R66). -/
theorem outputRanges_subset {i : Instr} (h : keyFieldBad i = false) (r : OperandRegs) :
    ∀ q ∈ outputRanges i r, q ∈ (commandFootprint i r).ranges := by
  cases i with
  | gfmul bd ba bb => simp [outputRanges]
  | inc32 bd ba => simp [outputRanges]
  | ldb bd => simp [outputRanges]
  | stb ba => simp [outputRanges, commandFootprint, stbFootprint, Footprint.ranges]
  | hkey ks => simp [outputRanges]
  | ghash => simp [outputRanges]
  | gctr ks =>
    obtain ⟨k, rfl⟩ := Option.isSome_iff_exists.1 (Option.isNone_eq_false_iff.1 h)
    simp [outputRanges, commandFootprint, gctrFootprint, Footprint.ranges]
  | encrypt ks tlen =>
    obtain ⟨k, rfl⟩ := Option.isSome_iff_exists.1 (Option.isNone_eq_false_iff.1 h)
    simp [outputRanges, commandFootprint, encryptFootprint, Footprint.ranges]
  | decrypt ks tlen =>
    obtain ⟨k, rfl⟩ := Option.isSome_iff_exists.1 (Option.isNone_eq_false_iff.1 h)
    simp [outputRanges, commandFootprint, decryptFootprint, Footprint.ranges]

section
variable (init : Nat → Byte)

/-- A byte outside every range that is written to keeps its value. -/
theorem readByte_writeRanges {m : Memory} (hm : m.ascending = true) {ws : List (Range × List Byte)}
    {a : Nat} (hlen : ∀ p ∈ ws, p.2.length ≤ p.1.len) (ha : ∀ p ∈ ws, inRange p.1 a = false) :
    Memory.readByte init (Memory.writeRanges init m ws) a = Memory.readByte init m a := by
  induction ws generalizing m with
  | nil => rfl
  | cons p ws ih =>
    obtain ⟨hp, hws⟩ := List.forall_mem_cons.1 hlen
    obtain ⟨hpa, hwsa⟩ := List.forall_mem_cons.1 ha
    have hout : ¬ (p.1.base ≤ a ∧ a < p.1.base + p.2.length) := by
      rw [← Bool.not_eq_true, inRange_iff] at hpa
      omega
    calc
      Memory.readByte init (Memory.writeRanges init m (p :: ws)) a =
          Memory.readByte init (Memory.writeBytes init m p.1.base p.2) a :=
        ih (ascending_writeBytes init hm _ _) hws hwsa
      _ = Memory.readByte init m a := by rw [readByte_writeBytes init hm, if_neg hout]

/-- Strings written to ranges that fit keep the canonical form. -/
theorem wf_writeRanges {m : Memory} {size : Nat} (hm : Memory.wf init size m = true)
    {ws : List (Range × List Byte)} (hlen : ∀ p ∈ ws, p.2.length ≤ p.1.len)
    (hfits : ∀ p ∈ ws, rangeFits size p.1 = true) :
    Memory.wf init size (Memory.writeRanges init m ws) = true := by
  induction ws generalizing m with
  | nil => exact hm
  | cons p ws ih =>
    obtain ⟨hp, hws⟩ := List.forall_mem_cons.1 hlen
    obtain ⟨hpfits, hwsfits⟩ := List.forall_mem_cons.1 hfits
    refine ih (m := Memory.writeBytes init m p.1.base p.2) ?_ hws hwsfits
    obtain hempty | hend := (rangeFits_iff size p.1).1 hpfits
    · have hnil : p.2 = [] := List.length_eq_zero_iff.1 (by omega)
      rw [hnil]
      exact hm
    · exact wf_writeBytes init hm (by omega)

end

/-- A command keeps the canonical form of `MEM` (20_memory.md R60, R66). -/
theorem commandEffect_wf {i : Instr} {s : State} (h : commandError i s.memBytes s.regs = none)
    (hmem : Memory.wf (s.init Config.env) s.memBytes s.mem = true) :
    Memory.wf (s.init Config.env) s.memBytes (commandEffect i s).mem = true := by
  obtain ⟨hkey, -, -, hrange, -⟩ := (commandError_eq_none_iff _ _ _).1 h
  refine wf_writeRanges _ hmem (fun p hp => (commandWrites_within i s p hp).2) fun p hp => ?_
  exact (rangeBad_eq_false_iff _ _).1 hrange _
    (outputRanges_subset hkey s.regs _ (commandWrites_within i s p hp).1)

/-- Settles O55: a command without error writes inside its output ranges (`commandWrites_within`), and one
with an error writes no byte. -/
theorem memoryFrame : Obligations.MemoryFrame := by
  intro i s t hinv hexec a ha
  obtain rfl := exec_eq_next_iff.1 hexec
  obtain ⟨w, -, hrun | hrun⟩ := commandRun_eq_finish i s <;> rw [hrun]
  · rfl
  · exact readByte_writeRanges _ (wf_ascending hinv.memory)
      (fun p hp => (commandWrites_within i s p hp).2)
      (fun p hp => ha p.1 (commandWrites_within i s p hp).1)

/-! ### What it does not look at (R27, R45) -/

/-- The same core but for what no command reads: `STATUS`, the transients, `PHASE`, the engine's word, the
held transactions and the agenda. -/
def State.otherwise (s : State) (status : Word) (tr : Transients) (p : Phase) (c : Option Word)
    (held : List HostTxn) (agenda : List Event) : State :=
  { s with status := status, transients := tr, phase := p, cmd := c, held := held, agenda := agenda }

section
variable (i : Instr) (s : State) (status : Word) (tr : Transients) (p : Phase) (c : Option Word)
  (held : List HostTxn) (agenda : List Event)

theorem commandEffect_otherwise : commandEffect i (s.otherwise status tr p c held agenda) =
    (commandEffect i s).otherwise status tr p c held agenda := by
  cases i <;> rfl

theorem commandVerdict_otherwise :
    commandVerdict i (s.otherwise status tr p c held agenda) = commandVerdict i s := by
  cases i <;> rfl

/-- What a command does is the same, and the held transactions and the agenda pass through it. -/
theorem commandRun_otherwise : commandRun i (s.otherwise status tr p c held agenda) =
    { commandRun i s with held := held, agenda := agenda } := by
  cases h : commandError i s.memBytes s.regs with
  | some e =>
    have h' : commandError i (s.otherwise status tr p c held agenda).memBytes
      (s.otherwise status tr p c held agenda).regs = some e := h
    rw [commandRun_of_error h, commandRun_of_error h']
    rfl
  | none =>
    have h' : commandError i (s.otherwise status tr p c held agenda).memBytes
      (s.otherwise status tr p c held agenda).regs = none := h
    rw [commandRun_of_checks h, commandRun_of_checks h', commandEffect_otherwise,
      commandVerdict_otherwise]
    rfl

end

/-- A command keeps the held transactions and the agenda. -/
theorem commandRun_keeps_queue (i : Instr) (s : State) :
    (commandRun i s).held = s.held ∧ (commandRun i s).agenda = s.agenda := by
  obtain ⟨w, -, hrun | hrun⟩ := commandRun_eq_finish i s <;> rw [hrun] <;> exact ⟨rfl, rfl⟩

/-- Settles O56, by `commandRun_otherwise` with the queues as they are. -/
theorem commandsIgnoreStatusAndTransients : Obligations.CommandsIgnoreStatusAndTransients := by
  intro i s status tr p c
  obtain ⟨hheld, hagenda⟩ := commandRun_keeps_queue i s
  have hrun := commandRun_otherwise i s status tr p c s.held s.agenda
  rw [exec_eq, exec_eq]
  refine congrArg Host.Outcome.next (hrun.trans ?_)
  rw [← hheld, ← hagenda]

end Sys2Proof.Machine
end

section
/-! The invariant of the core and what one step can do (10_state.md R25, R28, R45, R49;
70_reset_and_hazards.md R240 to R246). -/

namespace Sys2Proof.Machine

/-! ### Status words (R28) -/

/-- The bits of a status word that belong to no field. -/
theorem getLsbD_statusWord_reserved (busy done err : Bool) (auth : Auth) (code : Byte) {n : Nat}
    (hn : n = 3 ∨ n = 6 ∨ n = 7 ∨ 16 ≤ n) :
    (statusWord busy done err auth code).getLsbD n = false := by
  obtain rfl | rfl | rfl | hhigh := hn
  · simp [statusWord]
  · simp [statusWord, BitVec.getLsbD_of_ge]
  · simp [statusWord, BitVec.getLsbD_of_ge]
  · have hcode : code.getLsbD (n - 8) = false := BitVec.getLsbD_of_ge _ _ (by omega)
    have hauth : (authCode auth).getLsbD (n - 4) = false := BitVec.getLsbD_of_ge _ _ (by omega)
    have hlow : n ≠ 0 ∧ n - 1 ≠ 0 ∧ n - 2 ≠ 0 := by omega
    simp [statusWord, hcode, hauth, hlow]

/-- Settles O6: each field as it was put in, and `getLsbD_statusWord_reserved`. -/
theorem statusWordFields : Obligations.StatusWordFields := fun busy done err auth code =>
  ⟨statusBusy_statusWord .., statusDone_statusWord .., statusErr_statusWord ..,
    statusAuth_statusWord .., statusErrCode_statusWord .., fun _ hn =>
      getLsbD_statusWord_reserved busy done err auth code hn⟩

/-- Of the values of `STATUS` one has `BUSY` = 1. -/
theorem eq_one_of_statusBusy : ∀ w ∈ statusValues, statusBusy w = true → w = 0x00000001 := by
  simp [statusValues, statusBusy]

/-! ### States that have the invariant -/

/-- An idle core has the invariant where `STATUS` is one of its values and `MEM` is in its form. -/
theorem inv_of_idle {s : State} (hsize : Config.legalMemBytes s.memBytes)
    (hmem : Memory.wf (s.init Config.env) s.memBytes s.mem = true) (hvalue : s.status ∈ statusValues)
    (hbusy : statusBusy s.status = false) (hcmd : s.cmd = none) (hphase : s.phase = .idle)
    (htrans : s.transients = Transients.cleared) : s.Inv where
  size := hsize
  memory := hmem
  status := hvalue
  busy hb := absurd (hbusy.symm.trans hb) Bool.false_ne_true
  idle _ := ⟨hcmd, hphase⟩
  transients := htrans

/-- Settles O8: the reset state is idle, and no byte of its `MEM` is listed. -/
theorem resetSatisfiesInvariant : Obligations.ResetSatisfiesInvariant :=
  inv_of_idle (by decide) (wf_nil _ _) (by decide) (by decide) rfl rfl rfl

section
variable {s : State} (h : s.Inv)
include h

/-- What is held, what is to come and the reply are no part of the invariant. -/
theorem State.Inv.queues (held : List HostTxn) (agenda : List Event) (reply : Option HostReply) :
    { s with held := held, agenda := agenda, reply := reply }.Inv :=
  ⟨h.size, h.memory, h.status, h.busy, h.idle, h.transients⟩

theorem State.Inv.takeTurn : s.takeTurn.Inv := h.queues _ _ _

theorem State.Inv.answer (r : HostReply) : (s.answer r).Inv := h.queues _ _ _

theorem State.Inv.resetEvent : s.resetEvent.Inv :=
  inv_of_idle h.size (wf_nil _ _) resetSatisfiesInvariant.status
    (by decide : statusBusy (0 : Word) = false) rfl rfl rfl

theorem State.Inv.issueBusy (t : HostTxn) : (s.issueBusy t).Inv := by
  unfold State.issueBusy
  split
  · exact h.answer _
  · exact h.queues _ _ _

theorem State.Inv.finish {w : Word} (hw : FinalStatus w) : (s.finish w).Inv := by
  obtain ⟨-, hbusy, hvalue⟩ := hw
  exact inv_of_idle h.size h.memory hvalue hbusy rfl rfl rfl

/-- A command keeps the invariant (R45, R49): it finishes, and its writes keep the form of `MEM`. -/
theorem State.Inv.commandRun (i : Instr) : (commandRun i s).Inv := by
  cases hchecks : commandError i s.memBytes s.regs with
  | some e =>
    rw [commandRun_of_error hchecks]
    exact h.finish (errorStatus_final e)
  | none =>
    obtain ⟨-, hbusy, hvalue⟩ := doneStatus_final (commandVerdict i s)
    rw [commandRun_of_checks hchecks]
    exact inv_of_idle h.size (commandEffect_wf hchecks h.memory) hvalue hbusy rfl rfl rfl

/-- A register write keeps the invariant: to `CMD` it makes the core busy with the word (R49). -/
theorem State.Inv.writeReg (r : HostReg) (w : Word) : (s.writeReg r w).Inv := by
  cases r with
  | cmd =>
    exact ⟨h.size, h.memory, (by decide : busyStatus ∈ statusValues), fun _ => ⟨rfl, rfl⟩,
      fun hidle => absurd ((by decide : statusBusy busyStatus = true).symm.trans hidle) (by decide),
      h.transients⟩
  | status => exact h
  | operand n => exact ⟨h.size, h.memory, h.status, h.busy, h.idle, h.transients⟩
  | blockWord i k => exact ⟨h.size, h.memory, h.status, h.busy, h.idle, h.transients⟩

theorem State.Inv.memWrite {a : Nat} {bs : List Byte} (hfits : a + bs.length ≤ s.memBytes) :
    (s.memWrite Config.env a bs).Inv :=
  ⟨h.size, wf_writeBytes _ h.memory hfits, h.status, h.busy, h.idle, h.transients⟩

end

/-! ### A host transaction that proceeds (R48) -/

section
variable {env : Env} {s : State}

/-- A transaction faults never. -/
theorem perform_ne_fault (t : HostTxn) (f : Fault) : s.perform env t ≠ .fault f := by
  cases t with
  | regRead off => simp only [State.perform]; split <;> nofun
  | regWrite off w => simp only [State.perform]; split <;> nofun
  | memRead a n => simp only [State.perform]; split <;> nofun
  | memWrite a bs => simp only [State.perform]; split <;> nofun
  | regOtherWidth off bits => nofun

theorem perform_regRead {off : Nat} {r : HostReg} (h : findReg off = .ok r) :
    s.perform env (.regRead off) = .next (s.answer (.word (s.readReg r))) := by
  simp only [State.perform, h]

theorem perform_regWrite {off : Nat} {r : HostReg} (h : findReg off = .ok r) (w : Word) :
    s.perform env (.regWrite off w) = .next ((s.writeReg r w).answer .written) := by
  simp only [State.perform, h]

theorem perform_memRead {a n : Nat} (h : checkTransfer s.memBytes a n = .ok ()) :
    s.perform env (.memRead a n) = .next (s.answer (.bytes (s.memRead env a n))) := by
  simp only [State.perform, h]

theorem perform_memWrite {a : Nat} {bs : List Byte}
    (h : checkTransfer s.memBytes a bs.length = .ok ()) :
    s.perform env (.memWrite a bs) = .next ((s.memWrite env a bs).answer .written) := by
  simp only [State.perform, h]

end

/-- A transaction that proceeds keeps the invariant. -/
theorem State.Inv.perform {s u : State} (h : s.Inv) {t : HostTxn}
    (hnext : s.perform Config.env t = .next u) : u.Inv := by
  cases t with
  | regRead off =>
    cases hreg : findReg off with
    | error e => rw [perform_regRead_refused hreg] at hnext; cases hnext
    | ok r =>
      rw [perform_regRead hreg] at hnext
      cases hnext
      exact h.answer _
  | regWrite off w =>
    cases hreg : findReg off with
    | error e => rw [perform_regWrite_refused hreg] at hnext; cases hnext
    | ok r =>
      rw [perform_regWrite hreg] at hnext
      cases hnext
      exact (h.writeReg r w).answer _
  | memRead a n =>
    cases hcheck : checkTransfer s.memBytes a n with
    | error e => rw [perform_memRead_refused hcheck] at hnext; cases hnext
    | ok _ =>
      rw [perform_memRead hcheck] at hnext
      cases hnext
      exact h.answer _
  | memWrite a bs =>
    cases hcheck : checkTransfer s.memBytes a bs.length with
    | error e => rw [perform_memWrite_refused hcheck] at hnext; cases hnext
    | ok _ =>
      rw [perform_memWrite hcheck] at hnext
      cases hnext
      exact (h.memWrite ((checkTransfer_ok_iff _ _ _).1 hcheck).2).answer _
  | regOtherWidth off bits => cases hnext

/-! ### The engine's turn (R49) -/

/-- What the engine does with a word: the command it decodes to, or the error completion of an illegal
one (60_exceptions.md R213, order 1). -/
def engineRun (w : Word) (s : State) : State :=
  match decodeWord w with
  | .illegal _ => s.raiseError .illegalCmd
  | .command i => commandRun i s

theorem engineStep_eq {s : State} {w : Word} (h : s.cmd = some w) :
    engineStep s = .next (engineRun w s) := by
  rw [engineStep_some h, engineRun]
  cases decodeWord w with
  | illegal why => rfl
  | command i => exact exec_eq i s

/-- What the engine does keeps the queues and leaves a final status. -/
theorem engineRun_facts (w : Word) (s : State) : FinalStatus (engineRun w s).status ∧
    (engineRun w s).held = s.held ∧ (engineRun w s).agenda = s.agenda := by
  unfold engineRun
  cases decodeWord w with
  | illegal why => exact ⟨errorStatus_final .illegalCmd, rfl, rfl⟩
  | command i =>
    obtain ⟨v, hv, hrun | hrun⟩ := commandRun_eq_finish i s <;> simp only [hrun]
    · exact ⟨hv, rfl, rfl⟩
    · exact ⟨hv, rfl, rfl⟩

/-- The held transactions and the agenda pass through the engine's turn. -/
theorem engineRun_queues (w : Word) (s : State) (held : List HostTxn) (agenda : List Event) :
    engineRun w { s with held := held, agenda := agenda } =
      { engineRun w s with held := held, agenda := agenda } := by
  unfold engineRun
  cases decodeWord w with
  | illegal why => rfl
  | command i => exact commandRun_otherwise i s s.status s.transients s.phase s.cmd held agenda

theorem State.Inv.engineRun {s : State} (h : s.Inv) (w : Word) : (engineRun w s).Inv := by
  unfold Machine.engineRun
  cases decodeWord w with
  | illegal why => exact h.finish (errorStatus_final .illegalCmd)
  | command i => exact h.commandRun i

/-- In a state of the invariant the engine has a word to run in its turn. -/
theorem step_engineTurn {s : State} (h : s.Inv) (hturn : s.engineTurn) :
    ∃ w, s.cmd = some w ∧ step s = .next (engineRun w s.takeTurn) := by
  obtain ⟨hsome, -⟩ := h.busy hturn.1
  obtain ⟨w, hw⟩ := Option.isSome_iff_exists.1 hsome
  exact ⟨w, hw, (step_engine hturn).trans (engineStep_eq ((takeTurn_cmd s).trans hw))⟩

/-! ### One step -/

/-- What a step can be. -/
inductive StepCase (s : State) : Prop where
  /-- the reset event (70_reset_and_hazards.md R240) -/
  | reset (h : step s = .next s.takeTurn.resetEvent)
  /-- a transaction issued to a busy core (10_state.md R49) -/
  | issued (t : HostTxn) (h : step s = .next (s.takeTurn.issueBusy t))
  /-- the engine's turn -/
  | engine (h : s.engineTurn)
  /-- a transaction, held before or issued now, performed by an idle core -/
  | performed (t : HostTxn) (held : List HostTxn) (agenda : List Event)
      (h : step s = State.perform Config.env t { s with held := held, agenda := agenda, reply := none })
  /-- waiting -/
  | waited (h : step s = .next s.takeTurn)

theorem step_cases (s : State) : StepCase s := by
  by_cases hreset : s.agenda.head? = some .reset
  · exact .reset (step_of_head_reset hreset)
  cases hbusy : statusBusy s.status with
  | true =>
    cases hagenda : s.agenda with
    | nil => exact .engine ⟨hbusy, .inl hagenda⟩
    | cons e es =>
      cases e with
      | reset => exact absurd (by rw [hagenda]; rfl) hreset
      | host t => exact .issued t (step_host_busy hagenda hbusy)
      | engine => exact .engine ⟨hbusy, .inr (by rw [hagenda]; rfl)⟩
  | false =>
    cases hheld : s.held with
    | cons u us => exact .performed u us s.agenda (step_held hreset hbusy hheld)
    | nil =>
      cases hagenda : s.agenda with
      | nil => exact .waited (step_idle hbusy hheld (.inl hagenda))
      | cons e es =>
        cases e with
        | reset => exact absurd (by rw [hagenda]; rfl) hreset
        | host t => exact .performed t s.held s.agenda.tail (step_host_idle hagenda hbusy hheld)
        | engine => exact .waited (step_idle hbusy hheld (.inr (by rw [hagenda]; rfl)))

/-- Settles O9: by what a step can be (`step_cases`), each of which keeps the invariant. -/
theorem stepKeepsInvariant : Obligations.StepKeepsInvariant := by
  intro s t h hstep
  cases step_cases s with
  | reset hcase =>
    cases hcase.symm.trans hstep
    exact h.takeTurn.resetEvent
  | issued u hcase =>
    cases hcase.symm.trans hstep
    exact h.takeTurn.issueBusy u
  | engine hturn =>
    obtain ⟨w, -, hcase⟩ := step_engineTurn h hturn
    cases hcase.symm.trans hstep
    exact h.takeTurn.engineRun w
  | performed u held agenda hcase =>
    exact (h.queues held agenda none).perform (hcase.symm.trans hstep)
  | waited hcase =>
    cases hcase.symm.trans hstep
    exact h.takeTurn

/-- Settles O10: no transaction faults (`perform_ne_fault`), and in its turn the engine has a word to run
(`step_engineTurn`). -/
theorem stepNeverFaultsUnderInvariant : Obligations.StepNeverFaultsUnderInvariant := by
  refine ⟨fun s f h hfault => ?_, fun s h hturn => ?_⟩
  · cases step_cases s with
    | reset hcase => cases hcase.symm.trans hfault
    | issued u hcase => cases hcase.symm.trans hfault
    | engine hturn =>
      obtain ⟨w, -, hcase⟩ := step_engineTurn h hturn
      cases hcase.symm.trans hfault
    | performed u held agenda hcase => exact perform_ne_fault u f (hcase.symm.trans hfault)
    | waited hcase => cases hcase.symm.trans hfault
  · obtain ⟨w, -, hstep⟩ := step_engineTurn h hturn
    exact ⟨_, hstep⟩

/-- Settles O12: in its turn the engine runs the command of its word; the word of `withFetchWord` is the
command's own, which decodes to it (`decodeWord_encode`). -/
theorem engineStepRunsDecodedCommand : Obligations.EngineStepRunsDecodedCommand := by
  have hrun : ∀ (s : State) (w : Word) (i : Instr), s.engineTurn → s.cmd = some w →
      decodeWord w = .command i → step s = exec i s.takeTurn := fun s w i hturn hcmd hw => by
    rw [step_engine hturn, engineStep_some ((takeTurn_cmd s).trans hcmd), hw]
  refine ⟨hrun, fun s i => ?_⟩
  have hword : tableWord 32 (encode i).toNat = encode i := by
    rw [tableWord, Nat.mod_eq_of_lt (encode i).isLt, BitVec.ofNat_toNat, BitVec.setWidth_eq]
  have hturn : (s.withFetchWord 32 (encode i).toNat).engineTurn :=
    ⟨(by decide : statusBusy busyStatus = true), .inr rfl⟩
  have hcmd : (s.withFetchWord 32 (encode i).toNat).cmd = some (encode i) := congrArg some hword
  rw [hrun _ _ i hturn hcmd (decodeWord_encode i), State.withFetchWord, hword]
  rfl

end Sys2Proof.Machine
end

section
/-! The host at an idle and at a busy core (10_state.md R29, R32, R48, R49; 70_reset_and_hazards.md R245,
R246). -/

namespace Sys2Proof.Machine

/-! ### Transactions on an idle core -/

/-- A read of a mapped register proceeds and changes nothing. -/
theorem step_regRead {s : State} {off : Nat} {r : HostReg} (hturn : s.hostTurn (.regRead off))
    (hoff : off % 4 = 0) (hreg : hostReg off = some r) :
    step s = .next (s.takeTurn.answer (.word (s.readReg r))) :=
  ((step_hostTurn hturn).trans (perform_regRead ((findReg_ok_iff off r).2 ⟨hoff, hreg⟩))).trans
    (by cases r <;> rfl)

/-- A write of a mapped register proceeds. -/
theorem step_regWrite {s : State} {off : Nat} {r : HostReg} {w : Word}
    (hturn : s.hostTurn (.regWrite off w)) (hoff : off % 4 = 0) (hreg : hostReg off = some r) :
    step s = .next ((s.takeTurn.writeReg r w).answer .written) :=
  (step_hostTurn hturn).trans (perform_regWrite ((findReg_ok_iff off r).2 ⟨hoff, hreg⟩) w)

/-- Settles O13: offset 0 is `CMD`; what a write there does is the acceptance of the word. -/
theorem commandRegisterAccess : Obligations.CommandRegisterAccess := by
  refine ⟨fun s w hturn => ?_, fun s hturn => ?_⟩
  · have hstatus : busyStatus = 0x00000001 := by decide
    rw [step_regWrite hturn rfl (r := .cmd) rfl, State.writeReg, State.accept, hstatus]
    rfl
  · exact step_regRead hturn rfl (r := .cmd) rfl

/-- Every mapped offset (10_state.md R32). -/
theorem exists_hostReg {off : Nat} (hoff : off % 4 = 0)
    (h : off ≤ 0x28 ∨ (0x80 ≤ off ∧ off ≤ 0xfc)) : ∃ r, hostReg off = some r := by
  unfold hostReg
  rw [if_neg (by omega)]
  obtain hlow | ⟨hlo, hhi⟩ := h
  · have hindex : off / 4 < namedRegs.length := by
      simp only [namedRegs, List.length_cons, List.length_nil]
      omega
    exact ⟨namedRegs[off / 4], by rw [if_pos (by omega), List.getElem?_eq_getElem hindex]⟩
  · rw [if_neg (by omega), blockWordReg, dif_pos (by omega)]
    exact ⟨_, rfl⟩

/-- A write of a register and the turn of the agenda do not meet. -/
theorem writeReg_takeTurn_answer (s : State) (r : HostReg) (w : Word) (v : HostReply) :
    (s.takeTurn.writeReg r w).answer v =
      { s.writeReg r w with agenda := s.agenda.tail, reply := some v } := by
  cases r <;> rfl

/-- Settles O18: the map by its list, and each transaction by the register at its offset
(`exists_hostReg`) or the bytes of its range. -/
theorem mappedTransactionsProceed : Obligations.MappedTransactionsProceed := by
  refine ⟨fun s row hrow => ?map, fun s off hturn hoff hmapped => ?read,
    fun s off w hturn hoff hmapped => ?write, fun s a n hturn hpos hfits => ?memRead⟩
  case map =>
    simp only [List.mem_cons, List.not_mem_nil, or_false] at hrow
    obtain rfl | rfl | rfl | rfl | rfl | rfl | rfl | rfl | rfl | rfl | rfl := hrow
    all_goals exact ⟨by dsimp only; decide, rfl⟩
  case read =>
    obtain ⟨r, hreg⟩ := exists_hostReg hoff hmapped
    exact ⟨r, hreg, step_regRead hturn hoff hreg⟩
  case write =>
    obtain ⟨r, hreg⟩ := exists_hostReg hoff hmapped
    exact ⟨r, hreg, (step_regWrite hturn hoff hreg).trans
      (congrArg _ (writeReg_takeTurn_answer s r w .written))⟩
  case memRead =>
    exact (step_hostTurn hturn).trans
      (perform_memRead ((checkTransfer_ok_iff _ _ _).2 ⟨hpos, hfits⟩))

/-! ### Register writes read back (R21, R30) -/

/-- Word `k` of a block reads as it was written, and the other three as before (10_state.md R23). -/
theorem blockWord_setBlockWord (b : Block) (k m : Fin 4) (w : Word) :
    blockWord (setBlockWord b k w) m = if m = k then w else blockWord b m := by
  refine BitVec.eq_of_getLsbD_eq fun j hj => ?_
  have hbit : 32 * (3 - m.val) + j < 128 := by omega
  rw [blockWord, BitVec.getLsbD_extractLsb', getLsbD_setBlockWord _ _ _ hbit, decide_eq_true hj,
    Bool.true_and]
  by_cases hmk : m = k
  · subst hmk
    rw [if_pos (by omega), if_pos rfl, Nat.add_sub_cancel_left]
  · have hne : m.val ≠ k.val := mt Fin.ext hmk
    rw [if_neg (by omega), if_neg hmk, blockWord, BitVec.getLsbD_extractLsb', decide_eq_true hj,
      Bool.true_and]

/-- Settles O20: a write of an operand register by `OperandRegs.get_set`, of a word of a block register
by `getB_setB` and `blockWord_setBlockWord`. -/
theorem registerWriteFrame : Obligations.RegisterWriteFrame := by
  refine ⟨fun s r q w hcmd hstatus => ?_, fun s w => rfl⟩
  cases r with
  | cmd => exact absurd rfl hcmd
  | status => exact absurd rfl hstatus
  | operand n =>
    cases q with
    | cmd => rfl
    | status => rfl
    | operand m =>
      simp only [State.readReg, writeOperand_regs, OperandRegs.get_set, HostReg.operand.injEq]
    | blockWord j m => rfl
  | blockWord i k =>
    cases q with
    | cmd => rfl
    | status => rfl
    | operand m => rfl
    | blockWord j m =>
      simp only [State.readReg, State.writeReg, getB_setB, HostReg.blockWord.injEq]
      by_cases hij : i = j
      · subst hij
        simp only [if_true, true_and, blockWord_setBlockWord]
      · rw [if_neg hij, if_neg fun h => hij h.1.symm]

/-! ### Host memory writes -/

/-- Settles O21: the write proceeds, its bytes read back (`readBytes_writeBytes`), and it touches no byte
outside its range (`readByte_writeBytes`). -/
theorem hostMemoryWriteThenRead : Obligations.HostMemoryWriteThenRead := by
  intro s a bs hinv hturn hne hfits
  have hpos : 0 < bs.length := List.length_pos_iff.2 hne
  have hasc := wf_ascending hinv.memory
  refine ⟨_, (step_hostTurn hturn).trans
    (perform_memWrite ((checkTransfer_ok_iff _ _ _).2 ⟨hpos, hfits⟩)),
    readBytes_writeBytes _ hasc a bs, fun x hx => ?_, rfl, rfl, rfl⟩
  exact (readByte_writeBytes _ hasc a bs x).trans (if_neg (by omega))

/-! ### Transactions at a busy core (R49) -/

/-- Settles O14: `STATUS` is 1 while busy (`eq_one_of_statusBusy`), and what is not a read of it is
held. -/
theorem busyTransactionsAreHeld : Obligations.BusyTransactionsAreHeld := by
  intro s t hinv hbusy hhead
  obtain ⟨es, hes⟩ := List.head?_eq_some_iff.1 hhead
  have hstep := step_host_busy hes hbusy
  refine ⟨fun ht => ?_, fun ht => ?_⟩
  · have hstatus := eq_one_of_statusBusy s.status hinv.status hbusy
    rw [hstep, State.issueBusy, if_pos ht, takeTurn_status]
    exact congrArg (fun w => Host.Outcome.next (s.takeTurn.answer (.word w))) hstatus
  · rw [hstep, State.issueBusy, if_neg ht]
    rfl

/-- A transaction issued to a busy core is held, unless it reads `STATUS`. -/
theorem issueBusy_held (s : State) (t : HostTxn) :
    (s.issueBusy t).held = s.held ++ [t].filter (fun u => u ≠ .regRead 0x04) := by
  unfold State.issueBusy
  by_cases ht : t = .regRead 0x04
  · simp [ht]
  · simp [ht]

theorem issueBusy_status (s : State) (t : HostTxn) : (s.issueBusy t).status = s.status := by
  unfold State.issueBusy
  split <;> rfl

theorem issueBusy_agenda (s : State) (t : HostTxn) : (s.issueBusy t).agenda = s.agenda := by
  unfold State.issueBusy
  split <;> rfl

/-- Settles O16, by induction on the transactions: each is answered or held and leaves the core busy, and
then the engine has the turn. -/
theorem busyEngineCompletes : Obligations.BusyEngineCompletes := by
  intro s hs es hinv hbusy hagenda
  induction hs generalizing s with
  | nil =>
    have hturn : s.engineTurn := ⟨hbusy, .inr (by rw [hagenda]; rfl)⟩
    obtain ⟨w, -, hstep⟩ := step_engineTurn hinv hturn
    obtain ⟨⟨hdone, hidle, -⟩, hheld, hqueue⟩ := engineRun_facts w s.takeTurn
    refine ⟨_, (run_one s).trans hstep, hidle, hdone, ?_, ?_⟩
    · rw [hqueue, takeTurn_agenda, hagenda]; rfl
    · rw [hheld, takeTurn_held]; exact (List.append_nil _).symm
  | cons t hs ih =>
    have hstep := step_host_busy hagenda hbusy
    obtain ⟨u, hrun, hidle, hdone, hqueue, hheld⟩ := ih (s.takeTurn.issueBusy t)
      (hinv.takeTurn.issueBusy t) (by rw [issueBusy_status]; exact hbusy)
      (by rw [issueBusy_agenda, takeTurn_agenda, hagenda]; rfl)
    refine ⟨u, (run_succ hstep).trans hrun, hidle, hdone, hqueue, ?_⟩
    rw [hheld, issueBusy_held, takeTurn_held, List.append_assoc, ← List.filter_append]
    rfl

/-- The engine's turn with given queues, from a state of the invariant with the reply cleared. -/
theorem step_engine_queues {s : State} {w : Word} (hbusy : statusBusy s.status = true)
    (hw : s.cmd = some w) (held : List HostTxn) (es : List Event) (reply : Option HostReply) :
    step { s with held := held, agenda := .engine :: es, reply := reply } =
      .next { engineRun w { s with reply := none } with held := held, agenda := es } := by
  have hturn : State.engineTurn { s with held := held, agenda := .engine :: es, reply := reply } :=
    ⟨hbusy, .inr rfl⟩
  calc
    step { s with held := held, agenda := .engine :: es, reply := reply } =
        engineStep { s with held := held, agenda := es, reply := none } := step_engine hturn
    _ = .next (engineRun w { s with held := held, agenda := es, reply := none }) := engineStep_eq hw
    _ = .next { engineRun w { s with reply := none } with held := held, agenda := es } :=
      congrArg _ (engineRun_queues w { s with reply := none } held es)

/-- Settles O15: held, the transaction is performed in the step after the engine's turn; polled, it is
issued in that step; both queues pass through the engine's turn (`step_engine_queues`). -/
theorem heldTransactionEqualsPolled : Obligations.HeldTransactionEqualsPolled := by
  intro s t es hinv hbusy hnone ht hreset
  obtain ⟨w, hw⟩ := Option.isSome_iff_exists.1 (hinv.busy hbusy).1
  obtain ⟨e, he⟩ : ∃ e, e = engineRun w { s with reply := none } := ⟨_, rfl⟩
  have hidle : statusBusy e.status = false := by
    obtain ⟨⟨-, hidle, -⟩, -, -⟩ := engineRun_facts w { s with reply := none }
    rw [he, hidle]
  have hheld : step { s with agenda := .host t :: .engine :: es } =
      .next { s with held := [t], agenda := .engine :: es, reply := none } := by
    refine (step_host_busy (s := { s with agenda := .host t :: .engine :: es }) rfl hbusy).trans ?_
    rw [State.issueBusy, if_neg ht, takeTurn_held, hnone]
    rfl
  have hpolled := step_engine_queues hbusy hw s.held (.host t :: es) s.reply
  have hrunHeld : Host.Core.run Sys2Proof.core 3 { s with agenda := .host t :: .engine :: es } =
      step { e with held := [t], agenda := es } := by
    rw [run_succ hheld, run_succ (step_engine_queues hbusy hw [t] es none), run_one, he]
  have hrunPolled : Host.Core.run Sys2Proof.core 2 { s with agenda := .engine :: .host t :: es } =
      step { e with held := s.held, agenda := .host t :: es } := by
    rw [run_succ hpolled, run_one, he]
  rw [hrunHeld, hrunPolled, hnone]
  calc
    step { e with held := [t], agenda := es } =
        State.perform Config.env t { e with held := [], agenda := es, reply := none } :=
      step_held hreset hidle rfl
    _ = step { e with held := [], agenda := .host t :: es } :=
      (step_host_idle (s := { e with held := [], agenda := .host t :: es }) rfl hidle rfl).symm

/-! ### Memories that read alike -/

theorem mem_of_lookup {m : Memory} {a : Nat} {b : Byte} (h : m.lookup a = some b) : (a, b) ∈ m := by
  induction m with
  | nil => cases h
  | cons e m ih =>
    obtain ⟨x, c⟩ := e
    rw [lookup_cons] at h
    split at h
    case isTrue hx => cases h; rw [hx]; exact List.mem_cons_self
    case isFalse => exact List.mem_cons_of_mem _ (ih h)

/-- In canonical form a byte is listed exactly where it differs from the contents after reset. -/
theorem lookup_of_wf {init : Nat → Byte} {size : Nat} {m : Memory} (h : Memory.wf init size m = true)
    (a : Nat) : m.lookup a =
      if Memory.readByte init m a = init a then none else some (Memory.readByte init m a) := by
  unfold Memory.readByte
  cases hl : m.lookup a with
  | none => simp
  | some b =>
    have hb : b ≠ init a := (((wf_iff init m size).1 h).2 _ (mem_of_lookup hl)).2
    simp [hb]

/-- Two lists of cells by rising address with the same entries are the same list. -/
theorem eq_of_lookup_eq {m n : Memory} (hm : m.ascending = true) (hn : n.ascending = true)
    (h : ∀ a, m.lookup a = n.lookup a) : m = n := by
  induction m generalizing n with
  | nil =>
    cases n with
    | nil => rfl
    | cons e n =>
      obtain ⟨y, d⟩ := e
      have hy := h y
      simp [lookup_cons] at hy
  | cons e m ih =>
    obtain ⟨x, c⟩ := e
    obtain ⟨hxm, hm'⟩ := (ascending_cons m x c).1 hm
    cases n with
    | nil =>
      have hx := h x
      simp [lookup_cons] at hx
    | cons f n =>
      obtain ⟨y, d⟩ := f
      obtain ⟨hyn, hn'⟩ := (ascending_cons n y d).1 hn
      have hhead : x = y ∧ c = d := by
        have hxy : (x, c) ∈ (y, d) :: n :=
          mem_of_lookup ((h x).symm.trans (by rw [lookup_cons, if_pos rfl]))
        have hyx : (y, d) ∈ (x, c) :: m := mem_of_lookup ((h y).trans (by rw [lookup_cons, if_pos rfl]))
        obtain heq | hxn := List.mem_cons.1 hxy
        · exact Prod.mk.inj heq
        obtain heq | hym := List.mem_cons.1 hyx
        · exact Prod.mk.inj heq.symm
        · have hlt : y < x := hyn _ hxn
          have hgt : x < y := hxm _ hym
          omega
      obtain ⟨rfl, rfl⟩ := hhead
      refine congrArg _ (ih hm' hn' fun a => ?_)
      have ha := h a
      rw [lookup_cons, lookup_cons] at ha
      by_cases hxa : x = a
      · subst hxa
        rw [lookup_none_of_lt hxm, lookup_none_of_lt hyn]
      · rwa [if_neg hxa, if_neg hxa] at ha

/-- Settles O22: of canonical memories each byte determines its entry (`lookup_of_wf`), and the entries
the list (`eq_of_lookup_eq`); after a reset event no byte is listed. -/
theorem memoryDeterminedByItsBytes : Obligations.MemoryDeterminedByItsBytes := by
  refine ⟨fun init size m n hm hn h => ?_, fun s hreset => ?_⟩
  · refine eq_of_lookup_eq (wf_ascending hm) (wf_ascending hn) fun a => ?_
    rw [lookup_of_wf hm, lookup_of_wf hn, h]
  · exact ⟨_, step_of_head_reset hreset, fun a => rfl⟩

end Sys2Proof.Machine
end

section
/-! What the ranges of a command read as after it, and the laws that join two commands (10_state.md R51,
43_gcm.md R185, R187, 44_move.md R201). -/

namespace Sys2Proof.Machine

/-! ### Ranges after a write -/

/-- A range that shares no address with the ranges written to reads as before (20_memory.md R61). -/
theorem readBytes_writeRanges {init : Nat → Byte} {m : Memory} (hm : m.ascending = true)
    {ws : List (Range × List Byte)} {q : Range} (hlen : ∀ p ∈ ws, p.2.length ≤ p.1.len)
    (hsep : ∀ p ∈ ws, rangesOverlap p.1 q = false) :
    Memory.readBytes init (Memory.writeRanges init m ws) q.base q.len =
      Memory.readBytes init m q.base q.len := by
  refine List.ext_getElem (by simp) fun j hj _ => ?_
  rw [length_readBytes] at hj
  have hin : inRange q (q.base + j) = true := (inRange_iff _ _).2 (by omega)
  have hout : ∀ p ∈ ws, inRange p.1 (q.base + j) = false := fun p hp =>
    Bool.eq_false_iff.2 fun hp' => Bool.false_ne_true <|
      (hsep p hp).symm.trans ((rangesOverlap_iff_exists _ _).2 ⟨_, hp', hin⟩)
  rw [getElem_readBytes, getElem_readBytes, readByte_writeRanges init hm hlen hout]

section
variable {s : State}

/-- A string written to the whole of a range is what the range reads as (20_memory.md R61). -/
theorem readRange_memWrite (h : s.mem.ascending = true) {r : Range} {bs : List Byte}
    (hlen : bs.length = r.len) :
    (s.memWrite Config.env r.base bs).readRange Config.env r = bs := by
  rw [State.readRange, ← hlen]
  exact readBytes_writeBytes _ h r.base bs

theorem readRange_memWrite_of_not_overlap (h : s.mem.ascending = true) {r q : Range} {bs : List Byte}
    (hlen : bs.length ≤ r.len) (hsep : rangesOverlap r q = false) :
    (s.memWrite Config.env r.base bs).readRange Config.env q = s.readRange Config.env q :=
  readBytes_writeRanges (ws := [(r, bs)]) h (List.forall_mem_singleton.2 hlen)
    (List.forall_mem_singleton.2 hsep)

/-- A range that shares no address with the outputs of a command reads as before. -/
theorem readRange_commandEffect (h : s.mem.ascending = true) {i : Instr} {q : Range}
    (hsep : ∀ r ∈ outputRanges i s.regs, rangesOverlap r q = false) :
    (commandEffect i s).readRange Config.env q = s.readRange Config.env q :=
  readBytes_writeRanges h (fun p hp => (commandWrites_within i s p hp).2)
    fun p hp => hsep p.1 (commandWrites_within i s p hp).1

end

/-! ### A command with a given result -/

/-- A command whose status word is no error's has passed its checks. -/
theorem checks_of_status {i : Instr} {s : State}
    (h : ∀ e, (commandRun i s).status ≠ errorStatus e) : commandError i s.memBytes s.regs = none := by
  cases hchecks : commandError i s.memBytes s.regs with
  | none => rfl
  | some e => exact absurd (congrArg State.status (commandRun_of_error hchecks)) (h e)

theorem statusErr_errorStatus (e : ErrCode) : statusErr (errorStatus e) = true :=
  statusErr_statusWord false true true .none (errByte e)

theorem checks_of_statusErr {i : Instr} {s : State} (h : statusErr (commandRun i s).status = false) :
    commandError i s.memBytes s.regs = none :=
  checks_of_status fun e he => Bool.false_ne_true <|
    h.symm.trans ((congrArg statusErr he).trans (statusErr_errorStatus e))

/-! ### STB and LDB (44_move.md) -/

/-- Settles O60: the sixteen bytes that STB writes are those LDB reads (`readRange_memWrite`), and their
block is the register. -/
theorem registerCopyThroughMemory : Obligations.RegisterCopyThroughMemory := by
  intro ba bd s hinv hfits
  have hcopy : (s.memWrite Config.env s.regs.storeRange.base (blockBytes (s.getB ba))).readRange
      Config.env s.regs.storeRange = blockBytes (s.getB ba) :=
    readRange_memWrite (wf_ascending hinv.memory) (length_blockBytes _)
  refine ⟨_, _, exec_of_checks (stb_checks ba hfits) rfl,
    exec_of_checks (i := .ldb bd) (ldb_checks bd hfits) rfl, ?_⟩
  calc
    _ = blockOf ((s.memWrite Config.env s.regs.storeRange.base (blockBytes (s.getB ba))).readRange
        Config.env s.regs.storeRange) := (getB_setB _ bd bd _).trans (if_pos rfl)
    _ = s.getB ba := by rw [hcopy, blockOf_blockBytes]

/-! ### A forged DECRYPT (43_gcm.md R185) -/

/-- Settles O59: the status word is that of a DECRYPT that passed its checks and found the tags to differ,
which writes zeros. -/
theorem forgedOutputIsZero : Obligations.ForgedOutputIsZero := by
  intro ks tlen s t hinv hexec hstatus a ha
  obtain rfl := exec_eq_next_iff.1 hexec
  have herror : ∀ e, (0x00000022 : Word) ≠ errorStatus e := by intro e; cases e <;> decide
  have hchecks : commandError (.decrypt ks tlen) s.memBytes s.regs = none :=
    checks_of_status fun e he => herror e (hstatus.symm.trans he)
  have hkey : keyFieldBad (.decrypt ks tlen) = false := ((commandError_eq_none_iff _ _ _).1 hchecks).1
  obtain ⟨k, rfl⟩ := Option.isSome_iff_exists.1 (Option.isNone_eq_false_iff.1 hkey)
  rw [exec_decrypt_of_checks hchecks] at hexec
  split at hexec
  case isTrue =>
    have hauthentic := congrArg State.status (Host.Outcome.next.inj hexec)
    exact absurd (hauthentic.trans hstatus) (by decide : (0x00000012 : Word) ≠ 0x00000022)
  case isFalse =>
    obtain ⟨hlo, hhi⟩ := (inRange_iff _ _).1 ha
    have hbyte := readByte_writeBytes (s.init Config.env) (wf_ascending hinv.memory) s.regs.outRange.base
      (zeroBytes s.regs.outRange.len) a
    rw [length_zeroBytes, if_pos ⟨hlo, hhi⟩] at hbyte
    rw [← Host.Outcome.next.inj hexec]
    refine hbyte.trans ?_
    simp [zeroBytes]

/-! ### The outputs of ENCRYPT and DECRYPT -/

/-- The legal cut tag fills its range. -/
theorem length_cutTag {tlen : BitVec 5} (h : tagFieldWf tlen = true) (s : State) (k : KeySize)
    (ct : List Byte) : (s.cutTag k tlen ct).length = (s.regs.tagRange tlen).len :=
  (length_truncTag _ _).trans (min_eq_left (toNat_le_of_tagFieldWf h))

/-- After ENCRYPT the out range reads as the ciphertext and the tag range as the tag: the two outputs
share no address (20_memory.md R67). -/
theorem readRange_encrypt {k : KeySize} {tlen : BitVec 5} {s : State} (hm : s.mem.ascending = true)
    (h : commandError (.encrypt (some k) tlen) s.memBytes s.regs = none) :
    (commandEffect (.encrypt (some k) tlen) s).readRange Config.env s.regs.outRange = s.payload k ∧
    (commandEffect (.encrypt (some k) tlen) s).readRange Config.env (s.regs.tagRange tlen) =
      s.cutTag k tlen (s.payload k) := by
  obtain ⟨-, -, htag, -, hoverlap⟩ := (commandError_eq_none_iff _ _ _).1 h
  obtain ⟨-, -, -, hsep⟩ := (overlapBad_eq_false_iff _).1 hoverlap
  have hlen := length_cutTag (by simpa [tagFieldBad] using htag) s k (s.payload k)
  have hm' : (s.memWrite Config.env s.regs.outRange.base (s.payload k)).mem.ascending = true :=
    ascending_writeBytes _ hm _ _
  constructor
  · exact (readRange_memWrite_of_not_overlap hm' hlen.le ((rangesOverlap_comm _ _).trans hsep)).trans
      (readRange_memWrite hm (length_payload s k))
  · exact readRange_memWrite hm' hlen

/-- After DECRYPT the out range reads as what its verdict releases. -/
theorem readRange_decrypt {k : KeySize} {tlen : BitVec 5} {s : State} (hm : s.mem.ascending = true) :
    (commandEffect (.decrypt (some k) tlen) s).readRange Config.env s.regs.outRange =
      s.released k (s.verdict k tlen) :=
  readRange_memWrite hm (length_released s k _)

/-! ### What an orchestrator command depends on (10_state.md R51) -/

/-- Two states with the same operand registers and the same key, IV, AAD and data. -/
structure SameMessage (k : KeySize) (s1 s2 : State) : Prop where
  regs : s1.regs = s2.regs
  key  : s1.readRange Config.env (s1.regs.keyRange k) = s2.readRange Config.env (s1.regs.keyRange k)
  iv   : s1.readRange Config.env s1.regs.ivRange = s2.readRange Config.env s1.regs.ivRange
  aad  : s1.readRange Config.env s1.regs.aadRange = s2.readRange Config.env s1.regs.aadRange
  data : s1.readRange Config.env s1.regs.dataRange = s2.readRange Config.env s1.regs.dataRange

section
variable {k : KeySize} {s1 s2 : State} (h : SameMessage k s1 s2)
include h

theorem SameMessage.keyCipher : s1.keyCipher k = s2.keyCipher k := by
  rw [State.keyCipher, h.key, h.regs, State.keyCipher]

theorem SameMessage.payload : s1.payload k = s2.payload k := by
  rw [State.payload, h.keyCipher, h.iv, h.data, h.regs, State.payload]

theorem SameMessage.cutTag (tlen : BitVec 5) (ct : List Byte) :
    s1.cutTag k tlen ct = s2.cutTag k tlen ct := by
  rw [State.cutTag, h.keyCipher, h.iv, h.aad, h.regs, State.cutTag]

theorem SameMessage.verdict {tlen : BitVec 5}
    (htag : s1.readRange Config.env (s1.regs.tagRange tlen) =
      s2.readRange Config.env (s1.regs.tagRange tlen)) : s1.verdict k tlen = s2.verdict k tlen := by
  rw [State.verdict, h.cutTag, h.data, htag, h.regs, State.verdict]

theorem SameMessage.released (v : Auth) : s1.released k v = s2.released k v := by
  cases v with
  | authentic => exact h.payload
  | none => simp only [State.released, h.regs]
  | forged => simp only [State.released, h.regs]

end

/-- The verdict and the output bytes of an orchestrator command whose checks pass depend on its operand
registers and the bytes of its data and inputs alone. -/
theorem outputs_of_same_inputs {i : Instr} {s1 s2 : State} (hmsg : usesMessage i = true)
    (hm1 : s1.mem.ascending = true) (hm2 : s2.mem.ascending = true) (hregs : s1.regs = s2.regs)
    (hranges : ∀ r ∈ (commandFootprint i s1.regs).data :: (commandFootprint i s1.regs).inputs,
      s1.readRange Config.env r = s2.readRange Config.env r)
    (h1 : commandError i s1.memBytes s1.regs = none) (h2 : commandError i s2.memBytes s2.regs = none) :
    commandVerdict i s1 = commandVerdict i s2 ∧ ∀ r ∈ outputRanges i s1.regs,
      (commandEffect i s1).readRange Config.env r = (commandEffect i s2).readRange Config.env r := by
  obtain ⟨hkey, -, -, -, -⟩ := (commandError_eq_none_iff _ _ _).1 h1
  cases i with
  | encrypt ks tlen =>
    obtain ⟨k, rfl⟩ := Option.isSome_iff_exists.1 (Option.isNone_eq_false_iff.1 hkey)
    simp only [commandFootprint, Option.elim_some, encryptFootprint, List.forall_mem_cons] at hranges
    obtain ⟨hdata, hkeyBytes, hiv, haad, -⟩ := hranges
    have hsame : SameMessage k s1 s2 := ⟨hregs, hkeyBytes, hiv, haad, hdata⟩
    obtain ⟨hout1, htag1⟩ := readRange_encrypt hm1 h1
    obtain ⟨hout2, htag2⟩ := readRange_encrypt hm2 h2
    rw [← hregs] at hout2 htag2
    refine ⟨rfl, List.forall_mem_cons.2 ⟨?_, List.forall_mem_singleton.2 ?_⟩⟩
    · rw [hout1, hout2, hsame.payload]
    · rw [htag1, htag2, hsame.payload, hsame.cutTag]
  | decrypt ks tlen =>
    obtain ⟨k, rfl⟩ := Option.isSome_iff_exists.1 (Option.isNone_eq_false_iff.1 hkey)
    simp only [commandFootprint, Option.elim_some, decryptFootprint, List.forall_mem_cons] at hranges
    obtain ⟨hdata, hkeyBytes, hiv, haad, htag, -⟩ := hranges
    have hsame : SameMessage k s1 s2 := ⟨hregs, hkeyBytes, hiv, haad, hdata⟩
    have hverdict := hsame.verdict htag
    have hout1 := readRange_decrypt (k := k) (tlen := tlen) hm1
    have hout2 := readRange_decrypt (k := k) (tlen := tlen) hm2
    rw [← hregs] at hout2
    refine ⟨hverdict, List.forall_mem_singleton.2 ?_⟩
    rw [hout1, hout2, hverdict, hsame.released]
  | gfmul bd ba bb => cases hmsg
  | inc32 bd ba => cases hmsg
  | ldb bd => cases hmsg
  | stb ba => cases hmsg
  | hkey ks => cases hmsg
  | ghash => cases hmsg
  | gctr ks => cases hmsg

theorem writtenBlock_of_usesMessage {i : Instr} (h : usesMessage i = true) : writtenBlock i = none := by
  cases i with
  | encrypt ks tlen => rfl
  | decrypt ks tlen => rfl
  | gfmul bd ba bb => cases h
  | inc32 bd ba => cases h
  | ldb bd => cases h
  | stb ba => cases h
  | hkey ks => cases h
  | ghash => cases h
  | gctr ks => cases h

/-- Settles O57: the checks see the operand registers alone; where they pass, the verdict and the outputs
are those of `outputs_of_same_inputs`. -/
theorem orchestratorDependsOnNamedInputsOnly : Obligations.OrchestratorDependsOnNamedInputsOnly := by
  intro i s1 s2 hmsg hinv1 hinv2 hregs hsize hranges
  refine ⟨_, _, exec_eq i s1, exec_eq i s2, ?_⟩
  have hsameChecks : commandError i s2.memBytes s2.regs = commandError i s1.memBytes s1.regs := by
    rw [hregs, hsize]
  cases h1 : commandError i s1.memBytes s1.regs with
  | some e =>
    rw [commandRun_of_error h1, commandRun_of_error (hsameChecks.trans h1)]
    exact ⟨rfl, rfl, rfl, fun herr =>
      absurd ((statusErr_errorStatus e).symm.trans herr) (by decide)⟩
  | none =>
    have h2 := hsameChecks.trans h1
    have hblk : ∀ s, (commandEffect i s).blk = s.blk := fun s => by
      rw [commandEffect, writtenBlock_of_usesMessage hmsg]; rfl
    obtain ⟨hverdict, houtputs⟩ := outputs_of_same_inputs hmsg (wf_ascending hinv1.memory)
      (wf_ascending hinv2.memory) hregs hranges h1 h2
    rw [commandRun_of_checks h1, commandRun_of_checks h2]
    exact ⟨congrArg doneStatus hverdict, hblk s1, hblk s2, fun _ => houtputs⟩

end Sys2Proof.Machine
end

section
/-! DECRYPT undoes ENCRYPT (43_gcm.md R187). -/

namespace Sys2Proof.Machine

/-- The operand registers with the ciphertext as data, to be decrypted to `d` (43_gcm.md R187). -/
def OperandRegs.turned (r : OperandRegs) (d : Word) : OperandRegs :=
  { r with srcAddr := r.dstAddr, dstAddr := d }

section
variable {k : KeySize} {tlen : BitVec 5} {size : Nat} {r : OperandRegs}

/-- Where the checks of ENCRYPT pass, those of DECRYPT in place do: its data is the out range, which
overlaps no input and not the tag. -/
theorem decrypt_in_place_checks (h : commandError (.encrypt (some k) tlen) size r = none) :
    commandError (.decrypt (some k) tlen) size (r.turned r.dstAddr) = none := by
  obtain ⟨-, hiv, htag, hrange, hoverlap⟩ := (commandError_eq_none_iff _ _ _).1 h
  obtain ⟨hinputs, -, -, hsep⟩ := (overlapBad_eq_false_iff _).1 hoverlap
  refine (commandError_eq_none_iff _ _ _).2 ⟨rfl, hiv, htag, ?_, ?_⟩
  · rw [rangeBad_eq_false_iff] at hrange ⊢
    simp only [commandFootprint, Option.elim_some, encryptFootprint, Footprint.ranges,
      List.forall_mem_cons] at hrange
    obtain ⟨hout, htagFits, -, hkey, hivFits, haad, -⟩ := hrange
    simp only [commandFootprint, Option.elim_some, decryptFootprint, Footprint.ranges,
      List.forall_mem_cons]
    exact ⟨hout, rfl, hout, hkey, hivFits, haad, htagFits, fun _ hq => absurd hq List.not_mem_nil⟩
  · refine (overlapBad_eq_false_iff _).2 ⟨?_, .inl rfl, fun _ _ => rfl, rangesOverlap_comm _ _⟩
    simp only [commandFootprint, Option.elim_some, encryptFootprint, List.forall_mem_cons] at hinputs
    obtain ⟨hkey, hivSep, haad, -⟩ := hinputs
    simp only [commandFootprint, Option.elim_some, decryptFootprint, List.forall_mem_cons]
    exact ⟨hkey, hivSep, haad, hsep, fun _ hq => absurd hq List.not_mem_nil⟩

/-- The outputs of ENCRYPT share no address with its key, IV and AAD (R67). -/
theorem encrypt_outputs_separate (h : commandError (.encrypt (some k) tlen) size r = none) :
    ∀ q ∈ [r.keyRange k, r.ivRange, r.aadRange], ∀ p ∈ outputRanges (.encrypt (some k) tlen) r,
      rangesOverlap p q = false := by
  obtain ⟨-, -, -, -, hoverlap⟩ := (commandError_eq_none_iff _ _ _).1 h
  obtain ⟨hout, -, htag, -⟩ := (overlapBad_eq_false_iff _).1 hoverlap
  intro q hq
  exact List.forall_mem_cons.2 ⟨hout q hq, List.forall_mem_singleton.2 (htag q (.tail _ hq))⟩

end

section
variable {k : KeySize} {tlen : BitVec 5} {s : State} (hm : s.mem.ascending = true)
  (h : commandError (.encrypt (some k) tlen) s.memBytes s.regs = none) {e : State}
  (hmem : e.mem = (commandEffect (.encrypt (some k) tlen) s).mem) (hdraw : e.memDraw = s.memDraw)
  {d : Word} (hregs : e.regs = s.regs.turned d)
include hm h hmem hdraw hregs

/-- The state that ENCRYPT leaves, turned to decrypt: the same key, IV and AAD, the ciphertext as data and
the tag in its range. -/
theorem readRange_after_encrypt :
    e.readRange Config.env (e.regs.keyRange k) = s.readRange Config.env (s.regs.keyRange k) ∧
    e.readRange Config.env e.regs.ivRange = s.readRange Config.env s.regs.ivRange ∧
    e.readRange Config.env e.regs.aadRange = s.readRange Config.env s.regs.aadRange ∧
    e.readRange Config.env e.regs.dataRange = s.payload k ∧
    e.readRange Config.env (e.regs.tagRange tlen) = s.cutTag k tlen (s.payload k) := by
  have hread : ∀ q, e.readRange Config.env q =
      (commandEffect (.encrypt (some k) tlen) s).readRange Config.env q := fun q => by
    rw [State.readRange, State.memRead, State.init, hmem, hdraw]
    rfl
  have hsep := encrypt_outputs_separate h
  obtain ⟨hout, htag⟩ := readRange_encrypt hm h
  simp only [hread, hregs]
  exact ⟨readRange_commandEffect hm (hsep (s.regs.keyRange k) (by simp)),
    readRange_commandEffect hm (hsep s.regs.ivRange (by simp)),
    readRange_commandEffect hm (hsep s.regs.aadRange (by simp)), hout, htag⟩

/-- DECRYPT there finds the tags to agree, and its payload is the plaintext: GCTR twice. -/
theorem decrypt_after_encrypt :
    e.cutTag k tlen (e.readRange Config.env e.regs.dataRange) =
      e.readRange Config.env (e.regs.tagRange tlen) ∧
    e.payload k = s.readRange Config.env s.regs.dataRange := by
  obtain ⟨hkey, hiv, haad, hdata, htag⟩ := readRange_after_encrypt hm h hmem hdraw hregs
  have hcipher : e.keyCipher k = s.keyCipher k := by rw [State.keyCipher, hkey, State.keyCipher]
  constructor
  · rw [hdata, htag, State.cutTag, hcipher, hiv, haad, State.cutTag]
  · rw [State.payload, hcipher, hiv, hdata, State.payload, gcmPayload, gcmPayload, gctr_gctr]

/-- So DECRYPT is authentic and writes the plaintext. -/
theorem exec_decrypt_after_encrypt (hm' : e.mem.ascending = true)
    (hchecks : commandError (.decrypt (some k) tlen) e.memBytes e.regs = none) :
    ∃ u, exec (.decrypt (some k) tlen) e = .next u ∧ u.status = 0x00000012 ∧
      u.readRange Config.env e.regs.outRange = s.readRange Config.env s.regs.dataRange := by
  obtain ⟨htags, hpayload⟩ := decrypt_after_encrypt hm h hmem hdraw hregs
  refine ⟨_, (exec_decrypt_of_checks hchecks).trans (if_pos htags), rfl, ?_⟩
  rw [← hpayload]
  exact readRange_memWrite hm' (length_payload e k)

end

/-- Settles O58: in place the checks of DECRYPT pass (`decrypt_in_place_checks`), and wherever they pass it
undoes the ENCRYPT (`exec_decrypt_after_encrypt`). -/
theorem decryptUndoesEncrypt : Obligations.DecryptUndoesEncrypt := by
  intro k tlen s t hinv hexec herr
  obtain rfl := exec_eq_next_iff.1 hexec
  have h := checks_of_statusErr herr
  rw [commandRun_of_checks h]
  refine ⟨decrypt_in_place_checks h, fun d hchecks => ?_⟩
  exact exec_decrypt_after_encrypt (wf_ascending hinv.memory) h rfl rfl rfl
    (wf_ascending (commandEffect_wf h hinv.memory)) hchecks

end Sys2Proof.Machine
end
